-- ==== Sys2Proof/Word.lean ====
section
/-!
DEFINITION. The plain words of the HCC (spec/00_scope.md R6, R8, R10): bytes, 32-bit words, node indices, bit strings.
-/

namespace Sys2Proof

/-- A symbol, a payload byte or a byte of the serialized tree (00_scope.md R6, `SYM_W` = 8). -/
abbrev Byte := BitVec 8

/-- A command word, a register or a response word (00_scope.md R6, `CMD_W` = 32). -/
abbrev Word := BitVec 32

/-- A node index, 0..510, or `NULL` = 511 (00_scope.md R6, `IDX_W` = 9). -/
abbrev NodeIx := BitVec 9

/-- A bit string: its first bit is the leftmost (00_scope.md R10). -/
abbrev Bits := List Bool

end Sys2Proof
end

