-- ==== Sys2Proof/Syntax.lean ====
section
/-!
DEFINITION. The command set HCC-CMD version 1 (spec/30_encoding.md): formats, opcodes, commands with their operands, and the
assembler's lines and pseudo-instructions (R75, R76).
-/

namespace Sys2Proof

/-- The six formats of a command word (30_encoding.md R64 to R69). -/
inductive Format where
  | Z  -- no operand
  | B  -- one byte
  | F  -- increment and symbol
  | M  -- marker value
  | N  -- node index
  | C  -- code word number and symbol
  deriving DecidableEq, Repr

/-- The 24 opcodes (30_encoding.md R71), in the order of spec/opcode_table.json. -/
inductive Opcode where
  | nop | reset | clrErr | abort | mark
  | freqClr | freqAdd
  | build | derive
  | ser | desBegin | desByte | desEnd
  | encBegin | encSym | encEnd
  | decBegin | decByte | decEnd
  | rdReg | rdFreq | rdNode | rdClen | rdCode
  deriving DecidableEq, Repr

/-- A command: one constructor per row of spec/opcode_table.json, each operand at its field's width (30_encoding.md R70). -/
inductive Instr where
  | nop
  | reset
  | clrErr
  | abort
  | mark (imm : BitVec 24)
  | freqClr
  | freqAdd (s : Byte) (n : BitVec 16)
  | build
  | derive
  | ser
  | desBegin
  | desByte (b : Byte)
  | desEnd
  | encBegin
  | encSym (s : Byte)
  | encEnd
  | decBegin (pad : Byte)
  | decByte (b : Byte)
  | decEnd
  | rdReg (r : Byte)
  | rdFreq (s : Byte)
  | rdNode (idx : NodeIx)
  | rdClen (s : Byte)
  | rdCode (s : Byte) (k : BitVec 3)
  deriving DecidableEq, Repr

/-- One line of an assembler program (30_encoding.md R75): a mnemonic with its operands in the order the rule gives, each
any number the line may write, or the directive `word v`. -/
inductive AsmLine where
  | command (op : Opcode) (operands : List Nat)
  | word (v : Nat)
  deriving DecidableEq, Repr

/-- The pseudo-instructions (30_encoding.md R76); a string operand is its bytes. -/
inductive Pseudo where
  | count (s : Byte)
  | countStr (t : List Byte)
  | encStr (t : List Byte)
  | desStr (t : List Byte)
  | decBytes (bs : List Byte)
  | rdStatus
  | rdLast
  | rdErr
  | rdPadding
  | compress (t : List Byte)
  | decompress (tree : List Byte) (pad : Byte) (bs : List Byte)
  deriving DecidableEq, Repr

/-- Why a word spells no command (30_encoding.md R72, R73). -/
inductive Illegal where
  | unknownOpcode                -- R72: the opcode byte is none of the 24
  | reservedBits (op : Opcode)   -- R73: a 1 in a bit the opcode's format reserves
  deriving DecidableEq, Repr

end Sys2Proof
end

