-- ==== Sys2Proof/WellFormed.lean ====
section
/-!
DEFINITION. Which assembler lines are well formed (spec/30_encoding.md R75: "The assembler refuses an operand that does not fit
its field"). The operands of an `Instr` stand at their fields' widths (R70), so every `Instr` is the command of a
well-formed line; the checks are the line's.
-/

namespace Sys2Proof

/-- How many values each operand of a mnemonic has, in R75's operand order (30_encoding.md R65 to R69, R75). -/
def Opcode.operandSizes : Opcode → List Nat
  | .nop | .reset | .clrErr | .abort | .freqClr | .build | .derive | .ser
  | .desBegin | .desEnd | .encBegin | .encEnd | .decEnd => []
  | .desByte | .encSym | .decBegin | .decByte | .rdReg | .rdFreq | .rdClen => [256]
  | .mark => [16777216]
  | .freqAdd => [256, 65536]
  | .rdNode => [512]
  | .rdCode => [256, 8]

/-- Each operand fits its field, and there are as many operands as fields. -/
def operandsFit : List Nat → List Nat → Bool
  | [], [] => true
  | v :: vs, n :: ns => decide (v < n) && operandsFit vs ns
  | _, _ => false

/-- The assembler accepts the line (30_encoding.md R75). -/
def AsmLine.wellFormed : AsmLine → Bool
  | .command op operands => operandsFit operands op.operandSizes
  | .word v => decide (v < 4294967296)

/-- The assembler line of a command (30_encoding.md R75: mnemonic, then the operands in R75's order). -/
def Instr.line : Instr → AsmLine
  | .nop => .command .nop []
  | .reset => .command .reset []
  | .clrErr => .command .clrErr []
  | .abort => .command .abort []
  | .mark imm => .command .mark [imm.toNat]
  | .freqClr => .command .freqClr []
  | .freqAdd s n => .command .freqAdd [s.toNat, n.toNat]
  | .build => .command .build []
  | .derive => .command .derive []
  | .ser => .command .ser []
  | .desBegin => .command .desBegin []
  | .desByte b => .command .desByte [b.toNat]
  | .desEnd => .command .desEnd []
  | .encBegin => .command .encBegin []
  | .encSym s => .command .encSym [s.toNat]
  | .encEnd => .command .encEnd []
  | .decBegin pad => .command .decBegin [pad.toNat]
  | .decByte b => .command .decByte [b.toNat]
  | .decEnd => .command .decEnd []
  | .rdReg r => .command .rdReg [r.toNat]
  | .rdFreq s => .command .rdFreq [s.toNat]
  | .rdNode idx => .command .rdNode [idx.toNat]
  | .rdClen s => .command .rdClen [s.toNat]
  | .rdCode s k => .command .rdCode [s.toNat, k.toNat]

/-- A command is well formed when its line is. -/
def Instr.wellFormed (i : Instr) : Bool := i.line.wellFormed

end Sys2Proof
end

