-- ==== Sys2Proof/Decode.lean ====
section
/-!
DEFINITION. The encoding of commands (spec/30_encoding.md R63 to R76): opcode map, formats, the decoder (total on every 32-bit
word, rejecting by name), the encoder, the words of assembler lines, and the expansions of the pseudo-instructions.
-/

namespace Sys2Proof

/-- The opcode byte, bits [31:24] of the command word (30_encoding.md R71). -/
def Opcode.byte : Opcode → Byte
  | .nop => 0x00#8
  | .reset => 0x01#8
  | .clrErr => 0x02#8
  | .abort => 0x03#8
  | .mark => 0x04#8
  | .freqClr => 0x10#8
  | .freqAdd => 0x11#8
  | .build => 0x20#8
  | .derive => 0x21#8
  | .ser => 0x30#8
  | .desBegin => 0x31#8
  | .desByte => 0x32#8
  | .desEnd => 0x33#8
  | .encBegin => 0x40#8
  | .encSym => 0x41#8
  | .encEnd => 0x42#8
  | .decBegin => 0x50#8
  | .decByte => 0x51#8
  | .decEnd => 0x52#8
  | .rdReg => 0x60#8
  | .rdFreq => 0x61#8
  | .rdNode => 0x62#8
  | .rdClen => 0x63#8
  | .rdCode => 0x64#8

/-- The 24 opcodes in the table's order (30_encoding.md R71). -/
def Opcode.all : List Opcode :=
  [.nop, .reset, .clrErr, .abort, .mark, .freqClr, .freqAdd, .build, .derive, .ser, .desBegin, .desByte, .desEnd,
   .encBegin, .encSym, .encEnd, .decBegin, .decByte, .decEnd, .rdReg, .rdFreq, .rdNode, .rdClen, .rdCode]

/-- The opcode of an opcode byte; none for the 232 values of 30_encoding.md R72. -/
def opcodeOfByte (b : Byte) : Option Opcode := Opcode.all.find? fun op => op.byte == b

/-- The format column of 30_encoding.md R71. -/
def Opcode.format : Opcode → Format
  | .nop | .reset | .clrErr | .abort | .freqClr | .build | .derive | .ser
  | .desBegin | .desEnd | .encBegin | .encEnd | .decEnd => .Z
  | .desByte | .encSym | .decBegin | .decByte | .rdReg | .rdFreq | .rdClen => .B
  | .freqAdd => .F
  | .mark => .M
  | .rdNode => .N
  | .rdCode => .C

/-- The bits a format reserves, which must be 0 (30_encoding.md R64 to R69, R73). -/
def Format.reserved : Format → Word
  | .Z => 0x00FFFFFF#32
  | .B => 0x00FFFF00#32
  | .F => 0x00000000#32
  | .M => 0x00000000#32
  | .N => 0x00FFFE00#32
  | .C => 0x00FFF800#32

/-- The `mask` column of 30_encoding.md R71: the opcode and the reserved bits. -/
def Opcode.mask (op : Opcode) : Word := 0xFF000000#32 ||| op.format.reserved

/-- The `match` column of 30_encoding.md R71. -/
def Opcode.pattern (op : Opcode) : Word := op.byte ++ 0#24

/-- `opc`, bits [31:24] of a command word (30_encoding.md R63). -/
def opcField (w : Word) : Byte := w.extractLsb' 24 8

/-- `b`, `s`, `pad` or `r`: bits [7:0] (30_encoding.md R70). -/
def byteField (w : Word) : Byte := w.extractLsb' 0 8

/-- `n`: bits [23:8] (30_encoding.md R66, R70). -/
def countField (w : Word) : BitVec 16 := w.extractLsb' 8 16

/-- `imm`: bits [23:0] (30_encoding.md R67, R70). -/
def immField (w : Word) : BitVec 24 := w.extractLsb' 0 24

/-- `idx`: bits [8:0] (30_encoding.md R68, R70). -/
def idxField (w : Word) : NodeIx := w.extractLsb' 0 9

/-- `k`: bits [10:8] (30_encoding.md R69, R70). -/
def kField (w : Word) : BitVec 3 := w.extractLsb' 8 3

/-- The command of a known opcode with the operands of its format (30_encoding.md R70, R71). -/
def Opcode.withOperands (op : Opcode) (w : Word) : Instr :=
  match op with
  | .nop => .nop
  | .reset => .reset
  | .clrErr => .clrErr
  | .abort => .abort
  | .mark => .mark (immField w)
  | .freqClr => .freqClr
  | .freqAdd => .freqAdd (byteField w) (countField w)
  | .build => .build
  | .derive => .derive
  | .ser => .ser
  | .desBegin => .desBegin
  | .desByte => .desByte (byteField w)
  | .desEnd => .desEnd
  | .encBegin => .encBegin
  | .encSym => .encSym (byteField w)
  | .encEnd => .encEnd
  | .decBegin => .decBegin (byteField w)
  | .decByte => .decByte (byteField w)
  | .decEnd => .decEnd
  | .rdReg => .rdReg (byteField w)
  | .rdFreq => .rdFreq (byteField w)
  | .rdNode => .rdNode (idxField w)
  | .rdClen => .rdClen (byteField w)
  | .rdCode => .rdCode (byteField w) (kField w)

/-- Decode a command word: the opcode first (30_encoding.md R72), then the reserved bits (R73). -/
def decode (w : Word) : Except Illegal Instr :=
  match opcodeOfByte (opcField w) with
  | none => .error .unknownOpcode
  | some op =>
    if w &&& op.format.reserved = 0#32 then .ok (op.withOperands w) else .error (.reservedBits op)

/-- The opcode of a command (30_encoding.md R71). -/
def Instr.opcode : Instr → Opcode
  | .nop => .nop
  | .reset => .reset
  | .clrErr => .clrErr
  | .abort => .abort
  | .mark _ => .mark
  | .freqClr => .freqClr
  | .freqAdd _ _ => .freqAdd
  | .build => .build
  | .derive => .derive
  | .ser => .ser
  | .desBegin => .desBegin
  | .desByte _ => .desByte
  | .desEnd => .desEnd
  | .encBegin => .encBegin
  | .encSym _ => .encSym
  | .encEnd => .encEnd
  | .decBegin _ => .decBegin
  | .decByte _ => .decByte
  | .decEnd => .decEnd
  | .rdReg _ => .rdReg
  | .rdFreq _ => .rdFreq
  | .rdNode _ => .rdNode
  | .rdClen _ => .rdClen
  | .rdCode _ _ => .rdCode

/-- The argument, bits [23:0], of a command's word (30_encoding.md R64 to R69). -/
def Instr.arg : Instr → BitVec 24
  | .nop | .reset | .clrErr | .abort | .freqClr | .build | .derive | .ser
  | .desBegin | .desEnd | .encBegin | .encEnd | .decEnd => 0#24
  | .desByte b | .decByte b => b.setWidth 24
  | .encSym s | .rdFreq s | .rdClen s => s.setWidth 24
  | .decBegin pad => pad.setWidth 24
  | .rdReg r => r.setWidth 24
  | .mark imm => imm
  | .freqAdd s n => n ++ s
  | .rdNode idx => idx.setWidth 24
  | .rdCode s k => (k ++ s).setWidth 24

/-- The word of a command (30_encoding.md R63 to R71). -/
def encode (i : Instr) : Word := i.opcode.byte ++ i.arg

/-- The row of spec/opcode_table.json whose `nbits` bits are `w`: a command is one word on 32 parallel wires
(20_memory.md R53), so the row's bits are the command word's bits. -/
def tableWord (nbits w : Nat) : Word := BitVec.ofNat 32 (w % 2 ^ nbits)

/-- The command that the decoder reads from a row's bits; none where it refuses. -/
def decodeTableWord (nbits w : Nat) : Option Instr :=
  match decode (tableWord nbits w) with
  | .ok i => some i
  | .error _ => none

/-- The argument of a line's operands, in R75's operand order (30_encoding.md R64 to R70, R75). -/
def Format.argOf (f : Format) (operands : List Nat) : BitVec 24 :=
  match f, operands with
  | .F, [s, n] => BitVec.ofNat 16 n ++ BitVec.ofNat 8 s
  | .C, [s, k] => (BitVec.ofNat 3 k ++ BitVec.ofNat 8 s).setWidth 24
  | _, [v] => BitVec.ofNat 24 v
  | _, _ => 0#24

/-- The word the assembler makes of a line; none where it refuses the line (30_encoding.md R75). -/
def assemble (l : AsmLine) : Option Word :=
  if l.wellFormed then
    match l with
    | .command op operands => some (op.byte ++ op.format.argOf operands)
    | .word v => some (BitVec.ofNat 32 v)
  else none

/-- The commands a pseudo-instruction stands for (30_encoding.md R76). -/
def Pseudo.expand : Pseudo → List Instr
  | .count s => [.freqAdd s 1#16]
  | .countStr t => t.map fun b => .freqAdd b 1#16
  | .encStr t => t.map .encSym
  | .desStr t => t.map .desByte
  | .decBytes bs => bs.map .decByte
  | .rdStatus => [.rdReg 0x01#8]
  | .rdLast => [.rdReg 0x02#8]
  | .rdErr => [.rdReg 0x03#8]
  | .rdPadding => [.rdReg 0x08#8]
  | .compress t =>
    [.freqClr] ++ (t.map fun b => .freqAdd b 1#16) ++ [.build, .derive, .ser, .encBegin] ++ t.map .encSym ++
      [.encEnd, .rdReg 0x08#8]
  | .decompress tree pad bs =>
    [.desBegin] ++ tree.map .desByte ++ [.desEnd, .decBegin pad] ++ bs.map .decByte ++ [.decEnd]

end Sys2Proof
end

