-- ==== Sys2Proof/Config.lean ====
section
/-!
DEFINITION. The fixed parameters of the HCC (spec/00_scope.md R6) and its two constant registers (10_state.md R24, R33).
The open parameters of R7 (`CMD_FIFO_DEPTH`, `OUT_FIFO_DEPTH`, `LATENCY`) change no command's effect and are omitted, as
92_eei_decisions.md ("Open parameters") allows: log entries 2 and 3.
-/

namespace Sys2Proof.Config

/-- `NSYM`: how many symbols there are (00_scope.md R6). -/
def nsym : Nat := 256

/-- `NODE_CAP`: how many node entries there are, indices 0..510 (00_scope.md R6). -/
def nodeCap : Nat := 511

/-- `NULL`, the index that names no node (00_scope.md R6). -/
def null : NodeIx := 0x1FF#9

/-- `MAX_CODE_LEN` (00_scope.md R6). -/
def maxCodeLen : Nat := 255

/-- `TOTAL_MAX` = 2^32 − 1 (00_scope.md R6). -/
def totalMax : Nat := 4294967295

/-- The constant register `ID`, the bytes `HUF1` (10_state.md R24). -/
def id : Word := 0x48554631#32

/-- The constant register `CONFIG`: `FREQ_W`, `MAX_CODE_LEN`, `NODE_CAP` (10_state.md R33). -/
def config : Word := 0x20FF01FF#32

end Sys2Proof.Config
end

