-- ==== Sys2Proof/Machine/State.lean ====
section
/-!
DEFINITION. The state of the HCC (spec/10_state.md R20 to R45; 20_memory.md R46 to R50), as plain data, its reset value, and the
reasons a step can stop.

The three tables are lists of (index, entry) pairs, indices strictly rising, that list no entry equal to its reset value: an
index that is not listed holds the reset value of R45 (0 in `FREQ`, cleared in `NODE` and `CODE`). `ID` and `CONFIG` are
constants (Config.lean); `STATUS` and `ERR_PENDING` are computed on read (R23; Flags.lean).
-/

namespace Sys2Proof.Machine

/-- `MODE` (10_state.md R22): a 2-bit register, each of whose four values is named. -/
inductive Mode where
  | idle | des | enc | dec
  deriving DecidableEq, Repr

/-- An entry of `NODE`: the six fields of 10_state.md R37, which have 60 bits in all. DESIGN CHOICE (log entry 20): 20_memory.md
R51 gives the entry as 61 bits but lists the same six fields; the model holds these and no further bit. -/
structure Node where
  used : Bool
  leaf : Bool
  freq : Word
  sym : Byte
  left : NodeIx
  right : NodeIx
  deriving DecidableEq, Repr

/-- An entry of `CODE` (10_state.md R39): 264 bits. Code bit `BITS[j]` is bit j of the field `bits` (log entry 9). -/
structure CodeEntry where
  valid : Bool
  len : BitVec 8
  bits : BitVec 255
  deriving DecidableEq, Repr

/-- The tags of output words (20_memory.md R46); tags 5, 6 and 7 are never emitted. -/
inductive Tag where
  | payload | tree | symbol | resp | mark
  deriving DecidableEq, Repr

/-- An output word: a tag and 32 bits of data (20_memory.md R46). -/
structure OutWord where
  tag : Tag
  data : Word
  deriving DecidableEq, Repr

/-- One rising edge of `clk` (20_memory.md R48, R50): the levels the host drives, and the HCC's own choice, which the rules
leave open (R50, 00_scope.md R7), of whether it is ready for a command and whether it offers its front output word. -/
structure Edge where
  rst : Bool
  cmdValid : Bool
  cmdData : Word
  outReady : Bool
  cmdReady : Bool
  outValid : Bool
  deriving DecidableEq, Repr

/-- What happens next: the HCC executes its oldest accepted command, or a clock edge passes at the ports. How many edges
pass between two commands is `LATENCY` (00_scope.md R7), which the rules leave open. -/
inductive Turn where
  | run
  | edge (e : Edge)
  deriving DecidableEq, Repr

/-- The state of the HCC. -/
structure State where
  mode : Mode                        -- R22
  last : Word                        -- R26
  err : Word                         -- R27
  root : NodeIx                      -- R28
  nodeCount : BitVec 10              -- R28
  treeValid : Bool                   -- R28
  total : Word                       -- R29
  distinct : BitVec 9                -- R29
  padding : BitVec 3                 -- R30
  encBits : BitVec 64                -- R31
  decSyms : Word                     -- R32
  decPad : BitVec 3                  -- R32
  sessErr : Word                     -- R34
  freq : List (Nat × Word)           -- R36, by symbol
  nodes : List (Nat × Node)          -- R37, by node index
  codes : List (Nat × CodeEntry)     -- R39, by symbol
  codesValid : Bool                  -- R40
  acc : Bits                         -- R41
  ptr : NodeIx                       -- R42
  pend : Option Byte                 -- R42
  sessFailed : Bool                  -- R42
  desBuf : List Byte                 -- R43
  sent : List OutWord                -- R47: the output words already transferred, oldest first
  outq : List OutWord                -- R47: the output words not yet transferred, oldest first
  cmdq : List Word                   -- R160: the command words accepted and not yet executed, oldest first
  cmdOffer : Option Word             -- R50: the command word the host offers and has not yet transferred
  outHeld : Bool                     -- R50: the HCC has raised out_valid for the front word
  turns : List Turn                  -- the model's own: what the host, the clock and LATENCY do next (log entry 2)
  deriving DecidableEq, Repr

/-- Why a step faults. In every state a run reaches, 10_state.md R38 holds and no command raises either: they stop the
model in states the spec says do not occur (log entry 8). -/
inductive Fault where
  /-- A traversal of the node table follows the index `NULL`, which names no entry (10_state.md R37). Raised by DERIVE, SER,
  DEC_BYTE and DEC_END when the held tree is not that of R38. Safe: the model stops where the rules give no effect. -/
  | noSuchNode
  /-- A traversal from `ROOT` does not end within the bounds that every tree of R38 keeps (R94: a path of at most 255 edges;
  R37: at most 511 nodes). Raised by DERIVE and SER. Safe: the model stops where the rules give no effect. -/
  | notATree
  deriving DecidableEq, Repr

/-- Why a step is refused. -/
inductive Refusal where
  /-- The instruction has no meaning in this model yet. Raised by a refused arm of `exec`; no arm is refused. Safe. -/
  | notModelled (mnemonic : String)
  /-- The host dropped `cmd_valid` or changed `cmd_data` before the transfer. Raised by a clock edge; 70_reset_and_hazards.md
  R168 leaves the effect unspecified and 93_implementation_defined.md U2 says a model refuses such a host. Safe. -/
  | handshakeBroken
  deriving DecidableEq, Repr

/-- The state after reset (10_state.md R45; 70_reset_and_hazards.md R160, R163). -/
def State.reset : State :=
  { mode := .idle
    last := 0#32
    err := 0#32
    root := Config.null
    nodeCount := 0#10
    treeValid := false
    total := 0#32
    distinct := 0#9
    padding := 0#3
    encBits := 0#64
    decSyms := 0#32
    decPad := 0#3
    sessErr := 0#32
    freq := []
    nodes := []
    codes := []
    codesValid := false
    acc := []
    ptr := Config.null
    pend := none
    sessFailed := false
    desBuf := []
    sent := []
    outq := []
    cmdq := []
    cmdOffer := none
    outHeld := false
    turns := [] }

end Sys2Proof.Machine
end

