-- ==== Sys2Proof/Machine/Table.lean ====
section
/-!
DEFINITION. Reading and writing the three tables (spec/10_state.md R36, R37, R39; 20_memory.md R51): a list of (index, entry)
pairs in one canonical form, indices strictly rising and no entry equal to the reset value that an unlisted index holds.
-/

namespace Sys2Proof.Machine

/-- The entry at an index; `d` is the reset value an unlisted index holds. -/
def tableGet {α : Type} (d : α) : List (Nat × α) → Nat → α
  | [], _ => d
  | (k', v) :: t, k => if k' = k then v else tableGet d t k

/-- Write the entry at an index, keeping the canonical form. -/
def tablePut {α : Type} [DecidableEq α] (d : α) : List (Nat × α) → Nat → α → List (Nat × α)
  | [], k, v => if v = d then [] else [(k, v)]
  | (k', v') :: t, k, v =>
    if k < k' then (if v = d then (k', v') :: t else (k, v) :: (k', v') :: t)
    else if k = k' then (if v = d then t else (k, v) :: t)
    else (k', v') :: tablePut d t k v

/-- The table whose entry at index i is the i-th of a list; every entry must differ from the reset value. -/
def tableOfList {α : Type} (entries : List α) : List (Nat × α) := entries.zipIdx.map fun p => (p.2, p.1)

/-- The canonical form: indices strictly rising and below the table's size, no entry equal to the reset value. -/
abbrev TableWf {α : Type} (d : α) (size : Nat) (t : List (Nat × α)) : Prop :=
  t.Pairwise (fun a b => a.1 < b.1) ∧ ∀ p ∈ t, p.1 < size ∧ p.2 ≠ d

/-- A cleared node entry: every field 0 (10_state.md R37). -/
def Node.cleared : Node := ⟨false, false, 0#32, 0#8, 0#9, 0#9⟩

/-- A cleared code entry (10_state.md R39). -/
def CodeEntry.cleared : CodeEntry := ⟨false, 0#8, 0#255⟩

/-- `FREQ[s]` (10_state.md R36). -/
def State.freqAt (s : State) (sym : Byte) : Word := tableGet 0#32 s.freq sym.toNat

/-- `FREQ[s] <- v` (10_state.md R36). -/
def State.setFreq (s : State) (sym : Byte) (v : Word) : State := { s with freq := tablePut 0#32 s.freq sym.toNat v }

/-- `NODE[i]` of a node table, for an index 0..510 (10_state.md R37). -/
def nodeIn (nodes : List (Nat × Node)) (i : NodeIx) : Node := tableGet Node.cleared nodes i.toNat

/-- `NODE[i]` as a traversal reads it: `NULL` names no entry (10_state.md R37, 00_scope.md R6). -/
def nodeAt? (nodes : List (Nat × Node)) (i : NodeIx) : Option Node :=
  if i = Config.null then none else some (nodeIn nodes i)

/-- `CODE[s]` (10_state.md R39). -/
def State.codeAt (s : State) (sym : Byte) : CodeEntry := tableGet CodeEntry.cleared s.codes sym.toNat

/-- The table of every symbol's entry, built in ascending symbol order from the symbols that have one. -/
def tableOfSymbols {α : Type} (entry : Byte → Option α) : List (Nat × α) :=
  (List.range Config.nsym).filterMap fun n => (entry (BitVec.ofNat 8 n)).map fun v => (n, v)

end Sys2Proof.Machine
end

