-- ==== Sys2Proof/Machine/Errors.lean ====
section
/-!
DEFINITION. Error codes and result words (spec/60_exceptions.md R140, R141; 10_state.md R25). An error is a result, never a
stop (R146, R148).
-/

namespace Sys2Proof.Machine

/-- The sub-causes of `MALFORMED_TREE` (60_exceptions.md R140). -/
inductive TreeDefect where
  | badToken | badSeparator | freqRange | rawNewline | badSymbol | endMidRecord
  | sentinelChild | missingChild | leftover | tooManyNodes
  deriving DecidableEq, Repr

/-- The sub-causes of `BITSTREAM_UNDERRUN` (60_exceptions.md R140). -/
inductive Underrun where
  | nullRoot | nullChild | endMidCode
  deriving DecidableEq, Repr

/-- What a command raises (60_exceptions.md R140). -/
inductive Cause where
  | emptyInput
  | malformedTree (d : TreeDefect)
  | underrun (u : Underrun)
  | paddingRange (pad : Byte)
  | paddingNoBytes (pad : BitVec 3)
  | unknownOpcode
  | reservedBits
  | badIndex (low : Byte)
  | sequence (m : Mode)
  | noTree
  | noCodes
  | freqOverflow (s : Byte)
  | unknownSymbol (s : Byte)
  | dupSymbol (s : Byte)
  | stored (result : Word)   -- 44_bitstream.md R123: the session's earlier error, from its result word
  deriving DecidableEq, Repr

/-- `MODE` as its 2-bit value (10_state.md R22). -/
def Mode.bits : Mode → BitVec 2
  | .idle => 0#2
  | .des => 1#2
  | .enc => 2#2
  | .dec => 3#2

/-- DETAIL of `MALFORMED_TREE` (60_exceptions.md R140). -/
def TreeDefect.detail : TreeDefect → Byte
  | .badToken => 1#8
  | .badSeparator => 2#8
  | .freqRange => 3#8
  | .rawNewline => 4#8
  | .badSymbol => 5#8
  | .endMidRecord => 6#8
  | .sentinelChild => 7#8
  | .missingChild => 8#8
  | .leftover => 9#8
  | .tooManyNodes => 10#8

/-- DETAIL of `BITSTREAM_UNDERRUN` (60_exceptions.md R140). -/
def Underrun.detail : Underrun → Byte
  | .nullRoot => 1#8
  | .nullChild => 2#8
  | .endMidCode => 3#8

/-- CODE, bits [23:16], of a result word (10_state.md R25). -/
def codeOf (r : Word) : Byte := r.extractLsb' 16 8

/-- DETAIL, bits [15:8], of a result word (10_state.md R25). -/
def detailOf (r : Word) : Byte := r.extractLsb' 8 8

/-- INFO, bits [7:0], of a result word (10_state.md R25). -/
def infoOf (r : Word) : Byte := r.extractLsb' 0 8

/-- CODE of a cause (60_exceptions.md R140). -/
def Cause.code : Cause → Byte
  | .emptyInput => 0x01#8
  | .malformedTree _ => 0x02#8
  | .underrun _ => 0x03#8
  | .paddingRange _ => 0x04#8
  | .paddingNoBytes _ => 0x04#8
  | .unknownOpcode => 0x10#8
  | .reservedBits => 0x10#8
  | .badIndex _ => 0x10#8
  | .sequence _ => 0x11#8
  | .noTree => 0x12#8
  | .noCodes => 0x13#8
  | .freqOverflow _ => 0x14#8
  | .unknownSymbol _ => 0x15#8
  | .dupSymbol _ => 0x16#8
  | .stored r => codeOf r

/-- DETAIL of a cause (60_exceptions.md R140). -/
def Cause.detail : Cause → Byte
  | .emptyInput => 0#8
  | .malformedTree d => d.detail
  | .underrun u => u.detail
  | .paddingRange _ => 1#8
  | .paddingNoBytes _ => 2#8
  | .unknownOpcode => 1#8
  | .reservedBits => 2#8
  | .badIndex _ => 3#8
  | .sequence _ => 0#8
  | .noTree => 0#8
  | .noCodes => 0#8
  | .freqOverflow _ => 0#8
  | .unknownSymbol _ => 0#8
  | .dupSymbol _ => 0#8
  | .stored r => detailOf r

/-- INFO of a cause (60_exceptions.md R140). -/
def Cause.info : Cause → Byte
  | .emptyInput => 0#8
  | .malformedTree _ => 0#8
  | .underrun _ => 0#8
  | .paddingRange pad => pad
  | .paddingNoBytes pad => pad.setWidth 8
  | .unknownOpcode => 0#8
  | .reservedBits => 0#8
  | .badIndex low => low
  | .sequence m => m.bits.setWidth 8
  | .noTree => 0#8
  | .noCodes => 0#8
  | .freqOverflow s => s
  | .unknownSymbol s => s
  | .dupSymbol s => s
  | .stored r => infoOf r

/-- The result word of a command that completed without error (10_state.md R25). -/
def okResult (opc : Byte) : Word := opc ++ 0#24

/-- The result word of a command that raised (10_state.md R25, 60_exceptions.md R141). -/
def errResult (opc : Byte) (c : Cause) : Word := opc ++ c.code ++ c.detail ++ c.info

end Sys2Proof.Machine
end

