-- ==== Sys2Proof/Machine/Flags.lean ====
section
/-!
DEFINITION. The status register and the registers read by `RD_REG` (spec/10_state.md R23 to R35). The HCC has no arithmetic
flags; its flags are the fields of `STATUS`, computed on read.
-/

namespace Sys2Proof.Machine

/-- A Boolean as a register bit. -/
def flagBit (b : Bool) : BitVec 1 := BitVec.ofBool b

/-- `ERR_PENDING`: 1 exactly when `ERR.CODE != 0` (10_state.md R23, R27). -/
def State.errPending (s : State) : Bool := codeOf s.err != 0#8

/-- `STATUS` (10_state.md R23). -/
def State.status (s : State) : Word :=
  0#26 ++ flagBit s.sessFailed ++ flagBit s.errPending ++ flagBit s.codesValid ++ flagBit s.treeValid ++ s.mode.bits

/-- The registers of the index map (10_state.md R35). -/
inductive Reg where
  | id | status | last | err | root | nodeCount | distinct | total | padding
  | encBitsLo | encBitsHi | decSyms | decPad | config | sessErr
  deriving DecidableEq, Repr

/-- The register an index names; none for 0x0F..0xFF (10_state.md R35). -/
def regOfIndex (r : Byte) : Option Reg :=
  match r.toNat with
  | 0x00 => some .id
  | 0x01 => some .status
  | 0x02 => some .last
  | 0x03 => some .err
  | 0x04 => some .root
  | 0x05 => some .nodeCount
  | 0x06 => some .distinct
  | 0x07 => some .total
  | 0x08 => some .padding
  | 0x09 => some .encBitsLo
  | 0x0A => some .encBitsHi
  | 0x0B => some .decSyms
  | 0x0C => some .decPad
  | 0x0D => some .config
  | 0x0E => some .sessErr
  | _ => none

/-- The value a register reads as, unused high bits 0 (10_state.md R23 to R34, 46_readback.md R134). -/
def State.readReg (s : State) : Reg → Word
  | .id => Config.id
  | .status => s.status
  | .last => s.last
  | .err => s.err
  | .root => s.root.setWidth 32
  | .nodeCount => s.nodeCount.setWidth 32
  | .distinct => s.distinct.setWidth 32
  | .total => s.total
  | .padding => s.padding.setWidth 32
  | .encBitsLo => s.encBits.extractLsb' 0 32
  | .encBitsHi => s.encBits.extractLsb' 32 32
  | .decSyms => s.decSyms
  | .decPad => s.decPad.setWidth 32
  | .config => Config.config
  | .sessErr => s.sessErr

end Sys2Proof.Machine
end

