-- ==== Sys2Proof/Machine/Operands.lean ====
section
/-!
DEFINITION. What an operand names, and the operand range checks (spec/60_exceptions.md R144, step 5): the register index of
`RD_REG`, the node index of `RD_NODE`, the padding count of `DEC_BEGIN`. Every operand is the plain unsigned value of its field
(30_encoding.md R70); a symbol or a data byte is never out of range (20_memory.md R54).
-/

namespace Sys2Proof.Machine

/-- The register operand of `RD_REG`: `ILLEGAL_COMMAND` BAD_INDEX above 0x0E (46_readback.md R134). -/
def regOperand (r : Byte) : Except Cause Reg :=
  match regOfIndex r with
  | some reg => .ok reg
  | none => .error (.badIndex r)

/-- The node operand of `RD_NODE`: `ILLEGAL_COMMAND` BAD_INDEX above 510 (46_readback.md R136). -/
def nodeOperand (idx : NodeIx) : Except Cause NodeIx :=
  if idx.toNat > 510 then .error (.badIndex (idx.extractLsb' 0 8)) else .ok idx

/-- The padding operand of `DEC_BEGIN`: `PADDING_OUT_OF_RANGE` RANGE above 7 (44_bitstream.md R121). -/
def padOperand (pad : Byte) : Except Cause (BitVec 3) :=
  if pad.toNat > 7 then .error (.paddingRange pad) else .ok (pad.setWidth 3)

end Sys2Proof.Machine
end

