-- ==== Sys2Proof/Machine/Ops.lean ====
section
/-!
DEFINITION. The operations every command shares: emitting output words (spec/20_memory.md R47), admission by mode
(60_exceptions.md R143), raising an error and ending a command (R141, R142), the responses of reads (46_readback.md R133), and
clearing the tree, the codes and the whole state. An error is how the HCC "takes an exception": it transfers no control and
saves nothing but its result word (R146), so taking it is `State.record`, and the return from it is the next command (R147).
-/

namespace Sys2Proof.Machine

/-- `emit(tag, v)` (20_memory.md R47, 00_scope.md R11). -/
def State.emit (s : State) (tag : Tag) (v : Word) : State := { s with outq := s.outq ++ [⟨tag, v⟩] }

/-- `emit(tag, b)` for each byte of a list, in order; the byte sits in data[7:0] (20_memory.md R53). -/
def State.emitBytes (s : State) (tag : Tag) (bs : List Byte) : State :=
  { s with outq := s.outq ++ bs.map fun b => ⟨tag, b.setWidth 32⟩ }

/-- `emit(RESP, v)` for each word of a list, in order (46_readback.md R133). -/
def State.respond (s : State) (ws : List Word) : State :=
  { s with outq := s.outq ++ ws.map fun w => ⟨.resp, w⟩ }

/-- The end of a command: `LAST <- result`, and `ERR <- result` for the first error (60_exceptions.md R142). -/
def State.record (s : State) (result : Word) : State :=
  { s with
    last := result
    err := if codeOf result ≠ 0#8 ∧ codeOf s.err = 0#8 then result else s.err }

/-- How the body of a command ends: without error, by `raise` (60_exceptions.md R141: what was written before stays), or by
a traversal that the rules give no effect. -/
inductive Ended where
  | ok (s : State)
  | raised (c : Cause) (s : State)
  | stuck (f : Fault)
  deriving DecidableEq, Repr

/-- Go on from a body that ended without error (60_exceptions.md R141: `raise` ends the command at once). -/
def Ended.andThen (e : Ended) (next : State → Ended) : Ended :=
  match e with
  | .ok s => next s
  | .raised c s => .raised c s
  | .stuck f => .stuck f

/-- The end of a command with opcode byte `opc` (60_exceptions.md R142). -/
def finish (opc : Byte) (e : Ended) : Host.Outcome State Fault Refusal :=
  match e with
  | .ok s => .next (s.record (okResult opc))
  | .raised c s => .next (s.record (errResult opc c))
  | .stuck f => .fault f

/-- The commands each mode admits (60_exceptions.md R143). -/
def admitted (op : Opcode) (m : Mode) : Bool :=
  match op with
  | .nop | .reset | .clrErr | .abort | .mark => true
  | .rdReg | .rdFreq | .rdClen | .rdCode => true
  | .rdNode => m != .des
  | .freqClr | .freqAdd | .build | .derive | .ser => m == .idle
  | .desBegin | .encBegin | .decBegin => m == .idle
  | .desByte | .desEnd => m == .des
  | .encSym | .encEnd => m == .enc
  | .decByte | .decEnd => m == .dec

/-- A command that is no read: the mode check, then its body (60_exceptions.md R144). -/
def command (op : Opcode) (s : State) (body : State → Ended) : Host.Outcome State Fault Refusal :=
  finish op.byte (if admitted op s.mode then body s else .raised (.sequence s.mode) s)

/-- How many RESP words a read emits, and 0 for every other command (46_readback.md R133). -/
def responseCount : Opcode → Nat
  | .rdNode => 2
  | .rdReg | .rdFreq | .rdClen | .rdCode => 1
  | .nop | .reset | .clrErr | .abort | .mark | .freqClr | .freqAdd | .build | .derive | .ser | .desBegin | .desByte
  | .desEnd | .encBegin | .encSym | .encEnd | .decBegin | .decByte | .decEnd => 0

/-- A read that raises still emits its fixed number of RESP words, all 0 (46_readback.md R133). -/
def State.respondZeros (s : State) (op : Opcode) : State := s.respond (List.replicate (responseCount op) 0#32)

/-- A read command: the mode check, the range check of its operand, then its response words (46_readback.md R133). -/
def readCommand (op : Opcode) (s : State) (response : State → Except Cause (List Word)) :
    Host.Outcome State Fault Refusal :=
  match if admitted op s.mode then response s else .error (.sequence s.mode) with
  | .ok ws => finish op.byte (.ok (s.respond ws))
  | .error c => finish op.byte (.raised c (s.respondZeros op))

/-- A word that spells no command (30_encoding.md R72, R73): its result word, and a read opcode's zero responses. -/
def illegalWord (w : Word) (e : Illegal) (s : State) : Host.Outcome State Fault Refusal :=
  match e with
  | .unknownOpcode => finish (opcField w) (.raised .unknownOpcode s)
  | .reservedBits op => finish (opcField w) (.raised .reservedBits (s.respondZeros op))

/-- Every `CODE` entry cleared and `CODES_VALID` 0 (10_state.md R39, R40). -/
def State.clearCodes (s : State) : State := { s with codes := [], codesValid := false }

/-- Every `NODE` entry cleared, `ROOT` NULL, `NODE_COUNT` 0, `TREE_VALID` 0 (10_state.md R28, R37). -/
def State.clearTree (s : State) : State :=
  { s with nodes := [], root := Config.null, nodeCount := 0#10, treeValid := false }

/-- The node table holds an accepted tree, which may be the empty one (10_state.md R28). -/
def State.setTree (s : State) (nodes : List (Nat × Node)) (root : NodeIx) (count : BitVec 10) : State :=
  { s with nodes := nodes, root := root, nodeCount := count, treeValid := true }

/-- Every piece of state of 10_state.md R45 at its reset value; the output sequence and the ports are kept
(45_control.md R129, 70_reset_and_hazards.md R161). -/
def State.resetCore (s : State) : State :=
  { State.reset with
    sent := s.sent
    outq := s.outq
    cmdq := s.cmdq
    cmdOffer := s.cmdOffer
    outHeld := s.outHeld
    turns := s.turns }

end Sys2Proof.Machine
end

