-- ==== Sys2Proof/Machine/Control.lean ====
section
/-!
DEFINITION. The control commands (spec/45_control.md R128 to R132).
-/

namespace Sys2Proof.Machine

/-- `NOP` (45_control.md R128). -/
def execNop (s : State) : Host.Outcome State Fault Refusal := command .nop s fun s => .ok s

/-- `RESET` (45_control.md R129, 70_reset_and_hazards.md R161). -/
def execReset (s : State) : Host.Outcome State Fault Refusal := command .reset s fun s => .ok s.resetCore

/-- `CLR_ERR` (45_control.md R130). -/
def execClrErr (s : State) : Host.Outcome State Fault Refusal := command .clrErr s fun s => .ok { s with err := 0#32 }

/-- Close the open session without finishing it (45_control.md R131). -/
def State.abortSession (s : State) : State :=
  match s.mode with
  | .idle => s
  | .des => { s with desBuf := [], mode := .idle }
  | .enc => { s with acc := [], mode := .idle }
  | .dec => { s with pend := none, sessFailed := false, mode := .idle }

/-- `ABORT` (45_control.md R131). -/
def execAbort (s : State) : Host.Outcome State Fault Refusal := command .abort s fun s => .ok s.abortSession

/-- `MARK imm` (45_control.md R132). -/
def execMark (imm : BitVec 24) (s : State) : Host.Outcome State Fault Refusal :=
  command .mark s fun s => .ok (s.emit .mark (imm.setWidth 32))

end Sys2Proof.Machine
end

