-- ==== Sys2Proof/Machine/Frequency.lean ====
section
/-!
DEFINITION. The frequency counter (spec/40_frequency.md R77, R78).
-/

namespace Sys2Proof.Machine

/-- `FREQ_CLR` (40_frequency.md R77). -/
def execFreqClr (s : State) : Host.Outcome State Fault Refusal :=
  command .freqClr s fun s => .ok { s with freq := [], total := 0#32, distinct := 0#9 }

/-- Count n more occurrences of a symbol (40_frequency.md R78, after the overflow check). -/
def State.count (s : State) (sym : Byte) (n : BitVec 16) : State :=
  { s.setFreq sym (s.freqAt sym + n.setWidth 32) with
    distinct := if n ≠ 0#16 ∧ s.freqAt sym = 0#32 then s.distinct + 1#9 else s.distinct
    total := s.total + n.setWidth 32 }

/-- `FREQ_ADD s, n` (40_frequency.md R78). -/
def execFreqAdd (sym : Byte) (n : BitVec 16) (s : State) : Host.Outcome State Fault Refusal :=
  command .freqAdd s fun s =>
    if s.total.toNat + n.toNat > Config.totalMax then .raised (.freqOverflow sym) s else .ok (s.count sym n)

end Sys2Proof.Machine
end

