-- ==== Sys2Proof/Machine/CodeDeriver.lean ====
section
/-!
DEFINITION. The code-table deriver (spec/42_code_deriver.md R90 to R93).
-/

namespace Sys2Proof.Machine

/-- The entry that stores a code: `LEN` bits, `BITS[j]` = bit j of the code, unused positions 0 (10_state.md R39). -/
def CodeEntry.ofBits (p : Bits) : CodeEntry :=
  ⟨true, BitVec.ofNat 8 p.length, (BitVec.ofBoolListLE p).setWidth 255⟩

/-- The code an entry holds, `BITS[0 .. LEN−1]` (10_state.md R39). -/
def CodeEntry.code (e : CodeEntry) : Bits := (List.range e.len.toNat).map fun j => e.bits.getLsbD j

/-- The working map T from symbol to bit string (42_code_deriver.md R92); not state. -/
abbrev CodeMap := List (Byte × Bits)

/-- How a walk ends early. -/
inductive WalkStop where
  | dup (s : Byte)      -- two leaves with one symbol (42_code_deriver.md R93)
  | stuck (f : Fault)   -- not a tree of 10_state.md R38 (log entry 8)
  deriving DecidableEq, Repr

/-- `walk(i, p)`: depth first, left before right (42_code_deriver.md R92). The first argument bounds the nodes on a path. -/
def walk (nodes : List (Nat × Node)) : Nat → NodeIx → Bits → CodeMap → Except WalkStop CodeMap
  | 0, _, _, _ => .error (.stuck .notATree)
  | n + 1, i, p, T =>
    match nodeAt? nodes i with
    | none => .error (.stuck .noSuchNode)
    | some x =>
      if x.leaf then
        match T.lookup x.sym with
        | some _ => .error (.dup x.sym)
        | none => .ok ((x.sym, p) :: T)
      else
        match walk nodes n x.left (p ++ [false]) T with
        | .error e => .error e
        | .ok T' => walk nodes n x.right (p ++ [true]) T'

/-- The map of the tree at a root that is a node: the one-leaf tree's code is `0` (42_code_deriver.md R91), any other
leaf's code is its path (R90), of at most `MAX_CODE_LEN` edges (R94). -/
def codeMap (nodes : List (Nat × Node)) (root : NodeIx) : Except WalkStop CodeMap :=
  match nodeAt? nodes root with
  | none => .error (.stuck .noSuchNode)
  | some x => if x.leaf then .ok [(x.sym, [false])] else walk nodes (Config.maxCodeLen + 1) root [] []

/-- The code table of a map (42_code_deriver.md R92). -/
def codeTable (T : CodeMap) : List (Nat × CodeEntry) := tableOfSymbols fun s => (T.lookup s).map CodeEntry.ofBits

/-- The code table of a tree; the empty tree has no codes (42_code_deriver.md R92). -/
def deriveCodes (nodes : List (Nat × Node)) (root : NodeIx) : Except WalkStop (List (Nat × CodeEntry)) :=
  if root = Config.null then .ok []
  else
    match codeMap nodes root with
    | .error e => .error e
    | .ok T => .ok (codeTable T)

/-- `DERIVE` (42_code_deriver.md R92). -/
def execDerive (s : State) : Host.Outcome State Fault Refusal :=
  command .derive s fun s =>
    if s.treeValid then
      match deriveCodes s.nodes s.root with
      | .ok codes => .ok { s.clearCodes with codes := codes, codesValid := true }
      | .error (.dup sym) => .raised (.dupSymbol sym) s.clearCodes
      | .error (.stuck f) => .stuck f
    else .raised .noTree s

end Sys2Proof.Machine
end

