-- ==== Sys2Proof/Machine/Bitstream.lean ====
section
/-!
DEFINITION. The bitstream packer and unpacker (spec/44_bitstream.md R113 to R124).
-/

namespace Sys2Proof.Machine

/-- The number whose binary digits are a bit string, first bit most significant (20_memory.md R52). -/
def bitsValue (b : Bits) : Nat := b.foldl (fun v x => 2 * v + x.toNat) 0

/-- `byte(b0..b7)`: bit 7 is b0, bit 0 is b7 (44_bitstream.md, introduction; 20_memory.md R52). -/
def byteOf (b : Bits) : Byte := BitVec.ofNat 8 (bitsValue b)

/-- `expand(p)` = `bit(p, 0)` · … · `bit(p, 7)` (44_bitstream.md R118). -/
def expand (p : Byte) : Bits := (List.range 8).map fun j => p.getLsbD (7 - j)

/-- The first `k` bytes of a bit string, 8 bits each (44_bitstream.md R113). -/
def packBytes : Nat → Bits → List Byte
  | 0, _ => []
  | k + 1, b => byteOf (b.take 8) :: packBytes k (b.drop 8)

/-- `ENC_BEGIN` (44_bitstream.md R114). -/
def execEncBegin (s : State) : Host.Outcome State Fault Refusal :=
  command .encBegin s fun s =>
    if s.codesValid then .ok { s with acc := [], encBits := 0#64, padding := 0#3, mode := .enc }
    else .raised .noCodes s

/-- Append a code to `ACC`, count its bits, and emit every full byte (44_bitstream.md R115). -/
def State.pack (s : State) (e : CodeEntry) : State :=
  let b := s.acc ++ e.code
  { s with acc := b.drop (8 * (b.length / 8)), encBits := s.encBits + e.len.setWidth 64 }.emitBytes .payload
    (packBytes (b.length / 8) b)

/-- `ENC_SYM s` (44_bitstream.md R115). -/
def execEncSym (sym : Byte) (s : State) : Host.Outcome State Fault Refusal :=
  command .encSym s fun s =>
    if (s.codeAt sym).valid then .ok (s.pack (s.codeAt sym)) else .raised (.unknownSymbol sym) s

/-- Emit the last byte, padded with zero bits, and set `PADDING` (44_bitstream.md R116). -/
def State.flush (s : State) : State :=
  if s.acc.length > 0 then
    { s with padding := BitVec.ofNat 3 (8 - s.acc.length) }.emitBytes .payload
      [byteOf (s.acc ++ List.replicate (8 - s.acc.length) false)]
  else { s with padding := 0#3 }

/-- `ENC_END` (44_bitstream.md R116). -/
def execEncEnd (s : State) : Host.Outcome State Fault Refusal :=
  command .encEnd s fun s => .ok { s.flush with acc := [], mode := .idle }

/-- Emit a decoded symbol: `DEC_SYMS` counts it modulo 2^32 and `PTR` goes back to the root (44_bitstream.md R119). -/
def State.decoded (s : State) (sym : Byte) : State :=
  { s.emitBytes .symbol [sym] with decSyms := s.decSyms + 1#32, ptr := s.root }

/-- The step of a one-leaf tree (44_bitstream.md R120): `PTR` stays where it is. -/
def State.singleLeafStep (s : State) (leaf : Node) (bit : Bool) : Ended :=
  if bit then .raised (.underrun .nullChild) s
  else .ok { s.emitBytes .symbol [leaf.sym] with decSyms := s.decSyms + 1#32 }

/-- `step(bit)` when the root is an internal node (44_bitstream.md R119). -/
def State.walkStep (s : State) (bit : Bool) : Ended :=
  match nodeAt? s.nodes s.ptr with
  | none => .stuck .noSuchNode
  | some x =>
    let c := if bit then x.right else x.left
    match nodeAt? s.nodes c with
    | none => .raised (.underrun .nullChild) s
    | some y => if y.leaf then .ok ({ s with ptr := c }.decoded y.sym) else .ok { s with ptr := c }

/-- `step(bit)` (44_bitstream.md R119). -/
def State.bitStep (s : State) (bit : Bool) : Ended :=
  match nodeAt? s.nodes s.root with
  | none => .raised (.underrun .nullRoot) s
  | some r => if r.leaf then s.singleLeafStep r bit else s.walkStep bit

/-- Step a bit string, bit after bit; the first error ends it (44_bitstream.md R118, 60_exceptions.md R145). -/
def State.bitSteps (s : State) : Bits → Ended
  | [] => .ok s
  | b :: bs => (s.bitStep b).andThen fun s' => s'.bitSteps bs

/-- `DEC_BEGIN pad` (44_bitstream.md R121). -/
def execDecBegin (pad : Byte) (s : State) : Host.Outcome State Fault Refusal :=
  command .decBegin s fun s =>
    if s.treeValid then
      match padOperand pad with
      | .error c => .raised c s
      | .ok p =>
        .ok { s with
          decPad := p, ptr := s.root, pend := none, decSyms := 0#32, sessFailed := false, sessErr := 0#32, mode := .dec }
    else .raised .noTree s

/-- An error of a `DEC_BYTE`: the session has failed (44_bitstream.md R122, R124). -/
def failSession (e : Ended) : Ended :=
  match e with
  | .ok s => .ok s
  | .raised c s => .raised c { s with sessFailed := true, pend := none, sessErr := errResult Opcode.decByte.byte c }
  | .stuck f => .stuck f

/-- `DEC_BYTE b` (44_bitstream.md R122). -/
def execDecByte (b : Byte) (s : State) : Host.Outcome State Fault Refusal :=
  command .decByte s fun s =>
    if s.sessFailed then .ok s
    else
      match s.pend with
      | none => .ok { s with pend := some b }
      | some p => failSession ({ s with pend := some b }.bitSteps (expand p))

/-- An error that `DEC_END` meets: `SESS_ERR` holds it with `DEC_END`'s opcode (44_bitstream.md R123). -/
def endWith (c : Cause) (s : State) : Ended := .raised c { s with sessErr := errResult Opcode.decEnd.byte c }

/-- The last byte without its padding bits, or the complaint of a padding count with no byte (44_bitstream.md R123). -/
def State.expandLast (s : State) : Ended :=
  match s.pend with
  | some p =>
    match { s with pend := none }.bitSteps ((expand p).take (8 - s.decPad.toNat)) with
    | .ok t => .ok t
    | .raised c t => endWith c t
    | .stuck f => .stuck f
  | none => if s.decPad ≠ 0#3 then endWith (.paddingNoBytes s.decPad) s else .ok s

/-- The bits must end at a code boundary (44_bitstream.md R123). -/
def State.endAtRoot (s : State) : Ended := if s.ptr ≠ s.root then endWith (.underrun .endMidCode) s else .ok s

/-- `DEC_END` (44_bitstream.md R123). -/
def execDecEnd (s : State) : Host.Outcome State Fault Refusal :=
  command .decEnd s fun s =>
    let closed := { s with mode := .idle }
    if s.sessFailed then .raised (.stored s.sessErr) { closed with sessFailed := false }
    else closed.expandLast.andThen State.endAtRoot

end Sys2Proof.Machine
end

