-- ==== Sys2Proof/Machine/Readback.lean ====
section
/-!
DEFINITION. The read-back commands (spec/46_readback.md R133 to R139).
-/

namespace Sys2Proof.Machine

/-- `RD_REG r` (46_readback.md R134). -/
def execRdReg (r : Byte) (s : State) : Host.Outcome State Fault Refusal :=
  readCommand .rdReg s fun s =>
    match regOperand r with
    | .error c => .error c
    | .ok reg => .ok [s.readReg reg]

/-- `RD_FREQ s` (46_readback.md R135). -/
def execRdFreq (sym : Byte) (s : State) : Host.Outcome State Fault Refusal :=
  readCommand .rdFreq s fun s => .ok [s.freqAt sym]

/-- The first response word of `RD_NODE` (46_readback.md R136). -/
def Node.linkWord (e : Node) : Word :=
  flagBit e.used ++ flagBit e.leaf ++ 0#3 ++ e.left ++ e.right ++ 0#1 ++ e.sym

/-- `RD_NODE idx` (46_readback.md R136). -/
def execRdNode (idx : NodeIx) (s : State) : Host.Outcome State Fault Refusal :=
  readCommand .rdNode s fun s =>
    match nodeOperand idx with
    | .error c => .error c
    | .ok i => .ok [(nodeIn s.nodes i).linkWord, (nodeIn s.nodes i).freq]

/-- `RD_CLEN s` (46_readback.md R137). -/
def execRdClen (sym : Byte) (s : State) : Host.Outcome State Fault Refusal :=
  readCommand .rdClen s fun s => .ok [flagBit (s.codeAt sym).valid ++ 0#23 ++ (s.codeAt sym).len]

/-- Word k of a code: code bit 32k + j is word bit 31 − j, and bits past `LEN` are 0 (46_readback.md R138). -/
def CodeEntry.word (e : CodeEntry) (k : BitVec 3) : Word :=
  BitVec.ofNat 32 (bitsValue ((List.range 32).map fun j =>
    decide (32 * k.toNat + j < e.len.toNat) && e.bits.getLsbD (32 * k.toNat + j)))

/-- `RD_CODE s, k` (46_readback.md R138). -/
def execRdCode (sym : Byte) (k : BitVec 3) (s : State) : Host.Outcome State Fault Refusal :=
  readCommand .rdCode s fun s => .ok [(s.codeAt sym).word k]

end Sys2Proof.Machine
end

