-- ==== Sys2Proof/Machine/TreeBuilder.lean ====
section
/-!
DEFINITION. The tree builder (spec/41_tree_builder.md R81 to R85).
-/

namespace Sys2Proof.Machine

/-- An element of the active set: a node index with the frequency of its entry (41_tree_builder.md R81). -/
structure QueueEntry where
  index : NodeIx
  freq : Word
  deriving DecidableEq, Repr

/-- The node order ≺ (41_tree_builder.md R81). -/
def QueueEntry.precedes (x y : QueueEntry) : Bool :=
  decide (x.freq < y.freq) || (decide (x.freq = y.freq) && decide (x.index < y.index))

/-- The ≺-least of an element and a list. -/
def leastOf : QueueEntry → List QueueEntry → QueueEntry
  | x, [] => x
  | x, y :: ys => leastOf (if y.precedes x then y else x) ys

/-- Extract `min≺(A)` from the active set; none when it is empty (41_tree_builder.md R81). -/
def extractLeast : List QueueEntry → Option (QueueEntry × List QueueEntry)
  | [] => none
  | x :: xs => some (leastOf x xs, (x :: xs).erase (leastOf x xs))

/-- The builder's working store: the node entries made so far, by index, and the active set. -/
structure Merger where
  nodes : List Node
  active : List QueueEntry
  deriving DecidableEq, Repr

/-- The internal node that joins the first extracted (left) and the second (right) (41_tree_builder.md R84). -/
def joinNode (a b : QueueEntry) : Node := ⟨true, false, a.freq + b.freq, 0#8, a.index, b.index⟩

/-- One turn of `while |A| >= 2` (41_tree_builder.md R84, R85); no change once one element is left. -/
def mergeOnce (m : Merger) : Merger :=
  match extractLeast m.active with
  | none => m
  | some (a, rest) =>
    match extractLeast rest with
    | none => m
    | some (b, rest') =>
      { nodes := m.nodes ++ [joinNode a b]
        active := rest' ++ [⟨BitVec.ofNat 9 m.nodes.length, a.freq + b.freq⟩] }

/-- `k` turns of the merge loop; each removes one element of the active set, so n leaves need n − 1 (41_tree_builder.md R87). -/
def mergeTimes : Nat → Merger → Merger
  | 0, m => m
  | k + 1, m => mergeTimes k (mergeOnce m)

/-- The leaves, one per symbol with a count, in ascending symbol order (41_tree_builder.md R83). -/
def leafNodes (freq : List (Nat × Word)) : List Node :=
  (List.range Config.nsym).filterMap fun n =>
    let f := tableGet 0#32 freq n
    if f = 0#32 then none else some ⟨true, true, f, BitVec.ofNat 8 n, Config.null, Config.null⟩

/-- The leaves at indices 0..n−1 and the active set {0, .., n−1} (41_tree_builder.md R83, R85). -/
def startMerge (leaves : List Node) : Merger :=
  { nodes := leaves
    active := leaves.zipIdx.map fun p => ⟨BitVec.ofNat 9 p.2, p.1.freq⟩ }

/-- The whole merge from the leaves (41_tree_builder.md R85). -/
def mergeAll (leaves : List Node) : Merger := mergeTimes (leaves.length - 1) (startMerge leaves)

/-- `ROOT`: the one element of the active set at the end (41_tree_builder.md R85). -/
def Merger.root (m : Merger) : NodeIx :=
  match m.active with
  | [] => Config.null
  | r :: _ => r.index

/-- `BUILD` (41_tree_builder.md R85). -/
def execBuild (s : State) : Host.Outcome State Fault Refusal :=
  command .build s fun s =>
    let leaves := leafNodes s.freq
    if leaves = [] then .raised .emptyInput (s.clearCodes.setTree [] Config.null 0#10)
    else
      let m := mergeAll leaves
      .ok (s.clearCodes.setTree (tableOfList m.nodes) m.root (BitVec.ofNat 10 m.nodes.length))

end Sys2Proof.Machine
end

