-- ==== Sys2Proof/Machine/TreeCodec.lean ====
section
/-!
DEFINITION. The tree codec (spec/43_tree_codec.md R96 to R110): the byte format, the serializer, the scanner, the
reconstruction, and the commands `SER`, `DES_BEGIN`, `DES_BYTE`, `DES_END`.
-/

namespace Sys2Proof.Machine

/-- SP, the only separator (43_tree_codec.md R96). -/
def chSP : Byte := 0x20#8

/-- LF, never raw in a serialized tree (43_tree_codec.md R96). -/
def chLF : Byte := 0x0A#8

/-- `\`, the first byte of the newline escape (43_tree_codec.md R96). -/
def chBackslash : Byte := 0x5C#8

/-- `n`, the second byte of the newline escape (43_tree_codec.md R96). -/
def chN : Byte := 0x6E#8

/-- A decimal digit 0x30..0x39 (43_tree_codec.md R96). -/
def isDigit (b : Byte) : Bool := decide (0x30 ≤ b.toNat) && decide (b.toNat ≤ 0x39)

/-- The decimal numeral of a number of at most `n` digits, most significant digit first, no leading zero. -/
def digitsOf : Nat → Nat → List Byte
  | 0, _ => []
  | n + 1, v => if v < 10 then [BitVec.ofNat 8 (0x30 + v)] else digitsOf n (v / 10) ++ [BitVec.ofNat 8 (0x30 + v % 10)]

/-- `dec(v)`, of 1 to 10 bytes (43_tree_codec.md R97). -/
def decimal (v : Word) : List Byte := digitsOf 10 v.toNat

/-- The sentinel `-1` (43_tree_codec.md R98). -/
def sentinel : List Byte := [0x2D#8, 0x31#8]

/-- `sym(s)`: only the newline is escaped (43_tree_codec.md R99). -/
def symbolToken (s : Byte) : List Byte := if s = chLF then [chBackslash, chN] else [s]

/-- A record of a serialized tree (43_tree_codec.md R100, R104). -/
inductive Record where
  | sentinel
  | internal (f : Word)
  | leaf (f : Word) (s : Byte)
  deriving DecidableEq, Repr

/-- The bytes of a record (43_tree_codec.md R100). -/
def Record.bytes : Record → List Byte
  | .sentinel => Sys2Proof.Machine.sentinel
  | .internal f => decimal f
  | .leaf f s =>
    decimal f ++ [chSP] ++ Sys2Proof.Machine.sentinel ++ [chSP] ++ Sys2Proof.Machine.sentinel ++ [chSP] ++ symbolToken s

/-- Records joined by one SP each (43_tree_codec.md R100). -/
def joinRecords : List Record → List Byte
  | [] => []
  | [r] => r.bytes
  | r :: rs => r.bytes ++ [chSP] ++ joinRecords rs

/-- The records of the tree in breadth-first order (43_tree_codec.md R101). The first argument bounds the nodes popped. -/
def breadthFirst (nodes : List (Nat × Node)) : Nat → List NodeIx → Except Fault (List Record)
  | _, [] => .ok []
  | 0, _ :: _ => .error .notATree
  | n + 1, i :: q =>
    match nodeAt? nodes i with
    | none => .error .noSuchNode
    | some x =>
      if x.leaf then
        match breadthFirst nodes n q with
        | .error e => .error e
        | .ok rs => .ok (.leaf x.freq x.sym :: rs)
      else
        match breadthFirst nodes n (q ++ [x.left, x.right]) with
        | .error e => .error e
        | .ok rs => .ok (.internal x.freq :: rs)

/-- `serialize(NODE, ROOT)` (43_tree_codec.md R101); a tree has at most 511 nodes (10_state.md R37). -/
def serialize (nodes : List (Nat × Node)) (root : NodeIx) : Except Fault (List Byte) :=
  if root = Config.null then .ok []
  else
    match breadthFirst nodes Config.nodeCap [root] with
    | .error e => .error e
    | .ok rs => .ok (joinRecords rs)

/-- `SER` (43_tree_codec.md R102). -/
def execSer (s : State) : Host.Outcome State Fault Refusal :=
  command .ser s fun s =>
    if s.treeValid then
      match serialize s.nodes s.root with
      | .ok bytes => .ok (s.emitBytes .tree bytes)
      | .error f => .stuck f
    else .raised .noTree s

/-- The classification of a numeric run (43_tree_codec.md R103). -/
inductive NumTok where
  | sent
  | num (v : Word)
  deriving DecidableEq, Repr

/-- The value of a run of digits; leading zeros are allowed (43_tree_codec.md R103). -/
def numeral (run : List Byte) : Nat := run.foldl (fun v b => 10 * v + (b.toNat - 0x30)) 0

/-- `numtok`'s classification of a run, in the order of its table (43_tree_codec.md R103). -/
def classify (run : List Byte) : Except TreeDefect NumTok :=
  if run.contains chLF then .error .rawNewline
  else if run.isEmpty then .error .badSeparator
  else if run = sentinel then .ok .sent
  else if run.all isDigit then
    if numeral run ≤ Config.totalMax then .ok (.num (BitVec.ofNat 32 (numeral run))) else .error .freqRange
  else .error .badToken

/-- The states of the scanner at the start of a numeric run (43_tree_codec.md R104). -/
inductive ScanState where
  | ready
  | afterNum (f : Word)
  | afterNumS (f : Word)
  deriving DecidableEq, Repr

/-- What a token does (43_tree_codec.md R104): append records and go to a state, or enter the symbol phase. -/
inductive TokenEffect where
  | next (added : List Record) (st : ScanState)
  | symbol (f : Word)
  deriving DecidableEq, Repr

/-- The scanner's `case (st, t)` (43_tree_codec.md R104). -/
def ScanState.token : ScanState → NumTok → TokenEffect
  | .ready, .sent => .next [.sentinel] .ready
  | .ready, .num v => .next [] (.afterNum v)
  | .afterNum f, .num v => .next [.internal f] (.afterNum v)
  | .afterNum f, .sent => .next [] (.afterNumS f)
  | .afterNumS f, .num v => .next [.internal f, .sentinel] (.afterNum v)
  | .afterNumS f, .sent => .symbol f

/-- The records the end of the stream adds in a state (43_tree_codec.md R104). -/
def ScanState.atEnd : ScanState → List Record
  | .ready => []
  | .afterNum f => [.internal f]
  | .afterNumS f => [.internal f, .sentinel]

/-- Where the scanner stands in the stream: inside a numeric run with the run's bytes so far; before a symbol; after a
`\` that may begin the newline escape; just after a symbol (43_tree_codec.md R104, R105; log entry 11). -/
inductive Cursor where
  | number (st : ScanState) (run : List Byte)
  | symbol (f : Word)
  | escape (f : Word)
  | symbolDone
  deriving DecidableEq, Repr

/-- The scanner: its cursor and the records so far, R. -/
structure Scanner where
  cursor : Cursor
  records : List Record
  deriving DecidableEq, Repr

/-- The scanner at the start of a stream (43_tree_codec.md R104). -/
def Scanner.start : Scanner := ⟨.number .ready [], []⟩

/-- The scanner takes the next byte of the stream (43_tree_codec.md R103 to R105). -/
def Scanner.byte (z : Scanner) (b : Byte) : Except TreeDefect Scanner :=
  match z.cursor with
  | .number st run =>
    if b = chSP then
      match classify run with
      | .error d => .error d
      | .ok t =>
        match st.token t with
        | .next added st' => .ok ⟨.number st' [], z.records ++ added⟩
        | .symbol f => .ok ⟨.symbol f, z.records⟩
    else .ok ⟨.number st (run ++ [b]), z.records⟩
  | .symbol f =>
    if b = chLF then .error .rawNewline
    else if b = chBackslash then .ok ⟨.escape f, z.records⟩
    else .ok ⟨.symbolDone, z.records ++ [.leaf f b]⟩
  | .escape f =>
    if b = chN then .ok ⟨.symbolDone, z.records ++ [.leaf f chLF]⟩
    else if b = chSP then .ok ⟨.number .ready [], z.records ++ [.leaf f chBackslash]⟩
    else .error .badSymbol
  | .symbolDone => if b = chSP then .ok ⟨.number .ready [], z.records⟩ else .error .badSymbol

/-- The scanner at the end of the stream (43_tree_codec.md R103 to R105). -/
def Scanner.finish (z : Scanner) : Except TreeDefect (List Record) :=
  match z.cursor with
  | .number st run =>
    match classify run with
    | .error d => .error d
    | .ok t =>
      match st.token t with
      | .next added st' => .ok (z.records ++ added ++ st'.atEnd)
      | .symbol _ => .error .endMidRecord
  | .symbol _ => .error .endMidRecord
  | .escape f => .ok (z.records ++ [.leaf f chBackslash])
  | .symbolDone => .ok z.records

/-- The scanner takes bytes in stream order and stops at the first error (43_tree_codec.md R104). -/
def Scanner.run : Scanner → List Byte → Except TreeDefect Scanner
  | z, [] => .ok z
  | z, b :: bs =>
    match z.byte b with
    | .error d => .error d
    | .ok z' => z'.run bs

/-- What the scanner answers when the rest of the stream is `B` (43_tree_codec.md R104, R105). -/
def scanFrom (z : Scanner) (B : List Byte) : Except TreeDefect (List Record) :=
  match z.run B with
  | .error d => .error d
  | .ok z' => z'.finish

/-- `scan(B)` (43_tree_codec.md R104). -/
def scan (B : List Byte) : Except TreeDefect (List Record) := if B.isEmpty then .ok [] else scanFrom Scanner.start B

/-- The entry `alloc` makes for a record, its children not yet known; none for a sentinel (43_tree_codec.md R106). -/
def Record.node? : Record → Option Node
  | .sentinel => none
  | .internal f => some ⟨true, false, f, 0#8, Config.null, Config.null⟩
  | .leaf f s => some ⟨true, true, f, s, Config.null, Config.null⟩

/-- The side of the front of Q that takes the next child (43_tree_codec.md R106). -/
inductive Side where
  | left | right
  deriving DecidableEq, Repr

/-- The reconstruction's working store (43_tree_codec.md R106): the entries by index, Q, and the side. -/
structure Rebuild where
  nodes : List Node
  queue : List Nat
  side : Side
  deriving DecidableEq, Repr

/-- Attach child `i` on a side of an entry (43_tree_codec.md R106). -/
def Node.attach (x : Node) (side : Side) (i : NodeIx) : Node :=
  match side with
  | .left => { x with left := i }
  | .right => { x with right := i }

/-- The body of `for r in r2..rm` (43_tree_codec.md R106). -/
def Rebuild.record (z : Rebuild) (r : Record) : Except TreeDefect Rebuild :=
  match z.queue with
  | [] => .error .leftover
  | h :: q =>
    match r.node? with
    | none => .error .sentinelChild
    | some x =>
      if z.nodes.length = Config.nodeCap then .error .tooManyNodes
      else
        let i := z.nodes.length
        let q' := match z.side with
          | .left => h :: q
          | .right => q
        .ok
          { nodes := (z.nodes.modify h fun y => y.attach z.side (BitVec.ofNat 9 i)) ++ [x]
            queue := if x.leaf then q' else q' ++ [i]
            side := match z.side with
              | .left => .right
              | .right => .left }

/-- The records after the first, in order (43_tree_codec.md R106). -/
def Rebuild.run : Rebuild → List Record → Except TreeDefect Rebuild
  | z, [] => .ok z
  | z, r :: rs =>
    match z.record r with
    | .error d => .error d
    | .ok z' => z'.run rs

/-- `build(R)`: the entries by index, none for the empty tree; the root is index 0 (43_tree_codec.md R106). -/
def rebuild : List Record → Except TreeDefect (List Node)
  | [] => .ok []
  | r :: rs =>
    match r.node? with
    | none => if rs.all (· == .sentinel) then .ok [] else .error .leftover
    | some x =>
      match Rebuild.run ⟨[x], if x.leaf then [] else [0], .left⟩ rs with
      | .error d => .error d
      | .ok z => if z.queue.isEmpty then .ok z.nodes else .error .missingChild

/-- `deserialize(B)` = `build(scan(B))` (43_tree_codec.md R107). -/
def deserialize (B : List Byte) : Except TreeDefect (List Node) :=
  match scan B with
  | .error d => .error d
  | .ok R => rebuild R

/-- `DES_BEGIN` (43_tree_codec.md R108). -/
def execDesBegin (s : State) : Host.Outcome State Fault Refusal :=
  command .desBegin s fun s => .ok { s.clearTree.clearCodes with desBuf := [], mode := .des }

/-- `DES_BYTE b` (43_tree_codec.md R109). -/
def execDesByte (b : Byte) (s : State) : Host.Outcome State Fault Refusal :=
  command .desByte s fun s => .ok { s with desBuf := s.desBuf ++ [b] }

/-- `DES_END` (43_tree_codec.md R110). -/
def execDesEnd (s : State) : Host.Outcome State Fault Refusal :=
  command .desEnd s fun s =>
    let closed := { s with desBuf := [], mode := .idle }
    match deserialize s.desBuf with
    | .error d => .raised (.malformedTree d) closed
    | .ok nodes =>
      .ok (closed.setTree (tableOfList nodes) (if nodes.isEmpty then Config.null else 0#9) (BitVec.ofNat 10 nodes.length))

end Sys2Proof.Machine
end

