-- ==== Sys2Proof/Machine/Dispatch.lean ====
section
/-!
DEFINITION. The meaning of each command (spec/30_encoding.md R71), one arm per constructor of `Instr`.
-/

namespace Sys2Proof.Machine

def exec (i : Instr) (s : State) : Host.Outcome State Fault Refusal :=
  match i with
  | .nop => Sys2Proof.Machine.execNop s
  | .reset => Sys2Proof.Machine.execReset s
  | .clrErr => Sys2Proof.Machine.execClrErr s
  | .abort => Sys2Proof.Machine.execAbort s
  | .mark imm => Sys2Proof.Machine.execMark imm s
  | .freqClr => Sys2Proof.Machine.execFreqClr s
  | .freqAdd sym n => Sys2Proof.Machine.execFreqAdd sym n s
  | .build => Sys2Proof.Machine.execBuild s
  | .derive => Sys2Proof.Machine.execDerive s
  | .ser => Sys2Proof.Machine.execSer s
  | .desBegin => Sys2Proof.Machine.execDesBegin s
  | .desByte b => Sys2Proof.Machine.execDesByte b s
  | .desEnd => Sys2Proof.Machine.execDesEnd s
  | .encBegin => Sys2Proof.Machine.execEncBegin s
  | .encSym sym => Sys2Proof.Machine.execEncSym sym s
  | .encEnd => Sys2Proof.Machine.execEncEnd s
  | .decBegin pad => Sys2Proof.Machine.execDecBegin pad s
  | .decByte b => Sys2Proof.Machine.execDecByte b s
  | .decEnd => Sys2Proof.Machine.execDecEnd s
  | .rdReg r => Sys2Proof.Machine.execRdReg r s
  | .rdFreq sym => Sys2Proof.Machine.execRdFreq sym s
  | .rdNode idx => Sys2Proof.Machine.execRdNode idx s
  | .rdClen sym => Sys2Proof.Machine.execRdClen sym s
  | .rdCode sym k => Sys2Proof.Machine.execRdCode sym k s

end Sys2Proof.Machine
end

