-- ==== Sys2Proof/Machine/Ports.lean ====
section
/-!
DEFINITION. The two ports and the reset pin (spec/20_memory.md R46 to R50; 70_reset_and_hazards.md R160, R168, R172), and taking
the next accepted command (R49).
-/

namespace Sys2Proof.Machine

/-- `out_tag` of a tag (20_memory.md R46). -/
def Tag.bits : Tag → BitVec 3
  | .payload => 0#3
  | .tree => 1#3
  | .symbol => 2#3
  | .resp => 3#3
  | .mark => 4#3

/-- An output word as its 35 bits (20_memory.md R46). -/
def OutWord.bits (w : OutWord) : BitVec 35 := w.tag.bits ++ w.data

/-- The output sequence: every word emitted, in emission order (20_memory.md R47). -/
def State.output (s : State) : List OutWord := s.sent ++ s.outq

/-- `cmd_ready` at an edge (20_memory.md R48: 0 while `rst` is high). -/
def Edge.cmdReadyPin (e : Edge) : Bool := !e.rst && e.cmdReady

/-- `out_valid` at an edge: the HCC may offer its front word, and once it has raised `out_valid` keeps it high
(20_memory.md R48, R50). -/
def State.outValidPin (s : State) (e : Edge) : Bool := !e.rst && (e.outValid || s.outHeld) && !s.outq.isEmpty

/-- `out_tag` and `out_data` while `out_valid` is high: the front word (20_memory.md R50). -/
def State.outPins (s : State) : Option (BitVec 3 × Word) :=
  match s.outq with
  | [] => none
  | w :: _ => some (w.tag.bits, w.data)

/-- The command port transfers a word at this edge (20_memory.md R50). -/
def Edge.cmdTransfer (e : Edge) : Bool := e.cmdValid && e.cmdReadyPin

/-- The output port transfers a word at this edge (20_memory.md R50). -/
def State.outTransfer (s : State) (e : Edge) : Bool := e.outReady && s.outValidPin e

/-- The host keeps an offered word offered and unchanged until its transfer (20_memory.md R50, 70_reset_and_hazards.md
R168). -/
def State.offerKept (s : State) (e : Edge) : Bool :=
  match s.cmdOffer with
  | none => true
  | some w => e.cmdValid && e.cmdData == w

/-- The command port at an edge with `rst` low: accept the word, or remember that it is offered (20_memory.md R50). -/
def State.commandPort (s : State) (e : Edge) : State :=
  if e.cmdTransfer then { s with cmdq := s.cmdq ++ [e.cmdData], cmdOffer := none }
  else { s with cmdOffer := if e.cmdValid then some e.cmdData else none }

/-- The output port at an edge with `rst` low: hand over the front word, or hold it (20_memory.md R50). -/
def State.outputPort (s : State) (e : Edge) : State :=
  if s.outTransfer e then { s with sent := s.sent ++ s.outq.take 1, outq := s.outq.drop 1, outHeld := false }
  else { s with outHeld := s.outValidPin e }

/-- The reset pin (70_reset_and_hazards.md R160): the reset state; accepted commands and untransferred output words are
dropped; the words already transferred stay. -/
def State.pinReset (s : State) : State := { State.reset with sent := s.sent, turns := s.turns }

/-- A rising edge of `clk` (20_memory.md R50, 70_reset_and_hazards.md R160, R172). -/
def clockEdge (e : Edge) (s : State) : Host.Outcome State Fault Refusal :=
  if e.rst then .next s.pinReset
  else if s.offerKept e then .next ((s.commandPort e).outputPort e)
  else .refused .handshakeBroken

/-- What the next step does: a clock edge passes; nothing, since no accepted command waits (60_exceptions.md R156); or the
oldest accepted command is executed (20_memory.md R49). -/
inductive NextTurn where
  | edge (e : Edge) (s : State)
  | idle (s : State)
  | execute (w : Word) (s : State)
  deriving DecidableEq, Repr

/-- Take the oldest accepted command (20_memory.md R49). -/
def State.takeCommand (s : State) : NextTurn :=
  match s.cmdq with
  | [] => .idle s
  | w :: ws => .execute w { s with cmdq := ws }

/-- The next turn; with none listed the HCC executes its oldest accepted command (log entry 2). -/
def State.nextTurn (s : State) : NextTurn :=
  match s.turns with
  | [] => s.takeCommand
  | .run :: ts => { s with turns := ts }.takeCommand
  | .edge e :: ts => .edge e { s with turns := ts }

/-- Put a command where the next step takes it: the oldest accepted command, and the HCC's turn to execute. -/
def State.placeCommand (s : State) (w : Word) : State := { s with cmdq := w :: s.cmdq, turns := .run :: s.turns }

end Sys2Proof.Machine
end

