-- ==== Sys2Proof/Machine/Step.lean ====
section
/-!
DEFINITION. One step of the HCC: a clock edge at the ports, or one accepted command executed whole (spec/20_memory.md R49).
-/

namespace Sys2Proof.Machine

/-- One step. A word that spells no command has an effect too (30_encoding.md R72, R73). -/
def step (s : State) : Host.Outcome State Fault Refusal :=
  match s.nextTurn with
  | .edge e t => clockEdge e t
  | .idle t => .next t
  | .execute w t =>
    match decode w with
    | .ok i => exec i t
    | .error e => illegalWord w e t

/-- The state with a row's instruction as the oldest accepted command and the HCC's turn next (log entry 1). -/
def State.withFetchWord (s : State) (nbits w : Nat) : State := s.placeCommand (tableWord nbits w)

end Sys2Proof.Machine
end

