-- ==== Sys2Proof/Safety.lean ====
section
/-!
DEFINITION. The terms claims are stated in: what the rules say holds in every state a run reaches (spec/10_state.md R28, R38 to
R42; 40_frequency.md R80; 60_exceptions.md R140), paths and shapes of a tree (42_code_deriver.md R90, 43_tree_codec.md R111),
and how a command ends.
-/

namespace Sys2Proof.Machine

/-! ### How a command ends -/

/-- The command emitted exactly these output words, in order (20_memory.md R47). -/
def Emits (s t : State) (ws : List OutWord) : Prop := t.outq = s.outq ++ ws

/-- The command with opcode byte `opc` ended without error: its result word is its opcode with CODE 0, and `ERR` is unchanged
(60_exceptions.md R142). -/
def CompletesOk (opc : Byte) (s t : State) : Prop := t.last = opc ++ 0#24 ∧ t.err = s.err

/-- The command with opcode byte `opc` raised: `LAST` is the result word of the error, and `ERR` too if it held none
(60_exceptions.md R141, R142). -/
def Raises (opc : Byte) (c : Cause) (s t : State) : Prop :=
  t.last = opc ++ c.code ++ c.detail ++ c.info ∧
    t.err = if c.code ≠ 0#8 ∧ codeOf s.err = 0#8 then t.last else s.err

/-- A cause's CODE, DETAIL and INFO (60_exceptions.md R140). -/
def HasNumbers (c : Cause) (code detail info : Byte) : Prop := c.code = code ∧ c.detail = detail ∧ c.info = info

/-- The value of the register at an index, as a number; none where the index names no register (10_state.md R23 to R35). -/
def registerValue (s : State) : Nat → Option Nat
  | 0x00 => some 0x48554631
  | 0x01 => some (s.mode.bits.toNat + 4 * s.treeValid.toNat + 8 * s.codesValid.toNat
      + 16 * (codeOf s.err != 0#8).toNat + 32 * s.sessFailed.toNat)
  | 0x02 => some s.last.toNat
  | 0x03 => some s.err.toNat
  | 0x04 => some s.root.toNat
  | 0x05 => some s.nodeCount.toNat
  | 0x06 => some s.distinct.toNat
  | 0x07 => some s.total.toNat
  | 0x08 => some s.padding.toNat
  | 0x09 => some (s.encBits.toNat % 4294967296)
  | 0x0A => some (s.encBits.toNat / 4294967296)
  | 0x0B => some s.decSyms.toNat
  | 0x0C => some s.decPad.toNat
  | 0x0D => some 0x20FF01FF
  | 0x0E => some s.sessErr.toNat
  | _ => none

/-! ### The tables and the counts -/

/-- The three tables have their canonical form. -/
def InvTables (s : State) : Prop :=
  TableWf 0#32 Config.nsym s.freq ∧ TableWf Node.cleared Config.nodeCap s.nodes ∧
    TableWf CodeEntry.cleared Config.nsym s.codes

/-- The exact sum of the 256 entries of `FREQ` (40_frequency.md R80). -/
def freqSum (freq : List (Nat × Word)) : Nat := ((List.range Config.nsym).map fun n => (tableGet 0#32 freq n).toNat).sum

/-- The symbols with a count, ascending (41_tree_builder.md R83). -/
def presentSymbols (freq : List (Nat × Word)) : List Nat :=
  (List.range Config.nsym).filter fun n => tableGet 0#32 freq n != 0#32

/-- The number of non-zero entries of `FREQ` (40_frequency.md R80). -/
def freqCount (freq : List (Nat × Word)) : Nat := (presentSymbols freq).length

/-- The frequency table has its canonical form (log entry 7). -/
def InvFreqTable (s : State) : Prop := TableWf 0#32 Config.nsym s.freq

/-- 40_frequency.md R80. -/
def InvCounts (s : State) : Prop := s.total.toNat = freqSum s.freq ∧ s.distinct.toNat = freqCount s.freq

/-! ### Trees -/

/-- The children named by the entries 0..k−1, entry by entry, left before right. -/
def childLinks (nodes : List (Nat × Node)) (k : Nat) : List NodeIx :=
  (List.range k).flatMap fun n =>
    let x := tableGet Node.cleared nodes n
    if x.leaf then [] else [x.left, x.right]

/-- The node table holds a tree of k nodes (10_state.md R38). The last clause is how this model says that following
children never returns: every child has a lower index than its parent (the trees of `BUILD`, 41_tree_builder.md R84), or
every child has a higher one (the trees of `DES_END`, 43_tree_codec.md R106) (log entry 10). -/
structure TreeOk (nodes : List (Nat × Node)) (root : NodeIx) (k : Nat) : Prop where
  bound : k ≤ Config.nodeCap
  used : ∀ n < k, (tableGet Node.cleared nodes n).used = true
  unused : ∀ n, k ≤ n → tableGet Node.cleared nodes n = Node.cleared
  empty : root = Config.null ↔ k = 0
  rootIn : k ≠ 0 → root.toNat < k
  internal : ∀ n < k, (tableGet Node.cleared nodes n).leaf = false →
    (tableGet Node.cleared nodes n).left.toNat < k ∧ (tableGet Node.cleared nodes n).right.toNat < k
  leaf : ∀ n < k, (tableGet Node.cleared nodes n).leaf = true →
    (tableGet Node.cleared nodes n).left = Config.null ∧ (tableGet Node.cleared nodes n).right = Config.null
  oneParent : (root :: childLinks nodes k).Nodup
  parented : ∀ n < k, n = root.toNat ∨ n ∈ (childLinks nodes k).map BitVec.toNat
  ordered :
    (∀ n < k, (tableGet Node.cleared nodes n).leaf = false →
      (tableGet Node.cleared nodes n).left.toNat < n ∧ (tableGet Node.cleared nodes n).right.toNat < n) ∨
    (∀ n < k, (tableGet Node.cleared nodes n).leaf = false →
      n < (tableGet Node.cleared nodes n).left.toNat ∧ n < (tableGet Node.cleared nodes n).right.toNat)

/-- 10_state.md R28 and R38. -/
def InvTree (s : State) : Prop :=
  if s.treeValid then TreeOk s.nodes s.root s.nodeCount.toNat
  else s.nodes = [] ∧ s.root = Config.null ∧ s.nodeCount = 0#10

/-- `PathTo nodes root i p`: p is the path of node i in the tree at the root (42_code_deriver.md R90). -/
inductive PathTo (nodes : List (Nat × Node)) (root : NodeIx) : NodeIx → Bits → Prop where
  | root : PathTo nodes root root []
  | left {i : NodeIx} {p : Bits} : PathTo nodes root i p → (nodeIn nodes i).leaf = false →
      PathTo nodes root (nodeIn nodes i).left (p ++ [false])
  | right {i : NodeIx} {p : Bits} : PathTo nodes root i p → (nodeIn nodes i).leaf = false →
      PathTo nodes root (nodeIn nodes i).right (p ++ [true])

/-- The leaf at node i carries symbol x. -/
def LeafOf (nodes : List (Nat × Node)) (i : NodeIx) (x : Byte) : Prop :=
  (nodeIn nodes i).leaf = true ∧ (nodeIn nodes i).sym = x

/-- No two nodes reached from the root are leaves with one symbol (42_code_deriver.md R93). -/
def DistinctSymbols (nodes : List (Nat × Node)) (root : NodeIx) : Prop :=
  ∀ i j p q x, PathTo nodes root i p → PathTo nodes root j q → LeafOf nodes i x → LeafOf nodes j x → i = j

/-- The walk reaches path p before path q: depth first, left before right (42_code_deriver.md R92). -/
def WalkedBefore (p q : Bits) : Prop := ∃ r p' q', p = r ++ false :: p' ∧ q = r ++ true :: q'

/-- Node j at path q is the second leaf of symbol x on the walk: a leaf that the walk reaches earlier carries x too
(42_code_deriver.md R93). -/
def SecondLeafOf (nodes : List (Nat × Node)) (root j : NodeIx) (q : Bits) (x : Byte) : Prop :=
  PathTo nodes root j q ∧ LeafOf nodes j x ∧
    ∃ i p, i ≠ j ∧ PathTo nodes root i p ∧ LeafOf nodes i x ∧ WalkedBefore p q

/-- The code of the leaf at path p: the path, or `0` in a one-leaf tree (42_code_deriver.md R90, R91). -/
def pathCode (p : Bits) : Bits := if p = [] then [false] else p

/-- A tree as a value, without node indices (43_tree_codec.md R111). -/
inductive Shape where
  | leaf (f : Word) (s : Byte)
  | node (f : Word) (l r : Shape)
  deriving DecidableEq, Repr

/-- The shape at a node, for paths of fewer than n nodes; none where the links do not end. -/
def shapeAt (nodes : List (Nat × Node)) : Nat → NodeIx → Option Shape
  | 0, _ => none
  | n + 1, i =>
    match nodeAt? nodes i with
    | none => none
    | some x =>
      if x.leaf then some (.leaf x.freq x.sym)
      else
        match shapeAt nodes n x.left, shapeAt nodes n x.right with
        | some l, some r => some (.node x.freq l r)
        | _, _ => none

/-- The loop of the scanner at the start of a numeric run: the state, the records so far, the rest of the stream
(43_tree_codec.md R104). -/
def scanLoop (st : ScanState) (R : List Record) (B : List Byte) : Except TreeDefect (List Record) :=
  scanFrom ⟨.number st [], R⟩ B

/-- The symbol phase of the scanner, past the SP: frequency, records so far, rest of the stream (43_tree_codec.md R105). -/
def scanSymbol (f : Word) (R : List Record) (B : List Byte) : Except TreeDefect (List Record) := scanFrom ⟨.symbol f, R⟩ B

/-- The scanner just after a symbol: the records so far, the rest of the stream (43_tree_codec.md R105). -/
def scanAfterSymbol (R : List Record) (B : List Byte) : Except TreeDefect (List Record) := scanFrom ⟨.symbolDone, R⟩ B

/-- Records attached so far leave a child position open: n records, i of them internal, have filled n − 1 of the 2i child
positions (43_tree_codec.md R106: Q is not empty). -/
def LeavesOpen (rs : List Record) : Prop :=
  rs.length < 2 * (rs.filter fun r => match r with | .internal _ => true | .sentinel | .leaf _ _ => false).length + 1

/-- A serialized tree has a numeral with a leading zero: a `0` that begins a token and a digit after it (43_tree_codec.md R96,
R103, R111). -/
def LeadingZero (B : List Byte) : Prop :=
  ∃ i b, B[i]? = some 0x30#8 ∧ B[i + 1]? = some b ∧ isDigit b = true ∧ (i = 0 ∨ B[i - 1]? = some chSP)

/-- The node order ≺ on the entries of a node table (41_tree_builder.md R81). -/
def NodeBefore (nodes : List (Nat × Node)) (x y : Nat) : Prop :=
  (tableGet Node.cleared nodes x).freq.toNat < (tableGet Node.cleared nodes y).freq.toNat ∨
    ((tableGet Node.cleared nodes x).freq = (tableGet Node.cleared nodes y).freq ∧ x < y)

/-- Index j is in the active set when the c-th merge begins, of a build with n leaves: it is made, and no earlier merge took
it (41_tree_builder.md R84). -/
def ActiveAt (nodes : List (Nat × Node)) (n c j : Nat) : Prop :=
  j < n + c ∧ ∀ c' < c, (tableGet Node.cleared nodes (n + c')).left.toNat ≠ j ∧
    (tableGet Node.cleared nodes (n + c')).right.toNat ≠ j

/-! ### Codes, sessions, results -/

/-- 10_state.md R40. -/
def InvCodes (s : State) : Prop :=
  if s.codesValid then s.treeValid = true ∧ deriveCodes s.nodes s.root = .ok s.codes else s.codes = []

/-- What the open session's state satisfies in each mode (10_state.md R22, R34, R41 to R43; 44_bitstream.md R115, R119,
R124; 70_reset_and_hazards.md R166, R169). -/
def InvSession (s : State) : Prop :=
  match s.mode with
  | .idle => s.acc = [] ∧ s.pend = none ∧ s.sessFailed = false ∧ s.desBuf = []
  | .des => s.acc = [] ∧ s.pend = none ∧ s.sessFailed = false ∧
      s.treeValid = false ∧ s.root = Config.null ∧ s.nodeCount = 0#10 ∧ s.codesValid = false
  | .enc => s.pend = none ∧ s.sessFailed = false ∧ s.desBuf = [] ∧ s.codesValid = true ∧ s.padding = 0#3 ∧
      s.acc.length ≤ 7 ∧ s.acc.length = s.encBits.toNat % 8
  | .dec => s.acc = [] ∧ s.desBuf = [] ∧ s.treeValid = true ∧
      (s.ptr = s.root ∨ (s.ptr.toNat < s.nodeCount.toNat ∧ (nodeIn s.nodes s.ptr).leaf = false)) ∧
      (if s.sessFailed then s.pend = none ∧ codeOf s.sessErr ≠ 0#8 else s.sessErr = 0#32)

/-- The CODE and DETAIL values of 60_exceptions.md R140. -/
def legalResults : List (Byte × Byte) :=
  [(0x00#8, 0#8), (0x01#8, 0#8), (0x02#8, 1#8), (0x02#8, 2#8), (0x02#8, 3#8), (0x02#8, 4#8), (0x02#8, 5#8), (0x02#8, 6#8),
   (0x02#8, 7#8), (0x02#8, 8#8), (0x02#8, 9#8), (0x02#8, 10#8), (0x03#8, 1#8), (0x03#8, 2#8), (0x03#8, 3#8), (0x04#8, 1#8),
   (0x04#8, 2#8), (0x10#8, 1#8), (0x10#8, 2#8), (0x10#8, 3#8), (0x11#8, 0#8), (0x12#8, 0#8), (0x13#8, 0#8), (0x14#8, 0#8),
   (0x15#8, 0#8), (0x16#8, 0#8)]

/-- A result word's CODE and DETAIL are of 60_exceptions.md R140. -/
def LegalResult (r : Word) : Prop := (codeOf r, detailOf r) ∈ legalResults

/-- The result registers hold result words of 60_exceptions.md R140. -/
def InvResults (s : State) : Prop := LegalResult s.last ∧ LegalResult s.err ∧ LegalResult s.sessErr

/-- The HCC holds `out_valid` only while it has a word to offer (20_memory.md R50). -/
def InvPorts (s : State) : Prop := s.outHeld = true → s.outq ≠ []

end Sys2Proof.Machine
end

