-- ==== Sys2Proof/Certificates/Slice0/Obligations.lean ====
section
/-!
DEFINITION. The statements for the provers. Each docstring names the rules of spec/ it formalises. A frame is written
`t = { s with … }`: every field not named is unchanged.
-/

open Sys2Proof Sys2Proof.Machine

/-! ### Encoding (30_encoding.md) -/

/-- Words that the spec writes out decode to the commands it gives them (R78, R121, R132, R134, R136, R138, R72, R73). -/
def Obligations.SpecWordsDecode : Prop :=
  decode 0x00000000#32 = .ok .nop ∧
  decode 0x01000000#32 = .ok .reset ∧
  decode 0x04ABCDEF#32 = .ok (.mark 0xABCDEF#24) ∧
  decode 0x11123441#32 = .ok (.freqAdd 0x41#8 4660#16) ∧
  decode 0x20000000#32 = .ok .build ∧
  decode 0x3200002D#32 = .ok (.desByte 0x2D#8) ∧
  decode 0x41000042#32 = .ok (.encSym 0x42#8) ∧
  decode 0x50000001#32 = .ok (.decBegin 1#8) ∧
  decode 0x620001FF#32 = .ok (.rdNode 511#9) ∧
  decode 0x64000743#32 = .ok (.rdCode 0x43#8 7#3) ∧
  decode 0x10000001#32 = .error (.reservedBits .freqClr) ∧
  decode 0x60000108#32 = .error (.reservedBits .rdReg) ∧
  decode 0xFF123456#32 = .error .unknownOpcode

/-- R63 to R71: the word of a command decodes to that command, for every value of every operand; and a word has one meaning:
it is the word of the command it decodes to. -/
def Obligations.DecodeAndEncodeAgree : Prop :=
  (∀ i : Instr, i.wellFormed = true ∧ decode (encode i) = .ok i) ∧
  ∀ (w : Word) (i : Instr), decode w = .ok i → encode i = w

/-- R71: a word spells a command of an opcode exactly when `w & mask = match`. -/
def Obligations.WordSpellsByMaskAndMatch : Prop :=
  ∀ (w : Word) (op : Opcode), (∃ i, decode w = .ok i ∧ i.opcode = op) ↔ w &&& op.mask = op.pattern

/-- R75: the assembler's word for a command's line is the command's word, and an operand that does not fit its field is
refused: a byte above 255, n above 65535, idx above 511, k above 7, imm above 0xFFFFFF. -/
def Obligations.AssemblerAgreesWithEncoder : Prop :=
  (∀ i : Instr, assemble i.line = some (encode i)) ∧
  (∀ (op : Opcode) (b : Nat), op.format = .B → 255 < b → assemble (.command op [b]) = none) ∧
  (∀ s n, 255 < s ∨ 65535 < n → assemble (.command .freqAdd [s, n]) = none) ∧
  (∀ idx, 511 < idx → assemble (.command .rdNode [idx]) = none) ∧
  (∀ s k, 255 < s ∨ 7 < k → assemble (.command .rdCode [s, k]) = none) ∧
  (∀ imm, 0xFFFFFF < imm → assemble (.command .mark [imm]) = none)

/-- R72: a word with an unknown opcode raises UNKNOWN_OPCODE, changes nothing but LAST and ERR, and emits nothing; the unknown
opcodes are the rule's 232 values. -/
def Obligations.UnknownOpcodeIsIllegal : Prop :=
  (∀ b : Byte, (∀ op : Opcode, op.byte ≠ b) ↔
    (0x05 ≤ b.toNat ∧ b.toNat ≤ 0x0F ∨ 0x12 ≤ b.toNat ∧ b.toNat ≤ 0x1F ∨ 0x22 ≤ b.toNat ∧ b.toNat ≤ 0x2F ∨
      0x34 ≤ b.toNat ∧ b.toNat ≤ 0x3F ∨ 0x43 ≤ b.toNat ∧ b.toNat ≤ 0x4F ∨ 0x53 ≤ b.toNat ∧ b.toNat ≤ 0x5F ∨
      0x65 ≤ b.toNat)) ∧
  ((List.range 256).filter fun n => (opcodeOfByte (BitVec.ofNat 8 n)).isNone).length = 232 ∧
  ∀ (s u : State) (w : Word), s.nextTurn = .execute w u → (∀ op : Opcode, op.byte ≠ opcField w) →
    ∃ t, step s = .next t ∧ Raises (opcField w) .unknownOpcode u t ∧ t = { u with last := t.last, err := t.err }

/-- R73: a word of a known opcode with a 1 in a bit its format reserves raises RESERVED_BITS and changes nothing but LAST
and ERR; a read opcode still emits its response words, all 0. -/
def Obligations.ReservedBitsAreIllegal : Prop :=
  ∀ (s u : State) (w : Word) (op : Opcode) (j : Nat), s.nextTurn = .execute w u → opcField w = op.byte →
    (match op.format with
      | .Z => 0
      | .B => 8
      | .N => 9
      | .C => 11
      | .F | .M => 24) ≤ j → j < 24 → w.getLsbD j = true →
    ∃ t, step s = .next t ∧ Raises op.byte .reservedBits u t ∧
      Emits u t (List.replicate
        (match op with
          | .rdNode => 2
          | .rdReg | .rdFreq | .rdClen | .rdCode => 1
          | _ => 0) ⟨.resp, 0#32⟩) ∧
      t = { u with last := t.last, err := t.err, outq := t.outq }

/-! ### Steps, ports, output (20_memory.md, 70_reset_and_hazards.md) -/

/-- With the HCC's turn next, a step takes the oldest accepted command and runs what it decodes to (20_memory.md R49); with none
accepted it changes nothing (60_exceptions.md R156). That turns are listed in `turns`, and that the HCC has the turn when none is
listed (`turns = []`), is the model's choice (log entry 2, DESIGN CHOICE); that waiting for a command is a step which changes
nothing is the model's reading of R156 (log entry 4, DEDUCED). -/
def Obligations.StepRunsTheDecodedCommand : Prop :=
  (∀ (s : State) (w : Word) (ws : List Word) (i : Instr), s.cmdq = w :: ws → decode w = .ok i →
    i.wellFormed = true ∧
    (s.turns = [] → step s = exec i { s with cmdq := ws }) ∧
    ∀ ts, s.turns = .run :: ts → step s = exec i { s with cmdq := ws, turns := ts }) ∧
  (∀ s : State, s.cmdq = [] → s.turns = [] → step s = .next s) ∧
  ∀ (s : State) (ts : List Turn), s.cmdq = [] → s.turns = .run :: ts → step s = .next { s with turns := ts }

/-- 10_state.md R21, R49: no command changes which command is executed next, nor anything at the ports but the words it
emits. -/
def Obligations.CommandsLeaveTheStreamAlone : Prop :=
  ∀ (i : Instr) (s t : State), exec i s = .next t →
    t.cmdq = s.cmdq ∧ t.turns = s.turns ∧ t.cmdOffer = s.cmdOffer ∧ t.sent = s.sent ∧ t.outHeld = s.outHeld ∧
      ∃ ws, Emits s t ws

/-- R47: nothing removes or reorders a word of the output sequence but the reset pin, which drops the words not yet
transferred. -/
def Obligations.OutputSequenceOnlyGrows : Prop :=
  ∀ s t : State, step s = .next t →
    (∃ ws, t.output = s.output ++ ws) ∨
    (∃ e ts, s.turns = .edge e :: ts ∧ e.rst = true ∧ t.output = s.sent)

/-- 70_reset_and_hazards.md R160: the reset pin gives every register and table its reset value, drops accepted commands and
untransferred output words, and no port transfers at that edge. That the offered command word is forgotten (`cmdOffer` is none
afterwards) is the model's choice (log entry 6, DESIGN CHOICE), and so is the list `turns` (log entry 2). -/
def Obligations.PinResetGivesResetState : Prop :=
  ∀ (s : State) (e : Edge) (ts : List Turn), s.turns = .edge e :: ts → e.rst = true →
    step s = .next { State.reset with sent := s.sent, turns := ts } ∧
    e.cmdReadyPin = false ∧ s.outValidPin e = false ∧ e.cmdTransfer = false ∧ s.outTransfer e = false

/-- R50: at an edge with `rst` low and the handshake kept, the command port accepts the word exactly when valid and ready are
high, the output port hands over the front word exactly when both are high, a side that raised valid is remembered until its
transfer, and no register or table changes. -/
def Obligations.EdgeTransfersNeedValidAndReady : Prop :=
  ∀ (s : State) (e : Edge) (ts : List Turn), s.turns = .edge e :: ts → e.rst = false →
    (∀ w, s.cmdOffer = some w → e.cmdValid = true ∧ e.cmdData = w) →
    ∃ t, step s = .next t ∧
      t.cmdq = (if e.cmdValid && e.cmdReady then s.cmdq ++ [e.cmdData] else s.cmdq) ∧
      t.cmdOffer = (if e.cmdValid && !e.cmdReady then some e.cmdData else none) ∧
      (∀ w rest, s.outq = w :: rest → (e.outValid || s.outHeld) = true →
        if e.outReady then t.sent = s.sent ++ [w] ∧ t.outq = rest ∧ t.outHeld = false
        else t.sent = s.sent ∧ t.outq = s.outq ∧ t.outHeld = true) ∧
      ((s.outq = [] ∨ (e.outValid || s.outHeld) = false) → t.sent = s.sent ∧ t.outq = s.outq ∧ t.outHeld = false) ∧
      t = { s with cmdq := t.cmdq, cmdOffer := t.cmdOffer, sent := t.sent, outq := t.outq, outHeld := t.outHeld, turns := ts }

/-- R168 and 93_implementation_defined.md U2: the model refuses a host that drops or changes an offered command word, and
refuses nothing else (log entry 5, DEDUCED). -/
def Obligations.OnlyBrokenHandshakesAreRefused : Prop :=
  ∀ (s : State) (r : Refusal), step s = .refused r ↔
    r = .handshakeBroken ∧ ∃ e ts w, s.turns = .edge e :: ts ∧ e.rst = false ∧ s.cmdOffer = some w ∧
      (e.cmdValid = false ∨ e.cmdData ≠ w)

/-! ### Results and admission (60_exceptions.md) -/

/-- R142: every command, an illegal one too, ends by writing its result word to LAST, and to ERR when it is an error and ERR
holds none (CLR_ERR and RESET have cleared ERR first); STATUS.ERR_PENDING is 1 while ERR.CODE is not 0. -/
def Obligations.EveryCommandRecordsItsResult : Prop :=
  (∀ (i : Instr) (s t : State), exec i s = .next t →
    opcField t.last = i.opcode.byte ∧
    t.err = (let before := if i = .clrErr ∨ i = .reset then 0#32 else s.err
      if codeOf t.last ≠ 0#8 ∧ codeOf before = 0#8 then t.last else before)) ∧
  (∀ (w : Word) (e : Illegal) (s t : State), illegalWord w e s = .next t →
    opcField t.last = opcField w ∧
    t.err = if codeOf t.last ≠ 0#8 ∧ codeOf s.err = 0#8 then t.last else s.err) ∧
  ∀ s : State, s.status.getLsbD 4 = (codeOf s.err != 0#8)

/-- R143: a command in a mode its row marks "no" raises SEQUENCE with INFO = MODE and changes nothing else, but a read still
emits its zero words; a command in a mode its row marks "yes" does not raise SEQUENCE (DEC_END of a failed session repeats the
stored error, which is none either). -/
def Obligations.ModesAdmitCommands : Prop :=
  ∀ (i : Instr) (s : State),
    let no :=
      (s.mode ≠ .idle ∧
        i.opcode ∈ [Opcode.freqClr, .freqAdd, .build, .derive, .ser, .desBegin, .encBegin, .decBegin]) ∨
      (s.mode ≠ .des ∧ i.opcode ∈ [Opcode.desByte, .desEnd]) ∨
      (s.mode ≠ .enc ∧ i.opcode ∈ [Opcode.encSym, .encEnd]) ∨
      (s.mode ≠ .dec ∧ i.opcode ∈ [Opcode.decByte, .decEnd]) ∨
      (s.mode = .des ∧ i.opcode = .rdNode)
    (no → ∃ t, exec i s = .next t ∧ Raises i.opcode.byte (.sequence s.mode) s t ∧
      Emits s t (List.replicate (responseCount i.opcode) ⟨.resp, 0#32⟩) ∧
      t = { s with last := t.last, err := t.err, outq := t.outq }) ∧
    (¬no → (s.sessFailed = false ∨ codeOf s.sessErr ≠ 0x11#8) → ∀ t, exec i s = .next t → codeOf t.last ≠ 0x11#8)

/-- R148: no error is fatal. In every state that meets the tree and session invariants every command answers a next state, and
no step faults. -/
def Obligations.NoCommandIsFatal : Prop :=
  (∀ (i : Instr) (s : State), InvTree s → InvSession s → ∃ t, exec i s = .next t) ∧
  ∀ (s : State) (f : Fault), InvTree s → InvSession s → step s ≠ .fault f

/-- R140: every cause has the CODE, DETAIL and INFO that the rule's table gives it, and no CODE or DETAIL value outside the table
is ever produced: every step keeps the three result registers legal. An error that DEC_END repeats keeps its numbers (44_bitstream.md
R123). -/
def Obligations.StepKeepsResultsLegal : Prop :=
  (∀ s t : State, InvResults s → step s = .next t → InvResults t) ∧
  HasNumbers .emptyInput 0x01#8 0#8 0#8 ∧
  HasNumbers (.malformedTree .badToken) 0x02#8 1#8 0#8 ∧
  HasNumbers (.malformedTree .badSeparator) 0x02#8 2#8 0#8 ∧
  HasNumbers (.malformedTree .freqRange) 0x02#8 3#8 0#8 ∧
  HasNumbers (.malformedTree .rawNewline) 0x02#8 4#8 0#8 ∧
  HasNumbers (.malformedTree .badSymbol) 0x02#8 5#8 0#8 ∧
  HasNumbers (.malformedTree .endMidRecord) 0x02#8 6#8 0#8 ∧
  HasNumbers (.malformedTree .sentinelChild) 0x02#8 7#8 0#8 ∧
  HasNumbers (.malformedTree .missingChild) 0x02#8 8#8 0#8 ∧
  HasNumbers (.malformedTree .leftover) 0x02#8 9#8 0#8 ∧
  HasNumbers (.malformedTree .tooManyNodes) 0x02#8 10#8 0#8 ∧
  HasNumbers (.underrun .nullRoot) 0x03#8 1#8 0#8 ∧
  HasNumbers (.underrun .nullChild) 0x03#8 2#8 0#8 ∧
  HasNumbers (.underrun .endMidCode) 0x03#8 3#8 0#8 ∧
  (∀ pad : Byte, HasNumbers (.paddingRange pad) 0x04#8 1#8 pad) ∧
  (∀ pad : BitVec 3, HasNumbers (.paddingNoBytes pad) 0x04#8 2#8 (0#5 ++ pad)) ∧
  HasNumbers .unknownOpcode 0x10#8 1#8 0#8 ∧
  HasNumbers .reservedBits 0x10#8 2#8 0#8 ∧
  (∀ low : Byte, HasNumbers (.badIndex low) 0x10#8 3#8 low) ∧
  HasNumbers (.sequence .idle) 0x11#8 0#8 0#8 ∧
  HasNumbers (.sequence .des) 0x11#8 0#8 1#8 ∧
  HasNumbers (.sequence .enc) 0x11#8 0#8 2#8 ∧
  HasNumbers (.sequence .dec) 0x11#8 0#8 3#8 ∧
  HasNumbers .noTree 0x12#8 0#8 0#8 ∧
  HasNumbers .noCodes 0x13#8 0#8 0#8 ∧
  (∀ s : Byte, HasNumbers (.freqOverflow s) 0x14#8 0#8 s) ∧
  (∀ s : Byte, HasNumbers (.unknownSymbol s) 0x15#8 0#8 s) ∧
  (∀ s : Byte, HasNumbers (.dupSymbol s) 0x16#8 0#8 s) ∧
  ∀ opc code detail info : Byte, HasNumbers (.stored (opc ++ code ++ detail ++ info)) code detail info

/-- R144: the preconditions come before the operand checks: without a tree, DERIVE, SER and DEC_BEGIN of any padding count
raise NO_TREE, and without codes ENC_BEGIN raises NO_CODES; nothing but LAST and ERR changes. -/
def Obligations.CommandsNeedTheirTable : Prop :=
  (∀ (i : Instr) (s : State), s.mode = .idle → s.treeValid = false →
    (i = .derive ∨ i = .ser ∨ ∃ pad, i = .decBegin pad) →
    ∃ t, exec i s = .next t ∧ Raises i.opcode.byte .noTree s t ∧ t = { s with last := t.last, err := t.err }) ∧
  ∀ s : State, s.mode = .idle → s.codesValid = false →
    ∃ t, exec .encBegin s = .next t ∧ Raises 0x40#8 .noCodes s t ∧ t = { s with last := t.last, err := t.err }

/-! ### Reset and invariants (10_state.md) -/

/-- 10_state.md R45: the reset values the spec gives, register by register, entry by entry. -/
def Obligations.ResetValues : Prop :=
  let s := State.reset
  s.mode = .idle ∧ s.status = 0#32 ∧ s.readReg .id = 0x48554631#32 ∧ s.last = 0#32 ∧ s.err = 0#32 ∧ s.root = 0x1FF#9 ∧
  s.nodeCount = 0#10 ∧ s.treeValid = false ∧ s.total = 0#32 ∧ s.distinct = 0#9 ∧ s.padding = 0#3 ∧ s.encBits = 0#64 ∧
  s.decSyms = 0#32 ∧ s.decPad = 0#3 ∧ s.readReg .config = 0x20FF01FF#32 ∧ s.sessErr = 0#32 ∧
  (∀ sym, s.freqAt sym = 0#32) ∧ (∀ i, nodeIn s.nodes i = Node.cleared) ∧ (∀ sym, s.codeAt sym = CodeEntry.cleared) ∧
  s.codesValid = false ∧ s.acc = [] ∧ s.ptr = 0x1FF#9 ∧ s.pend = none ∧ s.sessFailed = false ∧ s.desBuf = []

/-- The reset state meets every invariant; the canonical form in `InvTables` and the order in `InvTree` are the model's (log entries
7 and 10). -/
def Obligations.ResetMeetsInvariants : Prop :=
  InvTables State.reset ∧ InvCounts State.reset ∧ InvTree State.reset ∧ InvCodes State.reset ∧ InvSession State.reset ∧
  InvResults State.reset ∧ InvPorts State.reset

/-- Every step keeps each table within its size (R36, R37, R39: 256, 511 and 256 entries) and in its canonical form, indices
strictly rising and no entry equal to its reset value. That form is the model's choice of how a table is held (log entry 7, DESIGN
CHOICE); the rules do not speak of it. -/
def Obligations.StepKeepsTables : Prop := ∀ s t : State, InvTables s → step s = .next t → InvTables t

/-- 40_frequency.md R80: after every step TOTAL is the exact sum of the counts and DISTINCT the number of non-zero ones. The
premise `InvFreqTable` is the model's own form of the table (log entry 7), which `StepKeepsTables` says every step keeps. -/
def Obligations.StepKeepsCounts : Prop :=
  ∀ s t : State, InvFreqTable s → InvCounts s → step s = .next t → InvCounts t

/-- R28, R38: after every step the node table holds a tree, or TREE_VALID is 0 and it is cleared. The clause `ordered` of `TreeOk`
is the model's, not R38's: it says "never returns to an entry already reached" as an order of indices, which is stronger (log entry
10, DEDUCED). -/
def Obligations.StepKeepsTree : Prop := ∀ s t : State, InvTree s → step s = .next t → InvTree t

/-- R40: after every step CODES_VALID is 1 only with the code table derived from the tree still held, and the table is
cleared otherwise. -/
def Obligations.StepKeepsCodes : Prop :=
  ∀ s t : State, InvSession s → InvCodes s → step s = .next t → InvCodes t

/-- R22, R34, R41 to R43, 44_bitstream.md R115, R119, R124: every step keeps the session's state legal for its mode (in a decoding
session PTR is ROOT or an internal node of the tree); and 20_memory.md R50: the HCC holds `out_valid` only over a word. -/
def Obligations.StepKeepsSession : Prop :=
  (∀ s t : State, InvTree s → InvSession s → step s = .next t → InvSession t) ∧
  (∀ s : State, InvTree s → InvSession s → s.mode = .dec →
    s.ptr = s.root ∨ ((nodeIn s.nodes s.ptr).used = true ∧ (nodeIn s.nodes s.ptr).leaf = false)) ∧
  ∀ s t : State, InvPorts s → step s = .next t → InvPorts t

/-- R38: following children from ROOT reaches every used entry, each by one path. -/
def Obligations.TreeReachesEveryEntry : Prop :=
  ∀ (nodes : List (Nat × Node)) (root : NodeIx) (k : Nat), TreeOk nodes root k →
    (∀ i : NodeIx, i.toNat < k → ∃ p, PathTo nodes root i p) ∧
    ∀ (i : NodeIx) (p q : Bits), i.toNat < k → PathTo nodes root i p → PathTo nodes root i q → p = q

/-! ### Control (45_control.md) -/

/-- R128, R130, R132: NOP changes LAST alone; CLR_ERR clears ERR; MARK emits its operand. In every mode. -/
def Obligations.NopClrErrAndMark : Prop :=
  encode .nop = 0x00000000#32 ∧ encode .clrErr = 0x02000000#32 ∧
  (∀ imm : BitVec 24, encode (.mark imm) = 0x04#8 ++ imm ∧ decode (0x04#8 ++ imm) = .ok (.mark imm)) ∧
  ∀ s : State,
    exec .nop s = .next { s with last := 0x00000000#32 } ∧
    exec .clrErr s = .next { s with err := 0#32, last := 0x02000000#32 } ∧
    ∀ imm : BitVec 24,
      exec (.mark imm) s = .next { s with outq := s.outq ++ [⟨.mark, 0#8 ++ imm⟩], last := 0x04000000#32 }

/-- R129, 70_reset_and_hazards.md R161: RESET gives every register and table its reset value, keeps the output words and the
ports, and ends with LAST = 0x01000000. -/
def Obligations.ResetCommandResets : Prop :=
  ∀ s : State, exec .reset s = .next
    { State.reset with
      last := 0x01000000#32, sent := s.sent, outq := s.outq, cmdq := s.cmdq, cmdOffer := s.cmdOffer, outHeld := s.outHeld,
      turns := s.turns }

/-- R131: ABORT closes the open session, dropping what it has not finished, and keeps the session's registers. -/
def Obligations.AbortClosesTheSession : Prop :=
  encode .abort = 0x03000000#32 ∧
  ∀ s : State,
    (s.mode = .idle → exec .abort s = .next { s with last := 0x03000000#32 }) ∧
    (s.mode = .des → exec .abort s = .next { s with desBuf := [], mode := .idle, last := 0x03000000#32 }) ∧
    (s.mode = .enc → exec .abort s = .next { s with acc := [], mode := .idle, last := 0x03000000#32 }) ∧
    (s.mode = .dec → exec .abort s =
      .next { s with pend := none, sessFailed := false, mode := .idle, last := 0x03000000#32 })

/-! ### Frequency counter (40_frequency.md) -/

/-- R77: FREQ_CLR empties the table; the tree and the codes are not touched; on an empty table it changes nothing; it is
admitted in IDLE alone. -/
def Obligations.FreqClrEmptiesTheTable : Prop :=
  encode .freqClr = 0x10000000#32 ∧
  (∀ s : State, s.mode = .idle → ∃ t, exec .freqClr s = .next t ∧ CompletesOk 0x10#8 s t ∧
    (∀ sym, t.freqAt sym = 0#32) ∧ t.total = 0#32 ∧ t.distinct = 0#9 ∧
    t = { s with freq := t.freq, total := t.total, distinct := t.distinct, last := t.last } ∧
    (InvFreqTable s → InvCounts s → (∀ sym, s.freqAt sym = 0#32) → t = { s with last := t.last })) ∧
  ∀ s : State, s.mode ≠ .idle → ∃ t, exec .freqClr s = .next t ∧ Raises 0x10#8 (.sequence s.mode) s t ∧
    t = { s with last := t.last, err := t.err }

/-- R78, R80: FREQ_ADD adds the increment to the symbol's count and to TOTAL, exactly, and counts a new symbol in DISTINCT;
every other count and every other register is unchanged; an increment of 0 changes nothing. -/
def Obligations.FreqAddCounts : Prop :=
  ∀ (s : State) (sym : Byte) (n : BitVec 16), s.mode = .idle → InvFreqTable s → InvCounts s →
    s.total.toNat + n.toNat ≤ 4294967295 →
    ∃ t, exec (.freqAdd sym n) s = .next t ∧ CompletesOk 0x11#8 s t ∧
      (t.freqAt sym).toNat = (s.freqAt sym).toNat + n.toNat ∧
      (∀ sym', sym' ≠ sym → t.freqAt sym' = s.freqAt sym') ∧
      t.total.toNat = s.total.toNat + n.toNat ∧
      t.distinct.toNat = s.distinct.toNat + (if n ≠ 0#16 ∧ s.freqAt sym = 0#32 then 1 else 0) ∧
      (n = 0#16 → t = { s with last := t.last }) ∧
      t = { s with freq := t.freq, total := t.total, distinct := t.distinct, last := t.last }

/-- R78: an increment that would pass TOTAL_MAX raises FREQ_OVERFLOW with the symbol and changes nothing but LAST and
ERR. -/
def Obligations.FreqAddRefusesOverflow : Prop :=
  ∀ (s : State) (sym : Byte) (n : BitVec 16), s.mode = .idle → 4294967295 < s.total.toNat + n.toNat →
    ∃ t, exec (.freqAdd sym n) s = .next t ∧ Raises 0x11#8 (.freqOverflow sym) s t ∧
      t = { s with last := t.last, err := t.err }

/-- R79: only the final counts matter: two FREQ_ADD commands leave the same counts in either order. -/
def Obligations.FreqAddsCommute : Prop :=
  ∀ (s t₁ t₂ u₁ u₂ : State) (a b : Byte) (m n : BitVec 16), s.mode = .idle → InvFreqTable s → InvCounts s →
    s.total.toNat + m.toNat + n.toNat ≤ 4294967295 →
    exec (.freqAdd a m) s = .next t₁ → exec (.freqAdd b n) t₁ = .next t₂ →
    exec (.freqAdd b n) s = .next u₁ → exec (.freqAdd a m) u₁ = .next u₂ →
    t₂.freq = u₂.freq ∧ t₂.total = u₂.total ∧ t₂.distinct = u₂.distinct

/-! ### Tree builder (41_tree_builder.md) -/

/-- R85, R157: BUILD of an empty frequency table raises EMPTY_INPUT and leaves the valid empty tree and no codes. -/
def Obligations.BuildOfNothingIsTheEmptyTree : Prop :=
  ∀ s : State, s.mode = .idle → (∀ sym, s.freqAt sym = 0#32) →
    ∃ t, exec .build s = .next t ∧ Raises 0x20#8 .emptyInput s t ∧
      t.treeValid = true ∧ t.root = 0x1FF#9 ∧ t.nodeCount = 0#10 ∧ t.codesValid = false ∧
      (∀ i, nodeIn t.nodes i = Node.cleared) ∧ (∀ sym, t.codeAt sym = CodeEntry.cleared) ∧
      t = { s with
        nodes := t.nodes, root := t.root, nodeCount := t.nodeCount, treeValid := t.treeValid, codes := t.codes,
        codesValid := t.codesValid, last := t.last, err := t.err }

/-- R83, R85, R87: BUILD of n present symbols leaves 2n − 1 nodes with the root last, a leaf for the i-th smallest present
symbol at index i, internal nodes after them, every other entry cleared, and no codes. -/
def Obligations.BuildPlacesLeavesThenInternalNodes : Prop :=
  ∀ (s : State) (n : Nat), s.mode = .idle → freqCount s.freq = n → n ≠ 0 →
    ∃ t, exec .build s = .next t ∧ CompletesOk 0x20#8 s t ∧
      t.treeValid = true ∧ t.nodeCount.toNat = 2 * n - 1 ∧ t.root.toNat = 2 * n - 2 ∧ t.codesValid = false ∧
      (∀ sym, t.codeAt sym = CodeEntry.cleared) ∧
      (∀ (j m : Nat), (presentSymbols s.freq)[j]? = some m → tableGet Node.cleared t.nodes j =
        ⟨true, true, s.freqAt (BitVec.ofNat 8 m), BitVec.ofNat 8 m, 0x1FF#9, 0x1FF#9⟩) ∧
      (∀ j, n ≤ j → j < 2 * n - 1 → (tableGet Node.cleared t.nodes j).used = true ∧
        (tableGet Node.cleared t.nodes j).leaf = false ∧ (tableGet Node.cleared t.nodes j).sym = 0#8) ∧
      (∀ j, 2 * n - 1 ≤ j → tableGet Node.cleared t.nodes j = Node.cleared) ∧
      t = { s with
        nodes := t.nodes, root := t.root, nodeCount := t.nodeCount, treeValid := t.treeValid, codes := t.codes,
        codesValid := t.codesValid, last := t.last }

/-- R81, R84: the c-th merge joins the least active node (left) and the least of the rest (right), in the node order, and its
frequency is their sum. -/
def Obligations.BuildMergesTheTwoLeast : Prop :=
  ∀ (s t : State) (n c : Nat), s.mode = .idle → freqCount s.freq = n → c + 1 < n → exec .build s = .next t →
    let x := tableGet Node.cleared t.nodes (n + c)
    ActiveAt t.nodes n c x.left.toNat ∧ ActiveAt t.nodes n c x.right.toNat ∧ x.left ≠ x.right ∧
    x.freq = (nodeIn t.nodes x.left).freq + (nodeIn t.nodes x.right).freq ∧
    (∀ j, ActiveAt t.nodes n c j → j ≠ x.left.toNat → NodeBefore t.nodes x.left.toNat j) ∧
    ∀ j, ActiveAt t.nodes n c j → j ≠ x.left.toNat → j ≠ x.right.toNat → NodeBefore t.nodes x.right.toNat j

/-- R86, R87: no frequency sum overflows: an internal node's FREQ is the exact sum of its children's, and the root's is
TOTAL. -/
def Obligations.BuildSumsFrequencies : Prop :=
  ∀ s t : State, s.mode = .idle → InvCounts s → freqCount s.freq ≠ 0 → exec .build s = .next t →
    (nodeIn t.nodes t.root).freq = s.total ∧
    ∀ j < t.nodeCount.toNat, (tableGet Node.cleared t.nodes j).leaf = false →
      (tableGet Node.cleared t.nodes j).freq.toNat =
        (nodeIn t.nodes (tableGet Node.cleared t.nodes j).left).freq.toNat +
          (nodeIn t.nodes (tableGet Node.cleared t.nodes j).right).freq.toNat

/-- R88: the tree BUILD leaves is a function of the 256 counts alone. -/
def Obligations.BuildIsAFunctionOfTheCounts : Prop :=
  ∀ s s' t t' : State, s.mode = .idle → s'.mode = .idle → (∀ sym, s.freqAt sym = s'.freqAt sym) →
    exec .build s = .next t → exec .build s' = .next t' →
    t.nodes = t'.nodes ∧ t.root = t'.root ∧ t.nodeCount = t'.nodeCount ∧ t.treeValid = t'.treeValid

/-! ### Code table deriver (42_code_deriver.md) -/

/-- R90 to R92: DERIVE gives each leaf's symbol its root-to-leaf path as its code (a one-leaf tree's symbol the code `0`),
every other symbol none, and leaves the tree alone. -/
def Obligations.DeriveGivesEachLeafItsPath : Prop :=
  ∀ s : State, s.mode = .idle → s.treeValid = true → InvTree s → DistinctSymbols s.nodes s.root →
    ∃ t, exec .derive s = .next t ∧ CompletesOk 0x21#8 s t ∧ t.codesValid = true ∧
      (∀ i p x, PathTo s.nodes s.root i p → LeafOf s.nodes i x →
        (t.codeAt x).valid = true ∧ (t.codeAt x).len.toNat = (pathCode p).length ∧ (t.codeAt x).code = pathCode p ∧
        ∀ j, (pathCode p).length ≤ j → (t.codeAt x).bits.getLsbD j = false) ∧
      (∀ x, (∀ i p, PathTo s.nodes s.root i p → ¬LeafOf s.nodes i x) → t.codeAt x = CodeEntry.cleared) ∧
      t = { s with codes := t.codes, codesValid := t.codesValid, last := t.last }

/-- R93: when two leaves carry one symbol, DERIVE raises DUP_SYMBOL at the first leaf on the walk, left to right, whose symbol an
earlier leaf carries, with that symbol; it leaves the code table cleared and CODES_VALID 0, and keeps the tree. -/
def Obligations.DeriveRefusesDuplicateSymbols : Prop :=
  ∀ s : State, s.mode = .idle → s.treeValid = true → InvTree s → ¬DistinctSymbols s.nodes s.root →
    ∃ t x j q, exec .derive s = .next t ∧ Raises 0x21#8 (.dupSymbol x) s t ∧
      SecondLeafOf s.nodes s.root j q x ∧
      (∀ j' q' x', SecondLeafOf s.nodes s.root j' q' x' → ¬WalkedBefore q' q) ∧
      (∀ y, t.codeAt y = CodeEntry.cleared) ∧ t.codesValid = false ∧
      t = { s with codes := t.codes, codesValid := t.codesValid, last := t.last, err := t.err }

/-- R94: every valid code is non-empty, and no valid code is a prefix of another's. -/
def Obligations.CodesArePrefixFree : Prop :=
  ∀ s : State, InvTree s → InvCodes s → s.codesValid = true → ∀ x y : Byte, (s.codeAt x).valid = true →
    (s.codeAt x).code ≠ [] ∧ (s.codeAt x).code.length = (s.codeAt x).len.toNat ∧
    ((s.codeAt y).valid = true → x ≠ y → ¬(s.codeAt x).code <+: (s.codeAt y).code)

/-! ### Tree codec (43_tree_codec.md) -/

/-- R101, R102: SER emits the serialized tree, one TREE word a byte, at most 7924 of them and no raw newline, and changes
nothing else. -/
def Obligations.SerEmitsTheTree : Prop :=
  ∀ s : State, s.mode = .idle → s.treeValid = true → InvTree s →
    ∃ t bytes, serialize s.nodes s.root = .ok bytes ∧ exec .ser s = .next t ∧ CompletesOk 0x30#8 s t ∧
      Emits s t (bytes.map fun b => ⟨.tree, 0#24 ++ b⟩) ∧ bytes.length ≤ 7924 ∧ 0x0A#8 ∉ bytes ∧
      (s.root = 0x1FF#9 → bytes = []) ∧
      t = { s with outq := t.outq, last := t.last }

/-- R100, R104, R105: the scanner reads back every list of node records from its bytes, whatever the frequencies and the
symbols. -/
def Obligations.ScanOfJoinedRecords : Prop :=
  ∀ rs : List Record, Record.sentinel ∉ rs → scan (joinRecords rs) = .ok rs

/-- R111: what SER writes, DES_END reads back: a tree of the same shape, with the same frequency and symbol at every
position. -/
def Obligations.DeserializeOfSerialize : Prop :=
  ∀ (nodes : List (Nat × Node)) (root : NodeIx) (k : Nat), TreeOk nodes root k → k ≠ 0 →
    ∃ bytes nodes', serialize nodes root = .ok bytes ∧ deserialize bytes = .ok nodes' ∧ nodes'.length = k ∧
      (shapeAt nodes 512 root).isSome = true ∧ shapeAt (tableOfList nodes') 512 0#9 = shapeAt nodes 512 root

/-- R111: what DES_END accepts as a tree with a node, SER writes back record for record, and byte for byte when no numeral has
a leading zero. -/
def Obligations.SerializeOfDeserialize : Prop :=
  ∀ (B : List Byte) (R : List Record) (nodes : List Node), scan B = .ok R → rebuild R = .ok nodes → nodes ≠ [] →
    serialize (tableOfList nodes) 0#9 = .ok (joinRecords R) ∧ (¬LeadingZero B → joinRecords R = B)

/-- R108, R109: DES_BEGIN drops the old tree and codes and opens the session; DES_BYTE appends any byte and nothing else. -/
def Obligations.DeserializationSessionCollectsBytes : Prop :=
  (∀ s : State, s.mode = .idle → ∃ t, exec .desBegin s = .next t ∧ CompletesOk 0x31#8 s t ∧
    t.mode = .des ∧ t.desBuf = [] ∧ t.root = 0x1FF#9 ∧ t.nodeCount = 0#10 ∧ t.treeValid = false ∧ t.codesValid = false ∧
    (∀ i, nodeIn t.nodes i = Node.cleared) ∧ (∀ sym, t.codeAt sym = CodeEntry.cleared) ∧
    t = { s with
      nodes := t.nodes, root := t.root, nodeCount := t.nodeCount, treeValid := t.treeValid, codes := t.codes,
      codesValid := t.codesValid, desBuf := t.desBuf, mode := t.mode, last := t.last }) ∧
  ∀ (s : State) (b : Byte), s.mode = .des →
    exec (.desByte b) s = .next { s with desBuf := s.desBuf ++ [b], last := 0x32000000#32 }

/-- R110: DES_END closes the session; on a stream that deserializes it installs the tree, root first, and on a defect it raises
MALFORMED_TREE with the defect and installs nothing. Which defect: R107 (a scanner error comes before a reconstruction error), R103
(the checks of a numeric run, in their order), R104 and R105 (the scanner: every row of the case table, the ends of the stream, the
symbol phase), R106 (the reconstruction error at the earliest record, or a missing child at the end). -/
def Obligations.DesEndReconstructs : Prop :=
  (∀ s : State, s.mode = .des →
    (∀ nodes, deserialize s.desBuf = .ok nodes → ∃ t, exec .desEnd s = .next t ∧ CompletesOk 0x33#8 s t ∧
      t.treeValid = true ∧ t.nodeCount.toNat = nodes.length ∧ t.root = (if nodes = [] then 0x1FF#9 else 0#9) ∧
      (∀ j, tableGet Node.cleared t.nodes j = nodes.getD j Node.cleared) ∧ t.mode = .idle ∧ t.desBuf = [] ∧
      t = { s with
        nodes := t.nodes, root := t.root, nodeCount := t.nodeCount, treeValid := t.treeValid, desBuf := t.desBuf,
        mode := t.mode, last := t.last }) ∧
    ∀ d, deserialize s.desBuf = .error d → ∃ t, exec .desEnd s = .next t ∧ Raises 0x33#8 (.malformedTree d) s t ∧
      t = { s with desBuf := [], mode := .idle, last := t.last, err := t.err }) ∧
  -- R107
  (∀ (B : List Byte) (d : TreeDefect), scan B = .error d → deserialize B = .error d) ∧
  (∀ (B : List Byte) (R : List Record), scan B = .ok R → deserialize B = rebuild R) ∧
  -- R103
  (∀ run : List Byte,
    (0x0A#8 ∈ run → classify run = .error .rawNewline) ∧
    (run = [] → classify run = .error .badSeparator) ∧
    (run = [0x2D#8, 0x31#8] → classify run = .ok .sent) ∧
    (run ≠ [] → (∀ b ∈ run, 0x30 ≤ b.toNat ∧ b.toNat ≤ 0x39) →
      classify run = if numeral run ≤ 4294967295 then .ok (.num (BitVec.ofNat 32 (numeral run))) else .error .freqRange) ∧
    (0x0A#8 ∉ run → run ≠ [] → run ≠ [0x2D#8, 0x31#8] → (∃ b ∈ run, ¬(0x30 ≤ b.toNat ∧ b.toNat ≤ 0x39)) →
      classify run = .error .badToken)) ∧
  -- R104: the run up to the next SP, or up to the end of the stream
  scan [] = .ok [] ∧
  (∀ B : List Byte, B ≠ [] → scan B = scanLoop .ready [] B) ∧
  (∀ (run rest : List Byte) (R : List Record) (f : Word), 0x20#8 ∉ run →
    (∀ (st : ScanState) (d : TreeDefect), classify run = .error d →
      scanLoop st R run = .error d ∧ scanLoop st R (run ++ 0x20#8 :: rest) = .error d) ∧
    (classify run = .ok .sent →
      scanLoop .ready R run = .ok (R ++ [Record.sentinel]) ∧
      scanLoop .ready R (run ++ 0x20#8 :: rest) = scanLoop .ready (R ++ [Record.sentinel]) rest ∧
      scanLoop (.afterNum f) R run = .ok (R ++ [Record.internal f, .sentinel]) ∧
      scanLoop (.afterNum f) R (run ++ 0x20#8 :: rest) = scanLoop (.afterNumS f) R rest ∧
      scanLoop (.afterNumS f) R run = .error .endMidRecord ∧
      scanLoop (.afterNumS f) R (run ++ 0x20#8 :: rest) = scanSymbol f R rest) ∧
    ∀ v : Word, classify run = .ok (.num v) →
      scanLoop .ready R run = .ok (R ++ [Record.internal v]) ∧
      scanLoop .ready R (run ++ 0x20#8 :: rest) = scanLoop (.afterNum v) R rest ∧
      scanLoop (.afterNum f) R run = .ok (R ++ [Record.internal f, .internal v]) ∧
      scanLoop (.afterNum f) R (run ++ 0x20#8 :: rest) =
        scanLoop (.afterNum v) (R ++ [Record.internal f]) rest ∧
      scanLoop (.afterNumS f) R run = .ok (R ++ [Record.internal f, .sentinel, .internal v]) ∧
      scanLoop (.afterNumS f) R (run ++ 0x20#8 :: rest) =
        scanLoop (.afterNum v) (R ++ [Record.internal f, .sentinel]) rest) ∧
  -- R105: the symbol phase, and the byte after the symbol
  (∀ (rest : List Byte) (R : List Record) (f : Word) (c : Byte),
    scanSymbol f R [] = .error .endMidRecord ∧
    scanSymbol f R (0x0A#8 :: rest) = .error .rawNewline ∧
    scanSymbol f R (0x5C#8 :: 0x6E#8 :: rest) = scanAfterSymbol (R ++ [Record.leaf f 0x0A#8]) rest ∧
    (c ≠ 0x0A#8 → ¬(c = 0x5C#8 ∧ rest.head? = some 0x6E#8) →
      scanSymbol f R (c :: rest) = scanAfterSymbol (R ++ [Record.leaf f c]) rest) ∧
    scanAfterSymbol R [] = .ok R ∧
    scanAfterSymbol R (0x20#8 :: rest) = scanLoop .ready R rest ∧
    (c ≠ 0x20#8 → scanAfterSymbol R (c :: rest) = .error .badSymbol)) ∧
  -- R106
  rebuild [] = .ok [] ∧
  (∀ rs : List Record, rebuild (.sentinel :: rs) = if ∀ r ∈ rs, r = .sentinel then .ok [] else .error .leftover) ∧
  ∀ rs : List Record, rs ≠ [] → .sentinel ∉ rs → rs.length ≤ 511 →
    (∀ n, 0 < n → n < rs.length → LeavesOpen (rs.take n)) →
    (LeavesOpen rs → rebuild rs = .error .missingChild) ∧
    (¬LeavesOpen rs → ∃ nodes, rebuild rs = .ok nodes ∧ nodes.length = rs.length) ∧
    ∀ (r : Record) (rest : List Record),
      (¬LeavesOpen rs → rebuild (rs ++ r :: rest) = .error .leftover) ∧
      (LeavesOpen rs → r = .sentinel → rebuild (rs ++ r :: rest) = .error .sentinelChild) ∧
      (LeavesOpen rs → r ≠ .sentinel → rs.length = 511 → rebuild (rs ++ r :: rest) = .error .tooManyNodes)

/-! ### Bitstream (44_bitstream.md) -/

/-- R114: ENC_BEGIN with a code table opens an encoding session and zeroes its registers. -/
def Obligations.EncBeginOpensTheSession : Prop :=
  ∀ s : State, s.mode = .idle → s.codesValid = true →
    exec .encBegin s =
      .next { s with acc := [], encBits := 0#64, padding := 0#3, mode := .enc, last := 0x40000000#32 }

/-- R115: ENC_SYM appends the symbol's code to ACC, adds its length to ENC_BITS, emits every full byte, most significant bit
first, and keeps the rest; a symbol with no code raises UNKNOWN_SYMBOL and changes nothing but LAST and ERR. -/
def Obligations.EncSymPacksTheCode : Prop :=
  ∀ (s : State) (sym : Byte), s.mode = .enc →
    ((s.codeAt sym).valid = true → ∃ t ws, exec (.encSym sym) s = .next t ∧ CompletesOk 0x41#8 s t ∧
      t.encBits = s.encBits + (s.codeAt sym).len.setWidth 64 ∧
      Emits s t ws ∧ ws.length = (s.acc ++ (s.codeAt sym).code).length / 8 ∧
      t.acc = (s.acc ++ (s.codeAt sym).code).drop (8 * ws.length) ∧
      (∀ j < ws.length,
        ws[j]? = some ⟨.payload, 0#24 ++ byteOf (((s.acc ++ (s.codeAt sym).code).drop (8 * j)).take 8)⟩) ∧
      t = { s with acc := t.acc, encBits := t.encBits, outq := t.outq, last := t.last }) ∧
    ((s.codeAt sym).valid = false → ∃ t, exec (.encSym sym) s = .next t ∧ Raises 0x41#8 (.unknownSymbol sym) s t ∧
      t = { s with last := t.last, err := t.err })

/-- R116, R117: ENC_END emits the last byte padded with zero bits, sets PADDING to the number of them, which is
(8 − ENC_BITS mod 8) mod 8, and closes the session. -/
def Obligations.EncEndPadsTheLastByte : Prop :=
  ∀ s : State, s.mode = .enc → InvSession s →
    ∃ t, exec .encEnd s = .next t ∧ CompletesOk 0x42#8 s t ∧
      Emits s t (if s.acc = [] then []
        else [⟨.payload, 0#24 ++ byteOf (s.acc ++ List.replicate (8 - s.acc.length) false)⟩]) ∧
      t.padding.toNat = (8 - s.encBits.toNat % 8) % 8 ∧ t.acc = [] ∧ t.mode = .idle ∧
      t = { s with padding := t.padding, acc := t.acc, mode := t.mode, outq := t.outq, last := t.last }

/-- R113: packing any codes from an empty ACC and flushing emits the bytes of their concatenation, zero padded: ⌈ℓ/8⌉ of
them. -/
def Obligations.PackingLaw : Prop :=
  ∀ (s : State) (es : List CodeEntry), s.acc = [] →
    let l := (es.map CodeEntry.code).flatten
    (es.foldl State.pack s).flush.outq = s.outq ++
      (List.range ((l.length + 7) / 8)).map fun j =>
        ⟨.payload, 0#24 ++ byteOf (((l ++ List.replicate 7 false).drop (8 * j)).take 8)⟩

/-- 20_memory.md R52: a byte's MSB-first expansion and the byte of 8 bits are inverse, and bit j of the group is bit 7 − j of
the byte. -/
def Obligations.ByteOrderIsMsbFirst : Prop :=
  (∀ p : Byte, byteOf (expand p) = p) ∧ (∀ b : Bits, b.length = 8 → expand (byteOf b) = b) ∧
  ∀ (b : Bits) (j : Nat), b.length = 8 → j < 8 → (byteOf b).getLsbD (7 - j) = b.getD j false

/-- R121: DEC_BEGIN with a tree, the empty one too, opens a decoding session at the root; without a tree it raises NO_TREE,
and with a padding count above 7 RANGE with the count, and in an open session SEQUENCE, and changes nothing but LAST and ERR. -/
def Obligations.DecBeginOpensTheSession : Prop :=
  ∀ (s : State) (pad : Byte), encode (.decBegin pad) = 0x50#8 ++ 0#16 ++ pad ∧
    (s.mode ≠ .idle → ∃ t, exec (.decBegin pad) s = .next t ∧ Raises 0x50#8 (.sequence s.mode) s t ∧
      t = { s with last := t.last, err := t.err }) ∧
    (s.mode = .idle → s.treeValid = false → ∃ t, exec (.decBegin pad) s = .next t ∧ Raises 0x50#8 .noTree s t ∧
      t = { s with last := t.last, err := t.err }) ∧
    (s.mode = .idle → s.treeValid = true → pad.toNat ≤ 7 → ∃ t, exec (.decBegin pad) s = .next t ∧
      CompletesOk 0x50#8 s t ∧ t.decPad.toNat = pad.toNat ∧
      t = { s with
        decPad := t.decPad, ptr := s.root, pend := none, decSyms := 0#32, sessFailed := false, sessErr := 0#32, mode := .dec,
        last := t.last }) ∧
    (s.mode = .idle → s.treeValid = true → 7 < pad.toNat → ∃ t, exec (.decBegin pad) s = .next t ∧
      Raises 0x50#8 (.paddingRange pad) s t ∧ t = { s with last := t.last, err := t.err })

/-- R119, R120, R122: DEC_BYTE keeps the byte pending and steps the bits of the byte before it, none for the first byte; an error
of those steps fails the session. With a tree whose root is an internal node the steps never raise, and emit SYMBOL words that
DEC_SYMS counts; with the empty tree the first bit raises NULL_ROOT (60_exceptions.md R157); with a one-leaf tree each 0 bit emits
the root's symbol and the first 1 bit raises NULL_CHILD. -/
def Obligations.DecByteStepsThePendingByte : Prop :=
  ∀ (s : State) (b : Byte), s.mode = .dec → s.sessFailed = false →
    (s.pend = none → exec (.decByte b) s = .next { s with pend := some b, last := 0x51000000#32 }) ∧
    (∀ p u, s.pend = some p → { s with pend := some b }.bitSteps (expand p) = .ok u →
      exec (.decByte b) s = .next { u with last := 0x51000000#32 }) ∧
    (∀ p c u, s.pend = some p → { s with pend := some b }.bitSteps (expand p) = .raised c u →
      ∃ t, exec (.decByte b) s = .next t ∧ Raises 0x51#8 c s t ∧
        t = { u with sessFailed := true, pend := none, sessErr := t.last, last := t.last, err := t.err }) ∧
    (∀ p, s.pend = some p → InvTree s → InvSession s → s.root ≠ 0x1FF#9 → (nodeIn s.nodes s.root).leaf = false →
      ∃ (t : State) (syms : List Byte), exec (.decByte b) s = .next t ∧ CompletesOk 0x51#8 s t ∧ t.pend = some b ∧
        Emits s t (syms.map fun x => ⟨.symbol, 0#24 ++ x⟩) ∧ t.decSyms = s.decSyms + BitVec.ofNat 32 syms.length ∧
        t = { s with ptr := t.ptr, pend := t.pend, decSyms := t.decSyms, outq := t.outq, last := t.last }) ∧
    (∀ p, s.pend = some p → s.root = 0x1FF#9 → ∃ t, exec (.decByte b) s = .next t ∧
      Raises 0x51#8 (.underrun .nullRoot) s t ∧
      t = { s with sessFailed := true, pend := none, sessErr := t.last, last := t.last, err := t.err }) ∧
    (∀ p, s.pend = some p → s.root ≠ 0x1FF#9 → (nodeIn s.nodes s.root).leaf = true →
      let symbols (k : Nat) : List OutWord := List.replicate k ⟨.symbol, 0#24 ++ (nodeIn s.nodes s.root).sym⟩
      (p = 0#8 → exec (.decByte b) s = .next
        { s with
          pend := some b, outq := s.outq ++ symbols 8, decSyms := s.decSyms + 8#32, last := 0x51000000#32 }) ∧
      ∀ k < 8, (∀ j < k, p.getLsbD (7 - j) = false) → p.getLsbD (7 - k) = true →
        ∃ t, exec (.decByte b) s = .next t ∧ Raises 0x51#8 (.underrun .nullChild) s t ∧
          t = { s with
            outq := s.outq ++ symbols k, decSyms := s.decSyms + BitVec.ofNat 32 k, sessFailed := true, pend := none,
            sessErr := t.last, last := t.last, err := t.err })

/-- R123: DEC_END closes the session and steps the last byte's bits but the padding; it is clean exactly when those steps do not
raise and PTR is back at ROOT, else it raises their error or END_MID_CODE; a padding count with no byte is NO_BYTES; the error
also goes to SESS_ERR with DEC_END's opcode. With a tree whose root is an internal node the steps never raise; with the empty tree
the first bit raises NULL_ROOT (R119, 60_exceptions.md R157); with a one-leaf tree each 0 bit emits the root's symbol and the first
1 bit raises NULL_CHILD (R120). -/
def Obligations.DecEndExpandsTheLastByte : Prop :=
  ∀ s : State, s.mode = .dec → s.sessFailed = false →
    (s.pend = none → s.decPad = 0#3 → s.ptr = s.root → exec .decEnd s = .next { s with mode := .idle, last := 0x52000000#32 }) ∧
    (s.pend = none → s.decPad = 0#3 → s.ptr ≠ s.root → ∃ t, exec .decEnd s = .next t ∧
      Raises 0x52#8 (.underrun .endMidCode) s t ∧ t = { s with mode := .idle, sessErr := t.last, last := t.last, err := t.err }) ∧
    (s.pend = none → s.decPad ≠ 0#3 → ∃ t, exec .decEnd s = .next t ∧ Raises 0x52#8 (.paddingNoBytes s.decPad) s t ∧
      t = { s with mode := .idle, sessErr := t.last, last := t.last, err := t.err }) ∧
    (∀ p u, s.pend = some p →
      { s with mode := .idle, pend := none }.bitSteps ((expand p).take (8 - s.decPad.toNat)) = .ok u →
      (u.ptr = u.root → exec .decEnd s = .next { u with last := 0x52000000#32 }) ∧
      (u.ptr ≠ u.root → ∃ t, exec .decEnd s = .next t ∧ Raises 0x52#8 (.underrun .endMidCode) s t ∧
        t = { u with sessErr := t.last, last := t.last, err := t.err })) ∧
    (∀ p c u, s.pend = some p →
      { s with mode := .idle, pend := none }.bitSteps ((expand p).take (8 - s.decPad.toNat)) = .raised c u →
      ∃ t, exec .decEnd s = .next t ∧ Raises 0x52#8 c s t ∧ t = { u with sessErr := t.last, last := t.last, err := t.err }) ∧
    (∀ p, s.pend = some p → InvTree s → InvSession s → s.root ≠ 0x1FF#9 → (nodeIn s.nodes s.root).leaf = false →
      ∃ u, { s with mode := .idle, pend := none }.bitSteps ((expand p).take (8 - s.decPad.toNat)) = .ok u) ∧
    (∀ p, s.pend = some p → s.root = 0x1FF#9 → ∃ t, exec .decEnd s = .next t ∧ Raises 0x52#8 (.underrun .nullRoot) s t ∧
      t = { s with mode := .idle, pend := none, sessErr := t.last, last := t.last, err := t.err }) ∧
    (∀ p, s.pend = some p → s.root ≠ 0x1FF#9 → (nodeIn s.nodes s.root).leaf = true →
      let symbols (k : Nat) : List OutWord := List.replicate k ⟨.symbol, 0#24 ++ (nodeIn s.nodes s.root).sym⟩
      let m := 8 - s.decPad.toNat
      (s.ptr = s.root → (∀ j < m, p.getLsbD (7 - j) = false) → exec .decEnd s = .next
        { s with
          mode := .idle, pend := none, outq := s.outq ++ symbols m, decSyms := s.decSyms + BitVec.ofNat 32 m,
          last := 0x52000000#32 }) ∧
      ∀ k < m, (∀ j < k, p.getLsbD (7 - j) = false) → p.getLsbD (7 - k) = true →
        ∃ t, exec .decEnd s = .next t ∧ Raises 0x52#8 (.underrun .nullChild) s t ∧
          t = { s with
            mode := .idle, pend := none, outq := s.outq ++ symbols k, decSyms := s.decSyms + BitVec.ofNat 32 k,
            sessErr := t.last, last := t.last, err := t.err })

/-- R118 to R120 with R90, R91: from the root, the bits of the codes of any symbols decode to exactly those symbols, and end
at the root. -/
def Obligations.CodesDecodeToTheirSymbols : Prop :=
  ∀ (s : State) (syms : List Byte), InvTree s → InvCodes s → s.codesValid = true → s.ptr = s.root →
    (∀ x ∈ syms, (s.codeAt x).valid = true) →
    s.bitSteps (syms.map fun x => (s.codeAt x).code).flatten =
      .ok { s with
        outq := s.outq ++ syms.map fun x => ⟨.symbol, 0#24 ++ x⟩, decSyms := s.decSyms + BitVec.ofNat 32 syms.length }

/-- R124: once a DEC_BYTE raises, the session has failed and SESS_ERR is its result word; the SYMBOL words it emitted stay;
each later DEC_BYTE changes nothing; DEC_END reports the stored error with its own opcode; ABORT or DEC_END closes the
session. -/
def Obligations.FailedSessionReportsItsFirstError : Prop :=
  (∀ (s t : State) (b : Byte), s.mode = .dec → s.sessFailed = false → exec (.decByte b) s = .next t → codeOf t.last ≠ 0#8 →
    t.sessFailed = true ∧ t.status.getLsbD 5 = true ∧ t.sessErr = t.last ∧ (codeOf s.err = 0#8 → t.err = t.last) ∧
    t.pend = none ∧ t.mode = .dec ∧ ∃ ws, Emits s t ws) ∧
  ∀ s : State, s.mode = .dec → s.sessFailed = true →
    (∀ b, exec (.decByte b) s = .next { s with last := 0x51000000#32 }) ∧
    (∃ t, exec .decEnd s = .next t ∧ t.last = 0x52#8 ++ s.sessErr.extractLsb' 0 24 ∧
      t = { s with mode := .idle, sessFailed := false, last := t.last, err := t.err }) ∧
    ∃ t, exec .abort s = .next t ∧ t.mode = .idle ∧ t.sessFailed = false

/-- R127: the padding bits' values are not examined: DEC_END gives the same for two last bytes that agree above the padding
bits. -/
def Obligations.PaddingBitsAreNotExamined : Prop :=
  ∀ (s : State) (p q : Byte), (∀ j, s.decPad.toNat ≤ j → p.getLsbD j = q.getLsbD j) → s.mode = .dec →
    exec .decEnd { s with pend := some p, sessFailed := false } = exec .decEnd { s with pend := some q, sessFailed := false }

/-! ### Read-back (46_readback.md) -/

/-- R134, R139: RD_REG emits the register's value in any mode; an index above 0x0E emits 0 and raises BAD_INDEX with it;
nothing else changes. -/
def Obligations.RdRegReadsEveryRegister : Prop :=
  ∀ (s : State) (r : Byte), encode (.rdReg r) = 0x60#8 ++ 0#16 ++ r ∧ ∃ t, exec (.rdReg r) s = .next t ∧
    t = { s with outq := t.outq, last := t.last, err := t.err } ∧
    match registerValue s r.toNat with
    | some v => CompletesOk 0x60#8 s t ∧ v < 4294967296 ∧ Emits s t [⟨.resp, BitVec.ofNat 32 v⟩]
    | none => 0x0E < r.toNat ∧ Raises 0x60#8 (.badIndex r) s t ∧ Emits s t [⟨.resp, 0#32⟩]

/-- R135, R137, R138, R139: RD_FREQ, RD_CLEN and RD_CODE emit the count, the code's validity and length, and 32 bits of the
code, code bit 32k + j at word bit 31 − j, in any mode; nothing else changes. -/
def Obligations.RdFreqClenAndCodeReadTheTables : Prop :=
  ∀ (s : State) (sym : Byte),
    encode (.rdFreq sym) = 0x61#8 ++ 0#16 ++ sym ∧ encode (.rdClen sym) = 0x63#8 ++ 0#16 ++ sym ∧
    (∀ k : BitVec 3, encode (.rdCode sym k) = 0x64#8 ++ 0#13 ++ k ++ sym) ∧
    exec (.rdFreq sym) s = .next { s with outq := s.outq ++ [⟨.resp, s.freqAt sym⟩], last := 0x61000000#32 } ∧
    (∃ v : Word, v.toNat = 2147483648 * (s.codeAt sym).valid.toNat + (s.codeAt sym).len.toNat ∧
      exec (.rdClen sym) s = .next { s with outq := s.outq ++ [⟨.resp, v⟩], last := 0x63000000#32 }) ∧
    ∀ k : BitVec 3, ∃ v : Word,
      (∀ j < 32, v.getLsbD (31 - j) =
        (decide (32 * k.toNat + j < (s.codeAt sym).len.toNat) && (s.codeAt sym).bits.getLsbD (32 * k.toNat + j))) ∧
      exec (.rdCode sym k) s = .next { s with outq := s.outq ++ [⟨.resp, v⟩], last := 0x64000000#32 }

/-- R136, R139: RD_NODE emits the entry's links and symbol and then its frequency, outside DES mode; index 511 emits two
zeros and raises BAD_INDEX with INFO 0xFF; nothing else changes. -/
def Obligations.RdNodeReadsAnEntry : Prop :=
  ∀ (s : State) (idx : NodeIx), s.mode ≠ .des →
    ((idx.toNat ≤ 510 → ∃ v : Word,
      v.toNat = 2147483648 * (nodeIn s.nodes idx).used.toNat + 1073741824 * (nodeIn s.nodes idx).leaf.toNat +
        262144 * (nodeIn s.nodes idx).left.toNat + 512 * (nodeIn s.nodes idx).right.toNat + (nodeIn s.nodes idx).sym.toNat ∧
      exec (.rdNode idx) s = .next
        { s with outq := s.outq ++ [⟨.resp, v⟩, ⟨.resp, (nodeIn s.nodes idx).freq⟩], last := 0x62000000#32 }) ∧
    (idx.toNat = 511 → ∃ t, exec (.rdNode idx) s = .next t ∧ Raises 0x62#8 (.badIndex 0xFF#8) s t ∧
      t = { s with outq := s.outq ++ [⟨.resp, 0#32⟩, ⟨.resp, 0#32⟩], last := t.last, err := t.err }))
end

