-- ==== Sys2Proof/Laws/State.lean ====
section
/-!
SUPPORT. One lemma per field per shared update of the state, so that no proof unfolds a record update. A command's frame
follows from these by simp.
-/

namespace Sys2Proof.Machine

/-! ### `State.emit` -/

@[simp] theorem State.emit_mode (s : State) (tag : Tag) (v : Word) : (s.emit tag v).mode = s.mode := rfl
@[simp] theorem State.emit_last (s : State) (tag : Tag) (v : Word) : (s.emit tag v).last = s.last := rfl
@[simp] theorem State.emit_err (s : State) (tag : Tag) (v : Word) : (s.emit tag v).err = s.err := rfl
@[simp] theorem State.emit_root (s : State) (tag : Tag) (v : Word) : (s.emit tag v).root = s.root := rfl
@[simp] theorem State.emit_nodeCount (s : State) (tag : Tag) (v : Word) :
    (s.emit tag v).nodeCount = s.nodeCount := rfl
@[simp] theorem State.emit_treeValid (s : State) (tag : Tag) (v : Word) :
    (s.emit tag v).treeValid = s.treeValid := rfl
@[simp] theorem State.emit_total (s : State) (tag : Tag) (v : Word) : (s.emit tag v).total = s.total := rfl
@[simp] theorem State.emit_distinct (s : State) (tag : Tag) (v : Word) : (s.emit tag v).distinct = s.distinct := rfl
@[simp] theorem State.emit_padding (s : State) (tag : Tag) (v : Word) : (s.emit tag v).padding = s.padding := rfl
@[simp] theorem State.emit_encBits (s : State) (tag : Tag) (v : Word) : (s.emit tag v).encBits = s.encBits := rfl
@[simp] theorem State.emit_decSyms (s : State) (tag : Tag) (v : Word) : (s.emit tag v).decSyms = s.decSyms := rfl
@[simp] theorem State.emit_decPad (s : State) (tag : Tag) (v : Word) : (s.emit tag v).decPad = s.decPad := rfl
@[simp] theorem State.emit_sessErr (s : State) (tag : Tag) (v : Word) : (s.emit tag v).sessErr = s.sessErr := rfl
@[simp] theorem State.emit_freq (s : State) (tag : Tag) (v : Word) : (s.emit tag v).freq = s.freq := rfl
@[simp] theorem State.emit_nodes (s : State) (tag : Tag) (v : Word) : (s.emit tag v).nodes = s.nodes := rfl
@[simp] theorem State.emit_codes (s : State) (tag : Tag) (v : Word) : (s.emit tag v).codes = s.codes := rfl
@[simp] theorem State.emit_codesValid (s : State) (tag : Tag) (v : Word) :
    (s.emit tag v).codesValid = s.codesValid := rfl
@[simp] theorem State.emit_acc (s : State) (tag : Tag) (v : Word) : (s.emit tag v).acc = s.acc := rfl
@[simp] theorem State.emit_ptr (s : State) (tag : Tag) (v : Word) : (s.emit tag v).ptr = s.ptr := rfl
@[simp] theorem State.emit_pend (s : State) (tag : Tag) (v : Word) : (s.emit tag v).pend = s.pend := rfl
@[simp] theorem State.emit_sessFailed (s : State) (tag : Tag) (v : Word) :
    (s.emit tag v).sessFailed = s.sessFailed := rfl
@[simp] theorem State.emit_desBuf (s : State) (tag : Tag) (v : Word) : (s.emit tag v).desBuf = s.desBuf := rfl
@[simp] theorem State.emit_sent (s : State) (tag : Tag) (v : Word) : (s.emit tag v).sent = s.sent := rfl
@[simp] theorem State.emit_outq (s : State) (tag : Tag) (v : Word) : (s.emit tag v).outq = s.outq ++ [⟨tag, v⟩] := rfl
@[simp] theorem State.emit_cmdq (s : State) (tag : Tag) (v : Word) : (s.emit tag v).cmdq = s.cmdq := rfl
@[simp] theorem State.emit_cmdOffer (s : State) (tag : Tag) (v : Word) : (s.emit tag v).cmdOffer = s.cmdOffer := rfl
@[simp] theorem State.emit_outHeld (s : State) (tag : Tag) (v : Word) : (s.emit tag v).outHeld = s.outHeld := rfl
@[simp] theorem State.emit_turns (s : State) (tag : Tag) (v : Word) : (s.emit tag v).turns = s.turns := rfl

/-! ### `State.emitBytes` -/

@[simp] theorem State.emitBytes_mode (s : State) (tag : Tag) (bs : List Byte) :
    (s.emitBytes tag bs).mode = s.mode := rfl
@[simp] theorem State.emitBytes_last (s : State) (tag : Tag) (bs : List Byte) :
    (s.emitBytes tag bs).last = s.last := rfl
@[simp] theorem State.emitBytes_err (s : State) (tag : Tag) (bs : List Byte) : (s.emitBytes tag bs).err = s.err := rfl
@[simp] theorem State.emitBytes_root (s : State) (tag : Tag) (bs : List Byte) :
    (s.emitBytes tag bs).root = s.root := rfl
@[simp] theorem State.emitBytes_nodeCount (s : State) (tag : Tag) (bs : List Byte) :
    (s.emitBytes tag bs).nodeCount = s.nodeCount := rfl
@[simp] theorem State.emitBytes_treeValid (s : State) (tag : Tag) (bs : List Byte) :
    (s.emitBytes tag bs).treeValid = s.treeValid := rfl
@[simp] theorem State.emitBytes_total (s : State) (tag : Tag) (bs : List Byte) :
    (s.emitBytes tag bs).total = s.total := rfl
@[simp] theorem State.emitBytes_distinct (s : State) (tag : Tag) (bs : List Byte) :
    (s.emitBytes tag bs).distinct = s.distinct := rfl
@[simp] theorem State.emitBytes_padding (s : State) (tag : Tag) (bs : List Byte) :
    (s.emitBytes tag bs).padding = s.padding := rfl
@[simp] theorem State.emitBytes_encBits (s : State) (tag : Tag) (bs : List Byte) :
    (s.emitBytes tag bs).encBits = s.encBits := rfl
@[simp] theorem State.emitBytes_decSyms (s : State) (tag : Tag) (bs : List Byte) :
    (s.emitBytes tag bs).decSyms = s.decSyms := rfl
@[simp] theorem State.emitBytes_decPad (s : State) (tag : Tag) (bs : List Byte) :
    (s.emitBytes tag bs).decPad = s.decPad := rfl
@[simp] theorem State.emitBytes_sessErr (s : State) (tag : Tag) (bs : List Byte) :
    (s.emitBytes tag bs).sessErr = s.sessErr := rfl
@[simp] theorem State.emitBytes_freq (s : State) (tag : Tag) (bs : List Byte) :
    (s.emitBytes tag bs).freq = s.freq := rfl
@[simp] theorem State.emitBytes_nodes (s : State) (tag : Tag) (bs : List Byte) :
    (s.emitBytes tag bs).nodes = s.nodes := rfl
@[simp] theorem State.emitBytes_codes (s : State) (tag : Tag) (bs : List Byte) :
    (s.emitBytes tag bs).codes = s.codes := rfl
@[simp] theorem State.emitBytes_codesValid (s : State) (tag : Tag) (bs : List Byte) :
    (s.emitBytes tag bs).codesValid = s.codesValid := rfl
@[simp] theorem State.emitBytes_acc (s : State) (tag : Tag) (bs : List Byte) : (s.emitBytes tag bs).acc = s.acc := rfl
@[simp] theorem State.emitBytes_ptr (s : State) (tag : Tag) (bs : List Byte) : (s.emitBytes tag bs).ptr = s.ptr := rfl
@[simp] theorem State.emitBytes_pend (s : State) (tag : Tag) (bs : List Byte) :
    (s.emitBytes tag bs).pend = s.pend := rfl
@[simp] theorem State.emitBytes_sessFailed (s : State) (tag : Tag) (bs : List Byte) :
    (s.emitBytes tag bs).sessFailed = s.sessFailed := rfl
@[simp] theorem State.emitBytes_desBuf (s : State) (tag : Tag) (bs : List Byte) :
    (s.emitBytes tag bs).desBuf = s.desBuf := rfl
@[simp] theorem State.emitBytes_sent (s : State) (tag : Tag) (bs : List Byte) :
    (s.emitBytes tag bs).sent = s.sent := rfl
@[simp] theorem State.emitBytes_outq (s : State) (tag : Tag) (bs : List Byte) :
    (s.emitBytes tag bs).outq = s.outq ++ bs.map fun b => ⟨tag, b.setWidth 32⟩ := rfl
@[simp] theorem State.emitBytes_cmdq (s : State) (tag : Tag) (bs : List Byte) :
    (s.emitBytes tag bs).cmdq = s.cmdq := rfl
@[simp] theorem State.emitBytes_cmdOffer (s : State) (tag : Tag) (bs : List Byte) :
    (s.emitBytes tag bs).cmdOffer = s.cmdOffer := rfl
@[simp] theorem State.emitBytes_outHeld (s : State) (tag : Tag) (bs : List Byte) :
    (s.emitBytes tag bs).outHeld = s.outHeld := rfl
@[simp] theorem State.emitBytes_turns (s : State) (tag : Tag) (bs : List Byte) :
    (s.emitBytes tag bs).turns = s.turns := rfl

/-! ### `State.respond` -/

@[simp] theorem State.respond_mode (s : State) (ws : List Word) : (s.respond ws).mode = s.mode := rfl
@[simp] theorem State.respond_last (s : State) (ws : List Word) : (s.respond ws).last = s.last := rfl
@[simp] theorem State.respond_err (s : State) (ws : List Word) : (s.respond ws).err = s.err := rfl
@[simp] theorem State.respond_root (s : State) (ws : List Word) : (s.respond ws).root = s.root := rfl
@[simp] theorem State.respond_nodeCount (s : State) (ws : List Word) : (s.respond ws).nodeCount = s.nodeCount := rfl
@[simp] theorem State.respond_treeValid (s : State) (ws : List Word) : (s.respond ws).treeValid = s.treeValid := rfl
@[simp] theorem State.respond_total (s : State) (ws : List Word) : (s.respond ws).total = s.total := rfl
@[simp] theorem State.respond_distinct (s : State) (ws : List Word) : (s.respond ws).distinct = s.distinct := rfl
@[simp] theorem State.respond_padding (s : State) (ws : List Word) : (s.respond ws).padding = s.padding := rfl
@[simp] theorem State.respond_encBits (s : State) (ws : List Word) : (s.respond ws).encBits = s.encBits := rfl
@[simp] theorem State.respond_decSyms (s : State) (ws : List Word) : (s.respond ws).decSyms = s.decSyms := rfl
@[simp] theorem State.respond_decPad (s : State) (ws : List Word) : (s.respond ws).decPad = s.decPad := rfl
@[simp] theorem State.respond_sessErr (s : State) (ws : List Word) : (s.respond ws).sessErr = s.sessErr := rfl
@[simp] theorem State.respond_freq (s : State) (ws : List Word) : (s.respond ws).freq = s.freq := rfl
@[simp] theorem State.respond_nodes (s : State) (ws : List Word) : (s.respond ws).nodes = s.nodes := rfl
@[simp] theorem State.respond_codes (s : State) (ws : List Word) : (s.respond ws).codes = s.codes := rfl
@[simp] theorem State.respond_codesValid (s : State) (ws : List Word) :
    (s.respond ws).codesValid = s.codesValid := rfl
@[simp] theorem State.respond_acc (s : State) (ws : List Word) : (s.respond ws).acc = s.acc := rfl
@[simp] theorem State.respond_ptr (s : State) (ws : List Word) : (s.respond ws).ptr = s.ptr := rfl
@[simp] theorem State.respond_pend (s : State) (ws : List Word) : (s.respond ws).pend = s.pend := rfl
@[simp] theorem State.respond_sessFailed (s : State) (ws : List Word) :
    (s.respond ws).sessFailed = s.sessFailed := rfl
@[simp] theorem State.respond_desBuf (s : State) (ws : List Word) : (s.respond ws).desBuf = s.desBuf := rfl
@[simp] theorem State.respond_sent (s : State) (ws : List Word) : (s.respond ws).sent = s.sent := rfl
@[simp] theorem State.respond_outq (s : State) (ws : List Word) :
    (s.respond ws).outq = s.outq ++ ws.map fun w => ⟨.resp, w⟩ := rfl
@[simp] theorem State.respond_cmdq (s : State) (ws : List Word) : (s.respond ws).cmdq = s.cmdq := rfl
@[simp] theorem State.respond_cmdOffer (s : State) (ws : List Word) : (s.respond ws).cmdOffer = s.cmdOffer := rfl
@[simp] theorem State.respond_outHeld (s : State) (ws : List Word) : (s.respond ws).outHeld = s.outHeld := rfl
@[simp] theorem State.respond_turns (s : State) (ws : List Word) : (s.respond ws).turns = s.turns := rfl

/-! ### `State.respondZeros` -/

@[simp] theorem State.respondZeros_mode (s : State) (op : Opcode) : (s.respondZeros op).mode = s.mode := rfl
@[simp] theorem State.respondZeros_last (s : State) (op : Opcode) : (s.respondZeros op).last = s.last := rfl
@[simp] theorem State.respondZeros_err (s : State) (op : Opcode) : (s.respondZeros op).err = s.err := rfl
@[simp] theorem State.respondZeros_root (s : State) (op : Opcode) : (s.respondZeros op).root = s.root := rfl
@[simp] theorem State.respondZeros_nodeCount (s : State) (op : Opcode) :
    (s.respondZeros op).nodeCount = s.nodeCount := rfl
@[simp] theorem State.respondZeros_treeValid (s : State) (op : Opcode) :
    (s.respondZeros op).treeValid = s.treeValid := rfl
@[simp] theorem State.respondZeros_total (s : State) (op : Opcode) : (s.respondZeros op).total = s.total := rfl
@[simp] theorem State.respondZeros_distinct (s : State) (op : Opcode) :
    (s.respondZeros op).distinct = s.distinct := rfl
@[simp] theorem State.respondZeros_padding (s : State) (op : Opcode) : (s.respondZeros op).padding = s.padding := rfl
@[simp] theorem State.respondZeros_encBits (s : State) (op : Opcode) : (s.respondZeros op).encBits = s.encBits := rfl
@[simp] theorem State.respondZeros_decSyms (s : State) (op : Opcode) : (s.respondZeros op).decSyms = s.decSyms := rfl
@[simp] theorem State.respondZeros_decPad (s : State) (op : Opcode) : (s.respondZeros op).decPad = s.decPad := rfl
@[simp] theorem State.respondZeros_sessErr (s : State) (op : Opcode) : (s.respondZeros op).sessErr = s.sessErr := rfl
@[simp] theorem State.respondZeros_freq (s : State) (op : Opcode) : (s.respondZeros op).freq = s.freq := rfl
@[simp] theorem State.respondZeros_nodes (s : State) (op : Opcode) : (s.respondZeros op).nodes = s.nodes := rfl
@[simp] theorem State.respondZeros_codes (s : State) (op : Opcode) : (s.respondZeros op).codes = s.codes := rfl
@[simp] theorem State.respondZeros_codesValid (s : State) (op : Opcode) :
    (s.respondZeros op).codesValid = s.codesValid := rfl
@[simp] theorem State.respondZeros_acc (s : State) (op : Opcode) : (s.respondZeros op).acc = s.acc := rfl
@[simp] theorem State.respondZeros_ptr (s : State) (op : Opcode) : (s.respondZeros op).ptr = s.ptr := rfl
@[simp] theorem State.respondZeros_pend (s : State) (op : Opcode) : (s.respondZeros op).pend = s.pend := rfl
@[simp] theorem State.respondZeros_sessFailed (s : State) (op : Opcode) :
    (s.respondZeros op).sessFailed = s.sessFailed := rfl
@[simp] theorem State.respondZeros_desBuf (s : State) (op : Opcode) : (s.respondZeros op).desBuf = s.desBuf := rfl
@[simp] theorem State.respondZeros_sent (s : State) (op : Opcode) : (s.respondZeros op).sent = s.sent := rfl
@[simp] theorem State.respondZeros_outq (s : State) (op : Opcode) : (s.respondZeros op).outq = s.outq ++ List.replicate (responseCount op) ⟨.resp, 0#32⟩ := by
  simp [State.respondZeros, State.respond]
@[simp] theorem State.respondZeros_cmdq (s : State) (op : Opcode) : (s.respondZeros op).cmdq = s.cmdq := rfl
@[simp] theorem State.respondZeros_cmdOffer (s : State) (op : Opcode) :
    (s.respondZeros op).cmdOffer = s.cmdOffer := rfl
@[simp] theorem State.respondZeros_outHeld (s : State) (op : Opcode) : (s.respondZeros op).outHeld = s.outHeld := rfl
@[simp] theorem State.respondZeros_turns (s : State) (op : Opcode) : (s.respondZeros op).turns = s.turns := rfl

/-! ### `State.record` -/

@[simp] theorem State.record_mode (s : State) (r : Word) : (s.record r).mode = s.mode := rfl
@[simp] theorem State.record_last (s : State) (r : Word) : (s.record r).last = r := rfl
@[simp] theorem State.record_err (s : State) (r : Word) :
    (s.record r).err = if codeOf r ≠ 0#8 ∧ codeOf s.err = 0#8 then r else s.err := rfl
@[simp] theorem State.record_root (s : State) (r : Word) : (s.record r).root = s.root := rfl
@[simp] theorem State.record_nodeCount (s : State) (r : Word) : (s.record r).nodeCount = s.nodeCount := rfl
@[simp] theorem State.record_treeValid (s : State) (r : Word) : (s.record r).treeValid = s.treeValid := rfl
@[simp] theorem State.record_total (s : State) (r : Word) : (s.record r).total = s.total := rfl
@[simp] theorem State.record_distinct (s : State) (r : Word) : (s.record r).distinct = s.distinct := rfl
@[simp] theorem State.record_padding (s : State) (r : Word) : (s.record r).padding = s.padding := rfl
@[simp] theorem State.record_encBits (s : State) (r : Word) : (s.record r).encBits = s.encBits := rfl
@[simp] theorem State.record_decSyms (s : State) (r : Word) : (s.record r).decSyms = s.decSyms := rfl
@[simp] theorem State.record_decPad (s : State) (r : Word) : (s.record r).decPad = s.decPad := rfl
@[simp] theorem State.record_sessErr (s : State) (r : Word) : (s.record r).sessErr = s.sessErr := rfl
@[simp] theorem State.record_freq (s : State) (r : Word) : (s.record r).freq = s.freq := rfl
@[simp] theorem State.record_nodes (s : State) (r : Word) : (s.record r).nodes = s.nodes := rfl
@[simp] theorem State.record_codes (s : State) (r : Word) : (s.record r).codes = s.codes := rfl
@[simp] theorem State.record_codesValid (s : State) (r : Word) : (s.record r).codesValid = s.codesValid := rfl
@[simp] theorem State.record_acc (s : State) (r : Word) : (s.record r).acc = s.acc := rfl
@[simp] theorem State.record_ptr (s : State) (r : Word) : (s.record r).ptr = s.ptr := rfl
@[simp] theorem State.record_pend (s : State) (r : Word) : (s.record r).pend = s.pend := rfl
@[simp] theorem State.record_sessFailed (s : State) (r : Word) : (s.record r).sessFailed = s.sessFailed := rfl
@[simp] theorem State.record_desBuf (s : State) (r : Word) : (s.record r).desBuf = s.desBuf := rfl
@[simp] theorem State.record_sent (s : State) (r : Word) : (s.record r).sent = s.sent := rfl
@[simp] theorem State.record_outq (s : State) (r : Word) : (s.record r).outq = s.outq := rfl
@[simp] theorem State.record_cmdq (s : State) (r : Word) : (s.record r).cmdq = s.cmdq := rfl
@[simp] theorem State.record_cmdOffer (s : State) (r : Word) : (s.record r).cmdOffer = s.cmdOffer := rfl
@[simp] theorem State.record_outHeld (s : State) (r : Word) : (s.record r).outHeld = s.outHeld := rfl
@[simp] theorem State.record_turns (s : State) (r : Word) : (s.record r).turns = s.turns := rfl

/-! ### `State.setFreq` -/

@[simp] theorem State.setFreq_mode (s : State) (sym : Byte) (v : Word) : (s.setFreq sym v).mode = s.mode := rfl
@[simp] theorem State.setFreq_last (s : State) (sym : Byte) (v : Word) : (s.setFreq sym v).last = s.last := rfl
@[simp] theorem State.setFreq_err (s : State) (sym : Byte) (v : Word) : (s.setFreq sym v).err = s.err := rfl
@[simp] theorem State.setFreq_root (s : State) (sym : Byte) (v : Word) : (s.setFreq sym v).root = s.root := rfl
@[simp] theorem State.setFreq_nodeCount (s : State) (sym : Byte) (v : Word) :
    (s.setFreq sym v).nodeCount = s.nodeCount := rfl
@[simp] theorem State.setFreq_treeValid (s : State) (sym : Byte) (v : Word) :
    (s.setFreq sym v).treeValid = s.treeValid := rfl
@[simp] theorem State.setFreq_total (s : State) (sym : Byte) (v : Word) : (s.setFreq sym v).total = s.total := rfl
@[simp] theorem State.setFreq_distinct (s : State) (sym : Byte) (v : Word) :
    (s.setFreq sym v).distinct = s.distinct := rfl
@[simp] theorem State.setFreq_padding (s : State) (sym : Byte) (v : Word) :
    (s.setFreq sym v).padding = s.padding := rfl
@[simp] theorem State.setFreq_encBits (s : State) (sym : Byte) (v : Word) :
    (s.setFreq sym v).encBits = s.encBits := rfl
@[simp] theorem State.setFreq_decSyms (s : State) (sym : Byte) (v : Word) :
    (s.setFreq sym v).decSyms = s.decSyms := rfl
@[simp] theorem State.setFreq_decPad (s : State) (sym : Byte) (v : Word) : (s.setFreq sym v).decPad = s.decPad := rfl
@[simp] theorem State.setFreq_sessErr (s : State) (sym : Byte) (v : Word) :
    (s.setFreq sym v).sessErr = s.sessErr := rfl
@[simp] theorem State.setFreq_freq (s : State) (sym : Byte) (v : Word) :
    (s.setFreq sym v).freq = tablePut 0#32 s.freq sym.toNat v := rfl
@[simp] theorem State.setFreq_nodes (s : State) (sym : Byte) (v : Word) : (s.setFreq sym v).nodes = s.nodes := rfl
@[simp] theorem State.setFreq_codes (s : State) (sym : Byte) (v : Word) : (s.setFreq sym v).codes = s.codes := rfl
@[simp] theorem State.setFreq_codesValid (s : State) (sym : Byte) (v : Word) :
    (s.setFreq sym v).codesValid = s.codesValid := rfl
@[simp] theorem State.setFreq_acc (s : State) (sym : Byte) (v : Word) : (s.setFreq sym v).acc = s.acc := rfl
@[simp] theorem State.setFreq_ptr (s : State) (sym : Byte) (v : Word) : (s.setFreq sym v).ptr = s.ptr := rfl
@[simp] theorem State.setFreq_pend (s : State) (sym : Byte) (v : Word) : (s.setFreq sym v).pend = s.pend := rfl
@[simp] theorem State.setFreq_sessFailed (s : State) (sym : Byte) (v : Word) :
    (s.setFreq sym v).sessFailed = s.sessFailed := rfl
@[simp] theorem State.setFreq_desBuf (s : State) (sym : Byte) (v : Word) : (s.setFreq sym v).desBuf = s.desBuf := rfl
@[simp] theorem State.setFreq_sent (s : State) (sym : Byte) (v : Word) : (s.setFreq sym v).sent = s.sent := rfl
@[simp] theorem State.setFreq_outq (s : State) (sym : Byte) (v : Word) : (s.setFreq sym v).outq = s.outq := rfl
@[simp] theorem State.setFreq_cmdq (s : State) (sym : Byte) (v : Word) : (s.setFreq sym v).cmdq = s.cmdq := rfl
@[simp] theorem State.setFreq_cmdOffer (s : State) (sym : Byte) (v : Word) :
    (s.setFreq sym v).cmdOffer = s.cmdOffer := rfl
@[simp] theorem State.setFreq_outHeld (s : State) (sym : Byte) (v : Word) :
    (s.setFreq sym v).outHeld = s.outHeld := rfl
@[simp] theorem State.setFreq_turns (s : State) (sym : Byte) (v : Word) : (s.setFreq sym v).turns = s.turns := rfl

/-! ### `State.clearCodes` -/

@[simp] theorem State.clearCodes_mode (s : State) : s.clearCodes.mode = s.mode := rfl
@[simp] theorem State.clearCodes_last (s : State) : s.clearCodes.last = s.last := rfl
@[simp] theorem State.clearCodes_err (s : State) : s.clearCodes.err = s.err := rfl
@[simp] theorem State.clearCodes_root (s : State) : s.clearCodes.root = s.root := rfl
@[simp] theorem State.clearCodes_nodeCount (s : State) : s.clearCodes.nodeCount = s.nodeCount := rfl
@[simp] theorem State.clearCodes_treeValid (s : State) : s.clearCodes.treeValid = s.treeValid := rfl
@[simp] theorem State.clearCodes_total (s : State) : s.clearCodes.total = s.total := rfl
@[simp] theorem State.clearCodes_distinct (s : State) : s.clearCodes.distinct = s.distinct := rfl
@[simp] theorem State.clearCodes_padding (s : State) : s.clearCodes.padding = s.padding := rfl
@[simp] theorem State.clearCodes_encBits (s : State) : s.clearCodes.encBits = s.encBits := rfl
@[simp] theorem State.clearCodes_decSyms (s : State) : s.clearCodes.decSyms = s.decSyms := rfl
@[simp] theorem State.clearCodes_decPad (s : State) : s.clearCodes.decPad = s.decPad := rfl
@[simp] theorem State.clearCodes_sessErr (s : State) : s.clearCodes.sessErr = s.sessErr := rfl
@[simp] theorem State.clearCodes_freq (s : State) : s.clearCodes.freq = s.freq := rfl
@[simp] theorem State.clearCodes_nodes (s : State) : s.clearCodes.nodes = s.nodes := rfl
@[simp] theorem State.clearCodes_codes (s : State) : s.clearCodes.codes = [] := rfl
@[simp] theorem State.clearCodes_codesValid (s : State) : s.clearCodes.codesValid = false := rfl
@[simp] theorem State.clearCodes_acc (s : State) : s.clearCodes.acc = s.acc := rfl
@[simp] theorem State.clearCodes_ptr (s : State) : s.clearCodes.ptr = s.ptr := rfl
@[simp] theorem State.clearCodes_pend (s : State) : s.clearCodes.pend = s.pend := rfl
@[simp] theorem State.clearCodes_sessFailed (s : State) : s.clearCodes.sessFailed = s.sessFailed := rfl
@[simp] theorem State.clearCodes_desBuf (s : State) : s.clearCodes.desBuf = s.desBuf := rfl
@[simp] theorem State.clearCodes_sent (s : State) : s.clearCodes.sent = s.sent := rfl
@[simp] theorem State.clearCodes_outq (s : State) : s.clearCodes.outq = s.outq := rfl
@[simp] theorem State.clearCodes_cmdq (s : State) : s.clearCodes.cmdq = s.cmdq := rfl
@[simp] theorem State.clearCodes_cmdOffer (s : State) : s.clearCodes.cmdOffer = s.cmdOffer := rfl
@[simp] theorem State.clearCodes_outHeld (s : State) : s.clearCodes.outHeld = s.outHeld := rfl
@[simp] theorem State.clearCodes_turns (s : State) : s.clearCodes.turns = s.turns := rfl

/-! ### `State.clearTree` -/

@[simp] theorem State.clearTree_mode (s : State) : s.clearTree.mode = s.mode := rfl
@[simp] theorem State.clearTree_last (s : State) : s.clearTree.last = s.last := rfl
@[simp] theorem State.clearTree_err (s : State) : s.clearTree.err = s.err := rfl
@[simp] theorem State.clearTree_root (s : State) : s.clearTree.root = Config.null := rfl
@[simp] theorem State.clearTree_nodeCount (s : State) : s.clearTree.nodeCount = 0#10 := rfl
@[simp] theorem State.clearTree_treeValid (s : State) : s.clearTree.treeValid = false := rfl
@[simp] theorem State.clearTree_total (s : State) : s.clearTree.total = s.total := rfl
@[simp] theorem State.clearTree_distinct (s : State) : s.clearTree.distinct = s.distinct := rfl
@[simp] theorem State.clearTree_padding (s : State) : s.clearTree.padding = s.padding := rfl
@[simp] theorem State.clearTree_encBits (s : State) : s.clearTree.encBits = s.encBits := rfl
@[simp] theorem State.clearTree_decSyms (s : State) : s.clearTree.decSyms = s.decSyms := rfl
@[simp] theorem State.clearTree_decPad (s : State) : s.clearTree.decPad = s.decPad := rfl
@[simp] theorem State.clearTree_sessErr (s : State) : s.clearTree.sessErr = s.sessErr := rfl
@[simp] theorem State.clearTree_freq (s : State) : s.clearTree.freq = s.freq := rfl
@[simp] theorem State.clearTree_nodes (s : State) : s.clearTree.nodes = [] := rfl
@[simp] theorem State.clearTree_codes (s : State) : s.clearTree.codes = s.codes := rfl
@[simp] theorem State.clearTree_codesValid (s : State) : s.clearTree.codesValid = s.codesValid := rfl
@[simp] theorem State.clearTree_acc (s : State) : s.clearTree.acc = s.acc := rfl
@[simp] theorem State.clearTree_ptr (s : State) : s.clearTree.ptr = s.ptr := rfl
@[simp] theorem State.clearTree_pend (s : State) : s.clearTree.pend = s.pend := rfl
@[simp] theorem State.clearTree_sessFailed (s : State) : s.clearTree.sessFailed = s.sessFailed := rfl
@[simp] theorem State.clearTree_desBuf (s : State) : s.clearTree.desBuf = s.desBuf := rfl
@[simp] theorem State.clearTree_sent (s : State) : s.clearTree.sent = s.sent := rfl
@[simp] theorem State.clearTree_outq (s : State) : s.clearTree.outq = s.outq := rfl
@[simp] theorem State.clearTree_cmdq (s : State) : s.clearTree.cmdq = s.cmdq := rfl
@[simp] theorem State.clearTree_cmdOffer (s : State) : s.clearTree.cmdOffer = s.cmdOffer := rfl
@[simp] theorem State.clearTree_outHeld (s : State) : s.clearTree.outHeld = s.outHeld := rfl
@[simp] theorem State.clearTree_turns (s : State) : s.clearTree.turns = s.turns := rfl

/-! ### `State.setTree` -/

@[simp] theorem State.setTree_mode (s : State) (ns : List (Nat × Node)) (r : NodeIx) (k : BitVec 10) :
    (s.setTree ns r k).mode = s.mode := rfl
@[simp] theorem State.setTree_last (s : State) (ns : List (Nat × Node)) (r : NodeIx) (k : BitVec 10) :
    (s.setTree ns r k).last = s.last := rfl
@[simp] theorem State.setTree_err (s : State) (ns : List (Nat × Node)) (r : NodeIx) (k : BitVec 10) :
    (s.setTree ns r k).err = s.err := rfl
@[simp] theorem State.setTree_root (s : State) (ns : List (Nat × Node)) (r : NodeIx) (k : BitVec 10) :
    (s.setTree ns r k).root = r := rfl
@[simp] theorem State.setTree_nodeCount (s : State) (ns : List (Nat × Node)) (r : NodeIx) (k : BitVec 10) :
    (s.setTree ns r k).nodeCount = k := rfl
@[simp] theorem State.setTree_treeValid (s : State) (ns : List (Nat × Node)) (r : NodeIx) (k : BitVec 10) :
    (s.setTree ns r k).treeValid = true := rfl
@[simp] theorem State.setTree_total (s : State) (ns : List (Nat × Node)) (r : NodeIx) (k : BitVec 10) :
    (s.setTree ns r k).total = s.total := rfl
@[simp] theorem State.setTree_distinct (s : State) (ns : List (Nat × Node)) (r : NodeIx) (k : BitVec 10) :
    (s.setTree ns r k).distinct = s.distinct := rfl
@[simp] theorem State.setTree_padding (s : State) (ns : List (Nat × Node)) (r : NodeIx) (k : BitVec 10) :
    (s.setTree ns r k).padding = s.padding := rfl
@[simp] theorem State.setTree_encBits (s : State) (ns : List (Nat × Node)) (r : NodeIx) (k : BitVec 10) :
    (s.setTree ns r k).encBits = s.encBits := rfl
@[simp] theorem State.setTree_decSyms (s : State) (ns : List (Nat × Node)) (r : NodeIx) (k : BitVec 10) :
    (s.setTree ns r k).decSyms = s.decSyms := rfl
@[simp] theorem State.setTree_decPad (s : State) (ns : List (Nat × Node)) (r : NodeIx) (k : BitVec 10) :
    (s.setTree ns r k).decPad = s.decPad := rfl
@[simp] theorem State.setTree_sessErr (s : State) (ns : List (Nat × Node)) (r : NodeIx) (k : BitVec 10) :
    (s.setTree ns r k).sessErr = s.sessErr := rfl
@[simp] theorem State.setTree_freq (s : State) (ns : List (Nat × Node)) (r : NodeIx) (k : BitVec 10) :
    (s.setTree ns r k).freq = s.freq := rfl
@[simp] theorem State.setTree_nodes (s : State) (ns : List (Nat × Node)) (r : NodeIx) (k : BitVec 10) :
    (s.setTree ns r k).nodes = ns := rfl
@[simp] theorem State.setTree_codes (s : State) (ns : List (Nat × Node)) (r : NodeIx) (k : BitVec 10) :
    (s.setTree ns r k).codes = s.codes := rfl
@[simp] theorem State.setTree_codesValid (s : State) (ns : List (Nat × Node)) (r : NodeIx) (k : BitVec 10) :
    (s.setTree ns r k).codesValid = s.codesValid := rfl
@[simp] theorem State.setTree_acc (s : State) (ns : List (Nat × Node)) (r : NodeIx) (k : BitVec 10) :
    (s.setTree ns r k).acc = s.acc := rfl
@[simp] theorem State.setTree_ptr (s : State) (ns : List (Nat × Node)) (r : NodeIx) (k : BitVec 10) :
    (s.setTree ns r k).ptr = s.ptr := rfl
@[simp] theorem State.setTree_pend (s : State) (ns : List (Nat × Node)) (r : NodeIx) (k : BitVec 10) :
    (s.setTree ns r k).pend = s.pend := rfl
@[simp] theorem State.setTree_sessFailed (s : State) (ns : List (Nat × Node)) (r : NodeIx) (k : BitVec 10) :
    (s.setTree ns r k).sessFailed = s.sessFailed := rfl
@[simp] theorem State.setTree_desBuf (s : State) (ns : List (Nat × Node)) (r : NodeIx) (k : BitVec 10) :
    (s.setTree ns r k).desBuf = s.desBuf := rfl
@[simp] theorem State.setTree_sent (s : State) (ns : List (Nat × Node)) (r : NodeIx) (k : BitVec 10) :
    (s.setTree ns r k).sent = s.sent := rfl
@[simp] theorem State.setTree_outq (s : State) (ns : List (Nat × Node)) (r : NodeIx) (k : BitVec 10) :
    (s.setTree ns r k).outq = s.outq := rfl
@[simp] theorem State.setTree_cmdq (s : State) (ns : List (Nat × Node)) (r : NodeIx) (k : BitVec 10) :
    (s.setTree ns r k).cmdq = s.cmdq := rfl
@[simp] theorem State.setTree_cmdOffer (s : State) (ns : List (Nat × Node)) (r : NodeIx) (k : BitVec 10) :
    (s.setTree ns r k).cmdOffer = s.cmdOffer := rfl
@[simp] theorem State.setTree_outHeld (s : State) (ns : List (Nat × Node)) (r : NodeIx) (k : BitVec 10) :
    (s.setTree ns r k).outHeld = s.outHeld := rfl
@[simp] theorem State.setTree_turns (s : State) (ns : List (Nat × Node)) (r : NodeIx) (k : BitVec 10) :
    (s.setTree ns r k).turns = s.turns := rfl

/-! ### `State.resetCore` and `State.pinReset`: reset values (10_state.md R45) -/

@[simp] theorem State.resetCore_mode (s : State) : s.resetCore.mode = State.reset.mode := rfl
@[simp] theorem State.resetCore_last (s : State) : s.resetCore.last = State.reset.last := rfl
@[simp] theorem State.resetCore_err (s : State) : s.resetCore.err = State.reset.err := rfl
@[simp] theorem State.resetCore_root (s : State) : s.resetCore.root = State.reset.root := rfl
@[simp] theorem State.resetCore_nodeCount (s : State) : s.resetCore.nodeCount = State.reset.nodeCount := rfl
@[simp] theorem State.resetCore_treeValid (s : State) : s.resetCore.treeValid = State.reset.treeValid := rfl
@[simp] theorem State.resetCore_total (s : State) : s.resetCore.total = State.reset.total := rfl
@[simp] theorem State.resetCore_distinct (s : State) : s.resetCore.distinct = State.reset.distinct := rfl
@[simp] theorem State.resetCore_padding (s : State) : s.resetCore.padding = State.reset.padding := rfl
@[simp] theorem State.resetCore_encBits (s : State) : s.resetCore.encBits = State.reset.encBits := rfl
@[simp] theorem State.resetCore_decSyms (s : State) : s.resetCore.decSyms = State.reset.decSyms := rfl
@[simp] theorem State.resetCore_decPad (s : State) : s.resetCore.decPad = State.reset.decPad := rfl
@[simp] theorem State.resetCore_sessErr (s : State) : s.resetCore.sessErr = State.reset.sessErr := rfl
@[simp] theorem State.resetCore_freq (s : State) : s.resetCore.freq = State.reset.freq := rfl
@[simp] theorem State.resetCore_nodes (s : State) : s.resetCore.nodes = State.reset.nodes := rfl
@[simp] theorem State.resetCore_codes (s : State) : s.resetCore.codes = State.reset.codes := rfl
@[simp] theorem State.resetCore_codesValid (s : State) : s.resetCore.codesValid = State.reset.codesValid := rfl
@[simp] theorem State.resetCore_acc (s : State) : s.resetCore.acc = State.reset.acc := rfl
@[simp] theorem State.resetCore_ptr (s : State) : s.resetCore.ptr = State.reset.ptr := rfl
@[simp] theorem State.resetCore_pend (s : State) : s.resetCore.pend = State.reset.pend := rfl
@[simp] theorem State.resetCore_sessFailed (s : State) : s.resetCore.sessFailed = State.reset.sessFailed := rfl
@[simp] theorem State.resetCore_desBuf (s : State) : s.resetCore.desBuf = State.reset.desBuf := rfl
@[simp] theorem State.resetCore_sent (s : State) : s.resetCore.sent = s.sent := rfl
@[simp] theorem State.resetCore_outq (s : State) : s.resetCore.outq = s.outq := rfl
@[simp] theorem State.resetCore_cmdq (s : State) : s.resetCore.cmdq = s.cmdq := rfl
@[simp] theorem State.resetCore_cmdOffer (s : State) : s.resetCore.cmdOffer = s.cmdOffer := rfl
@[simp] theorem State.resetCore_outHeld (s : State) : s.resetCore.outHeld = s.outHeld := rfl
@[simp] theorem State.resetCore_turns (s : State) : s.resetCore.turns = s.turns := rfl
@[simp] theorem State.pinReset_mode (s : State) : s.pinReset.mode = State.reset.mode := rfl
@[simp] theorem State.pinReset_last (s : State) : s.pinReset.last = State.reset.last := rfl
@[simp] theorem State.pinReset_err (s : State) : s.pinReset.err = State.reset.err := rfl
@[simp] theorem State.pinReset_root (s : State) : s.pinReset.root = State.reset.root := rfl
@[simp] theorem State.pinReset_nodeCount (s : State) : s.pinReset.nodeCount = State.reset.nodeCount := rfl
@[simp] theorem State.pinReset_treeValid (s : State) : s.pinReset.treeValid = State.reset.treeValid := rfl
@[simp] theorem State.pinReset_total (s : State) : s.pinReset.total = State.reset.total := rfl
@[simp] theorem State.pinReset_distinct (s : State) : s.pinReset.distinct = State.reset.distinct := rfl
@[simp] theorem State.pinReset_padding (s : State) : s.pinReset.padding = State.reset.padding := rfl
@[simp] theorem State.pinReset_encBits (s : State) : s.pinReset.encBits = State.reset.encBits := rfl
@[simp] theorem State.pinReset_decSyms (s : State) : s.pinReset.decSyms = State.reset.decSyms := rfl
@[simp] theorem State.pinReset_decPad (s : State) : s.pinReset.decPad = State.reset.decPad := rfl
@[simp] theorem State.pinReset_sessErr (s : State) : s.pinReset.sessErr = State.reset.sessErr := rfl
@[simp] theorem State.pinReset_freq (s : State) : s.pinReset.freq = State.reset.freq := rfl
@[simp] theorem State.pinReset_nodes (s : State) : s.pinReset.nodes = State.reset.nodes := rfl
@[simp] theorem State.pinReset_codes (s : State) : s.pinReset.codes = State.reset.codes := rfl
@[simp] theorem State.pinReset_codesValid (s : State) : s.pinReset.codesValid = State.reset.codesValid := rfl
@[simp] theorem State.pinReset_acc (s : State) : s.pinReset.acc = State.reset.acc := rfl
@[simp] theorem State.pinReset_ptr (s : State) : s.pinReset.ptr = State.reset.ptr := rfl
@[simp] theorem State.pinReset_pend (s : State) : s.pinReset.pend = State.reset.pend := rfl
@[simp] theorem State.pinReset_sessFailed (s : State) : s.pinReset.sessFailed = State.reset.sessFailed := rfl
@[simp] theorem State.pinReset_desBuf (s : State) : s.pinReset.desBuf = State.reset.desBuf := rfl
@[simp] theorem State.pinReset_sent (s : State) : s.pinReset.sent = s.sent := rfl
@[simp] theorem State.pinReset_outq (s : State) : s.pinReset.outq = State.reset.outq := rfl
@[simp] theorem State.pinReset_cmdq (s : State) : s.pinReset.cmdq = State.reset.cmdq := rfl
@[simp] theorem State.pinReset_cmdOffer (s : State) : s.pinReset.cmdOffer = State.reset.cmdOffer := rfl
@[simp] theorem State.pinReset_outHeld (s : State) : s.pinReset.outHeld = State.reset.outHeld := rfl
@[simp] theorem State.pinReset_turns (s : State) : s.pinReset.turns = s.turns := rfl

end Sys2Proof.Machine
end

