-- ==== Sys2Proof/Laws/Table.lean ====
section
/-!
SUPPORT. The tables (Machine/Table.lean): a read after a write, the canonical form kept by every write, and reading the tables
that BUILD, DES_END and DERIVE make whole.
-/

namespace Sys2Proof.Machine

variable {α : Type}

theorem tableGet_of_lt_all (d : α) (t : List (Nat × α)) (k : Nat) (h : ∀ p ∈ t, k < p.1) : tableGet d t k = d := by
  induction t with
  | nil => rfl
  | cons p t ih =>
    have hp := h p (by simp)
    have hne : p.1 ≠ k := by omega
    simp only [tableGet, if_neg hne]
    exact ih fun q hq => h q (by simp [hq])

theorem tableGet_mem (d : α) (t : List (Nat × α)) (k : Nat) (h : tableGet d t k ≠ d) : (k, tableGet d t k) ∈ t := by
  induction t with
  | nil => exact absurd rfl h
  | cons p t ih =>
    obtain ⟨k', v⟩ := p
    simp only [tableGet] at h ⊢
    split
    · next e => subst e; simp
    · next ne =>
      rw [if_neg ne] at h
      exact List.mem_cons_of_mem _ (ih h)

theorem tableGet_of_mem (d : α) (t : List (Nat × α)) (hs : t.Pairwise fun a b => a.1 < b.1) {p : Nat × α} (hp : p ∈ t) :
    tableGet d t p.1 = p.2 := by
  induction t with
  | nil => cases hp
  | cons q t ih =>
    obtain ⟨hq, hs'⟩ := List.pairwise_cons.mp hs
    rcases List.mem_cons.mp hp with rfl | hp'
    · simp [tableGet]
    · have : q.1 ≠ p.1 := Nat.ne_of_lt (hq p hp')
      simp only [tableGet, if_neg this]
      exact ih hs' hp'

variable [DecidableEq α]

/-- Writing keeps every bound that the old keys and the new key meet. -/
theorem tablePut_keys (d : α) (t : List (Nat × α)) (k : Nat) (v : α) :
    ∀ p ∈ tablePut d t k v, p ∈ t ∨ (p = (k, v) ∧ v ≠ d) := by
  induction t with
  | nil =>
    intro p hp
    simp only [tablePut] at hp
    split at hp <;> simp_all
  | cons q t ih =>
    intro p hp
    obtain ⟨k', v'⟩ := q
    simp only [tablePut] at hp
    split at hp
    · split at hp <;> simp_all
      tauto
    · split at hp
      · split at hp <;> simp_all
        tauto
      · rcases List.mem_cons.mp hp with rfl | hp'
        · simp
        · rcases ih p hp' with h | h
          · exact Or.inl (List.mem_cons_of_mem _ h)
          · exact Or.inr h

/-- A write keeps the canonical form. -/
theorem tablePut_wf (d : α) (size : Nat) (t : List (Nat × α)) (k : Nat) (v : α) (h : TableWf d size t) (hk : k < size) :
    TableWf d size (tablePut d t k v) := by
  refine ⟨?_, ?_⟩
  · obtain ⟨hs, -⟩ := h
    induction t with
    | nil => simp only [tablePut]; split <;> simp
    | cons q t ih =>
      obtain ⟨k', v'⟩ := q
      obtain ⟨hq, hs'⟩ := List.pairwise_cons.mp hs
      simp only [tablePut]
      split
      · next hlt =>
        split
        · exact hs
        · refine List.pairwise_cons.mpr ⟨fun p hp => ?_, hs⟩
          rcases List.mem_cons.mp hp with rfl | hp'
          · exact hlt
          · exact Nat.lt_trans hlt (hq p hp')
      · split
        · next hlt he =>
          split
          · exact hs'
          · exact List.pairwise_cons.mpr ⟨fun p hp => he ▸ hq p hp, hs'⟩
        · next hlt he =>
          refine List.pairwise_cons.mpr ⟨fun p hp => ?_, ih hs'⟩
          rcases tablePut_keys d t k v p hp with hp' | ⟨rfl, -⟩
          · exact hq p hp'
          · simp only at he ⊢; omega
  · intro p hp
    rcases tablePut_keys d t k v p hp with hp' | ⟨rfl, hv⟩
    · exact h.2 p hp'
    · exact ⟨hk, hv⟩

/-- A read of the written index gives what was written. -/
theorem tableGet_put_same (d : α) (t : List (Nat × α)) (k : Nat) (v : α) (hs : t.Pairwise fun a b => a.1 < b.1) :
    tableGet d (tablePut d t k v) k = v := by
  induction t with
  | nil =>
    simp only [tablePut]
    split
    · next h => simp [tableGet, h]
    · simp [tableGet]
  | cons q t ih =>
    obtain ⟨k', v'⟩ := q
    obtain ⟨hq, hs'⟩ := List.pairwise_cons.mp hs
    simp only [tablePut]
    split
    · next hlt =>
      split
      · next hv =>
        rw [hv]
        exact tableGet_of_lt_all d _ k fun p hp => by
          rcases List.mem_cons.mp hp with rfl | hp'
          · exact hlt
          · exact Nat.lt_trans hlt (hq p hp')
      · simp [tableGet]
    · split
      · next he =>
        split
        · next hv =>
          rw [hv]
          exact tableGet_of_lt_all d _ k fun p hp => he ▸ hq p hp
        · simp [tableGet]
      · next he =>
        have : k' ≠ k := fun e => he e.symm
        simp only [tableGet, if_neg this]
        exact ih hs'

/-- A write leaves every other index alone. -/
theorem tableGet_put_other (d : α) (t : List (Nat × α)) (k j : Nat) (v : α) (hs : t.Pairwise fun a b => a.1 < b.1)
    (hj : j ≠ k) : tableGet d (tablePut d t k v) j = tableGet d t j := by
  induction t with
  | nil =>
    simp only [tablePut]
    split
    · rfl
    · simp [tableGet, Ne.symm hj]
  | cons q t ih =>
    obtain ⟨k', v'⟩ := q
    obtain ⟨hq, hs'⟩ := List.pairwise_cons.mp hs
    simp only [tablePut]
    split
    · split
      · rfl
      · rw [tableGet, if_neg (Ne.symm hj)]
    · split
      · next he =>
        have hkj : k' ≠ j := by rw [← he]; exact Ne.symm hj
        split
        · rw [tableGet, if_neg hkj]
        · rw [tableGet, if_neg (Ne.symm hj), tableGet, if_neg hkj]
      · simp only [tableGet]
        split
        · rfl
        · exact ih hs'

omit [DecidableEq α] in
theorem tableGet_zipIdx (d : α) (l : List α) (m n : Nat) :
    tableGet d ((l.zipIdx m).map fun p => (p.2, p.1)) (m + n) = l.getD n d := by
  induction l generalizing m n with
  | nil => simp [tableGet]
  | cons a l ih =>
    cases n with
    | zero => simp [tableGet]
    | succ n =>
      have hne : m ≠ m + (n + 1) := by omega
      simp only [List.zipIdx_cons, List.map_cons, tableGet, if_neg hne, List.getD_cons_succ]
      have := ih (m + 1) n
      rwa [show m + 1 + n = m + (n + 1) by omega] at this

omit [DecidableEq α] in
/-- A table made of a list reads as the list. -/
@[simp] theorem tableGet_ofList (d : α) (l : List α) (n : Nat) : tableGet d (tableOfList l) n = l.getD n d := by
  have := tableGet_zipIdx d l 0 n
  rwa [Nat.zero_add] at this

omit [DecidableEq α] in
/-- A table made of a list of entries that differ from the reset value has the canonical form. -/
theorem tableOfList_wf (d : α) (size : Nat) (l : List α) (hl : l.length ≤ size) (hd : ∀ a ∈ l, a ≠ d) :
    TableWf d size (tableOfList l) := by
  refine ⟨?_, ?_⟩
  · have hfst : (tableOfList l).map Prod.fst = List.range l.length := by
      have : (tableOfList l).map Prod.fst = (l.zipIdx 0).map Prod.snd := by
        rw [tableOfList, List.map_map]
        rfl
      rw [this, List.zipIdx_map_snd, List.range_eq_range']
    have := hfst ▸ List.pairwise_lt_range (n := l.length)
    exact (List.pairwise_map.mp this)
  · intro p hp
    obtain ⟨q, hq, rfl⟩ := List.mem_map.mp hp
    have hm := List.mem_zipIdx hq
    refine ⟨by simpa using Nat.lt_of_lt_of_le (by omega) hl, ?_⟩
    exact hd _ (by rw [hm.2.2]; exact List.getElem_mem _)

omit [DecidableEq α] in
/-- A table made symbol by symbol reads as each symbol's entry. -/
theorem tableGet_ofSymbols (d : α) (entry : Byte → Option α) (s : Byte) :
    tableGet d (tableOfSymbols entry) s.toNat = (entry s).getD d := by
  suffices h : ∀ l : List Nat, l.Pairwise (· < ·) → (∀ n ∈ l, n < 256) →
      tableGet d (l.filterMap fun n => (entry (BitVec.ofNat 8 n)).map fun v => (n, v)) s.toNat
        = if s.toNat ∈ l then (entry s).getD d else d by
    have := h (List.range Config.nsym) List.pairwise_lt_range fun n hn => by simpa [Config.nsym] using hn
    rw [tableOfSymbols, this, if_pos (by simp [Config.nsym]; omega)]
  intro l hl hb
  induction l with
  | nil => simp [tableGet]
  | cons n l ih =>
    obtain ⟨hn, hl'⟩ := List.pairwise_cons.mp hl
    have ih' := ih hl' fun m hm => hb m (by simp [hm])
    by_cases hs : s.toNat = n
    · have hnot : s.toNat ∉ l := fun hm => by have := hn _ hm; omega
      have hsn : BitVec.ofNat 8 n = s := by rw [← hs]; simp
      rw [if_neg hnot] at ih'
      cases he : entry s with
      | none => simp [hsn, he, ih']
      | some v => simp [hsn, he, hs, tableGet]
    · have hmem : (s.toNat ∈ n :: l) ↔ s.toNat ∈ l := by simp [hs]
      cases he : entry (BitVec.ofNat 8 n) with
      | none => simp [he, ih', hmem]
      | some v =>
        have hne : ¬n = s.toNat := fun e => hs e.symm
        simp [he, tableGet, hne, ih', hmem]

omit [DecidableEq α] in
/-- A table made symbol by symbol of entries that differ from the reset value has the canonical form. -/
theorem tableOfSymbols_wf (d : α) (entry : Byte → Option α) (hd : ∀ s v, entry s = some v → v ≠ d) :
    TableWf d Config.nsym (tableOfSymbols entry) := by
  refine ⟨?_, ?_⟩
  · refine List.Pairwise.filterMap _ ?_ (List.pairwise_lt_range (n := Config.nsym))
    intro a b hab p hp q hq
    simp only [Option.map_eq_some_iff] at hp hq
    obtain ⟨v, -, rfl⟩ := hp
    obtain ⟨w, -, rfl⟩ := hq
    exact hab
  · intro p hp
    obtain ⟨n, hn, h⟩ := List.mem_filterMap.mp hp
    obtain ⟨v, hv, rfl⟩ := Option.map_eq_some_iff.mp h
    exact ⟨by simpa using hn, hd _ _ hv⟩

/-- `FREQ[s]` after `FREQ[s] <- v`. -/
theorem State.freqAt_setFreq_same (s : State) (sym : Byte) (v : Word) (h : TableWf 0#32 Config.nsym s.freq) :
    (s.setFreq sym v).freqAt sym = v := tableGet_put_same _ _ _ _ h.1

/-- `FREQ[s']` after `FREQ[s] <- v`, for another symbol. -/
theorem State.freqAt_setFreq_other (s : State) (sym sym' : Byte) (v : Word) (h : TableWf 0#32 Config.nsym s.freq)
    (hne : sym' ≠ sym) : (s.setFreq sym v).freqAt sym' = s.freqAt sym' :=
  tableGet_put_other _ _ _ _ _ h.1 fun e => hne (BitVec.eq_of_toNat_eq e)

theorem State.setFreq_wf (s : State) (sym : Byte) (v : Word) (h : TableWf 0#32 Config.nsym s.freq) :
    TableWf 0#32 Config.nsym (s.setFreq sym v).freq := tablePut_wf _ _ _ _ _ h (by simp [Config.nsym]; omega)

end Sys2Proof.Machine
end

