-- ==== Sys2Proof/Laws/Ops.lean ====
section
/-!
SUPPORT. What each shared operation can do, said once: result words, the end of a command, the mode check, the responses of a
read.
-/

namespace Sys2Proof

/-- The opcode byte names its opcode. -/
@[simp] theorem opcodeOfByte_byte (op : Opcode) : opcodeOfByte op.byte = some op := by cases op <;> rfl

/-- A byte that names an opcode is that opcode's byte. -/
theorem byte_of_opcodeOfByte {b : Byte} {op : Opcode} (h : opcodeOfByte b = some op) : op.byte = b := by
  have := List.find?_some h
  simpa using this

/-- Bits [31:24] of a command's word are its opcode byte. -/
@[simp] theorem opcField_encode (i : Instr) : opcField (encode i) = i.opcode.byte := BitVec.extractLsb'_append_eq_left

/-- A field of a command's word below bit 24 is that field of its argument. -/
theorem extract_encode (i : Instr) (start len : Nat) (h : start + len ≤ 24) :
    (encode i).extractLsb' start len = i.arg.extractLsb' start len := BitVec.extractLsb'_append_eq_of_add_le (w := 24) h

/-- What decoding can do. -/
theorem decode_cases (w : Word) :
    (opcodeOfByte (opcField w) = none ∧ decode w = .error .unknownOpcode) ∨
    (∃ op, opcodeOfByte (opcField w) = some op ∧ w &&& op.format.reserved ≠ 0#32 ∧ decode w = .error (.reservedBits op)) ∨
    (∃ op, opcodeOfByte (opcField w) = some op ∧ w &&& op.format.reserved = 0#32 ∧
      decode w = .ok (op.withOperands w)) := by
  unfold decode
  cases h : opcodeOfByte (opcField w) with
  | none => simp
  | some op => by_cases hr : w &&& op.format.reserved = 0#32 <;> simp [hr]

@[simp] theorem opcode_withOperands (op : Opcode) (w : Word) : (op.withOperands w).opcode = op := by cases op <;> rfl

namespace Machine

/-! ### Result words (10_state.md R25) -/

@[simp] theorem codeOf_errResult (opc : Byte) (c : Cause) : codeOf (errResult opc c) = c.code :=
  (BitVec.extractLsb'_append_eq_of_le (w := 8) (by omega)).trans
    ((BitVec.extractLsb'_append_eq_of_le (w := 8) (by omega)).trans BitVec.extractLsb'_append_eq_right)

@[simp] theorem detailOf_errResult (opc : Byte) (c : Cause) : detailOf (errResult opc c) = c.detail :=
  (BitVec.extractLsb'_append_eq_of_le (w := 8) (by omega)).trans BitVec.extractLsb'_append_eq_right

@[simp] theorem infoOf_errResult (opc : Byte) (c : Cause) : infoOf (errResult opc c) = c.info :=
  BitVec.extractLsb'_append_eq_right

@[simp] theorem opcField_errResult (opc : Byte) (c : Cause) : opcField (errResult opc c) = opc :=
  (BitVec.extractLsb'_append_eq_of_le (w := 8) (by omega)).trans
    ((BitVec.extractLsb'_append_eq_of_le (w := 8) (by omega)).trans BitVec.extractLsb'_append_eq_left)

@[simp] theorem codeOf_okResult (opc : Byte) : codeOf (okResult opc) = 0#8 :=
  (BitVec.extractLsb'_append_eq_of_add_le (w := 24) (by omega)).trans (by decide)

@[simp] theorem detailOf_okResult (opc : Byte) : detailOf (okResult opc) = 0#8 :=
  (BitVec.extractLsb'_append_eq_of_add_le (w := 24) (by omega)).trans (by decide)

@[simp] theorem opcField_okResult (opc : Byte) : opcField (okResult opc) = opc := BitVec.extractLsb'_append_eq_left

/-- A command that ends without error leaves `ERR` as it was. -/
@[simp] theorem State.record_okResult_err (s : State) (opc : Byte) : (s.record (okResult opc)).err = s.err := by simp

/-! ### The end of a command (60_exceptions.md R141, R142) -/

/-- What the end of a command can do. -/
theorem finish_next {opc : Byte} {e : Ended} {t : State} (h : finish opc e = .next t) :
    (∃ s, e = .ok s ∧ t = s.record (okResult opc)) ∨ (∃ c s, e = .raised c s ∧ t = s.record (errResult opc c)) := by
  cases e with
  | ok s => exact .inl ⟨s, rfl, by simpa [finish] using h.symm⟩
  | raised c s => exact .inr ⟨c, s, rfl, by simpa [finish] using h.symm⟩
  | stuck f => simp [finish] at h

theorem finish_not_refused (opc : Byte) (e : Ended) (r : Refusal) : finish opc e ≠ .refused r := by
  cases e <;> simp [finish]

/-- The end of a command faults only where its body is stuck. -/
theorem finish_fault {opc : Byte} {e : Ended} {f : Fault} : finish opc e = .fault f ↔ e = .stuck f := by
  cases e <;> simp [finish]

/-! ### Commands that are no reads (60_exceptions.md R143, R144) -/

theorem command_ok {op : Opcode} {s u : State} {body : State → Ended} (ha : admitted op s.mode = true)
    (hb : body s = .ok u) : command op s body = .next (u.record (okResult op.byte)) := by
  simp [command, ha, hb, finish]

theorem command_raised {op : Opcode} {s u : State} {c : Cause} {body : State → Ended} (ha : admitted op s.mode = true)
    (hb : body s = .raised c u) : command op s body = .next (u.record (errResult op.byte c)) := by
  simp [command, ha, hb, finish]

theorem command_sequence {op : Opcode} {s : State} {body : State → Ended} (ha : admitted op s.mode = false) :
    command op s body = .next (s.record (errResult op.byte (.sequence s.mode))) := by
  simp [command, ha, finish]

/-- What a command can do: be turned away by the mode, end without error, or raise. -/
theorem command_next {op : Opcode} {s t : State} {body : State → Ended} (h : command op s body = .next t) :
    (admitted op s.mode = false ∧ t = s.record (errResult op.byte (.sequence s.mode))) ∨
    (admitted op s.mode = true ∧ ∃ u, body s = .ok u ∧ t = u.record (okResult op.byte)) ∨
    (admitted op s.mode = true ∧ ∃ c u, body s = .raised c u ∧ t = u.record (errResult op.byte c)) := by
  cases ha : admitted op s.mode with
  | false =>
    rw [command_sequence ha] at h
    exact .inl ⟨rfl, by simpa using h.symm⟩
  | true =>
    rw [command, ha, if_pos rfl] at h
    rcases finish_next h with ⟨u, hu, rfl⟩ | ⟨c, u, hu, rfl⟩
    · exact .inr (.inl ⟨rfl, u, hu, rfl⟩)
    · exact .inr (.inr ⟨rfl, c, u, hu, rfl⟩)

/-- A command faults only where it is admitted and its body is stuck. -/
theorem command_fault {op : Opcode} {s : State} {body : State → Ended} {f : Fault} :
    command op s body = .fault f ↔ admitted op s.mode = true ∧ body s = .stuck f := by
  unfold command
  rw [finish_fault]
  cases admitted op s.mode <;> simp

theorem command_not_refused (op : Opcode) (s : State) (body : State → Ended) (r : Refusal) :
    command op s body ≠ .refused r := finish_not_refused _ _ _

/-! ### Reads (46_readback.md R133, R139) -/

theorem readCommand_ok {op : Opcode} {s : State} {response : State → Except Cause (List Word)} {ws : List Word}
    (ha : admitted op s.mode = true) (hr : response s = .ok ws) :
    readCommand op s response = .next ((s.respond ws).record (okResult op.byte)) := by
  simp [readCommand, ha, hr, finish]

theorem readCommand_raised {op : Opcode} {s : State} {response : State → Except Cause (List Word)} {c : Cause}
    (ha : admitted op s.mode = true) (hr : response s = .error c) :
    readCommand op s response = .next ((s.respondZeros op).record (errResult op.byte c)) := by
  simp [readCommand, ha, hr, finish]

theorem readCommand_sequence {op : Opcode} {s : State} {response : State → Except Cause (List Word)}
    (ha : admitted op s.mode = false) :
    readCommand op s response = .next ((s.respondZeros op).record (errResult op.byte (.sequence s.mode))) := by
  simp [readCommand, ha, finish]

/-- What a read can do: it always answers a next state that differs in the output sequence, LAST and ERR alone. -/
theorem readCommand_cases (op : Opcode) (s : State) (response : State → Except Cause (List Word)) :
    (∃ ws, response s = .ok ws ∧ readCommand op s response = .next ((s.respond ws).record (okResult op.byte))) ∨
    (∃ c, readCommand op s response = .next ((s.respondZeros op).record (errResult op.byte c))) := by
  cases ha : admitted op s.mode with
  | false => exact .inr ⟨_, readCommand_sequence ha⟩
  | true =>
    cases hr : response s with
    | ok ws => exact .inl ⟨ws, rfl, readCommand_ok ha hr⟩
    | error c => exact .inr ⟨c, readCommand_raised ha hr⟩

/-! ### Going on from a body -/

@[simp] theorem Ended.andThen_ok (s : State) (k : State → Ended) : (Ended.ok s).andThen k = k s := rfl
@[simp] theorem Ended.andThen_raised (c : Cause) (s : State) (k : State → Ended) :
    (Ended.raised c s).andThen k = .raised c s := rfl
@[simp] theorem Ended.andThen_stuck (f : Fault) (k : State → Ended) : (Ended.stuck f).andThen k = .stuck f := rfl

/-! ### Node reads (10_state.md R37) -/

theorem nodeIn_eq (nodes : List (Nat × Node)) (i : NodeIx) : nodeIn nodes i = tableGet Node.cleared nodes i.toNat := rfl

theorem nodeAt?_eq_some {nodes : List (Nat × Node)} {i : NodeIx} (h : i ≠ Config.null) :
    nodeAt? nodes i = some (nodeIn nodes i) := by simp [nodeAt?, h]

@[simp] theorem nodeAt?_null (nodes : List (Nat × Node)) : nodeAt? nodes Config.null = none := by simp [nodeAt?]

theorem nodeAt?_cases {nodes : List (Nat × Node)} {i : NodeIx} {x : Node} (h : nodeAt? nodes i = some x) :
    i ≠ Config.null ∧ nodeIn nodes i = x := by
  unfold nodeAt? at h
  split at h <;> simp_all

end Machine

end Sys2Proof
end

