-- ==== Sys2Proof/Laws/Bitstream.lean ====
section
/-!
SUPPORT. Bit strings and the packer and unpacker: the code an entry holds, the length and head of what they make, what one bit
step can do.
-/

namespace Sys2Proof.Machine

/-! ### Code entries (10_state.md R39) -/

@[simp] theorem CodeEntry.length_code (e : CodeEntry) : e.code.length = e.len.toNat := by simp [CodeEntry.code]

theorem CodeEntry.ofBits_ne_cleared (p : Bits) : CodeEntry.ofBits p ≠ CodeEntry.cleared := by
  simp [CodeEntry.ofBits, CodeEntry.cleared]

@[simp] theorem CodeEntry.ofBits_valid (p : Bits) : (CodeEntry.ofBits p).valid = true := rfl

theorem CodeEntry.ofBits_len {p : Bits} (h : p.length ≤ 255) : (CodeEntry.ofBits p).len.toNat = p.length := by
  simp only [CodeEntry.ofBits, BitVec.toNat_ofNat]
  omega

/-- The stored bit at a position; past the code it is 0. -/
theorem CodeEntry.ofBits_getLsbD {p : Bits} (h : p.length ≤ 255) (j : Nat) :
    (CodeEntry.ofBits p).bits.getLsbD j = p.getD j false := by
  simp only [CodeEntry.ofBits, BitVec.getLsbD_setWidth, BitVec.getLsbD_ofBoolListLE]
  by_cases hj : j < 255
  · simp [hj]
  · simp [List.getElem?_eq_none_iff.mpr (show p.length ≤ j by omega)]

/-- An entry gives back the code it stores. -/
@[simp] theorem CodeEntry.code_ofBits {p : Bits} (h : p.length ≤ 255) : (CodeEntry.ofBits p).code = p := by
  apply List.ext_getElem
  · rw [CodeEntry.length_code, CodeEntry.ofBits_len h]
  · intro j h1 h2
    simp [CodeEntry.code, CodeEntry.ofBits_getLsbD h, h2]

/-! ### Bytes and bits (20_memory.md R52) -/

@[simp] theorem length_expand (p : Byte) : (expand p).length = 8 := by simp [expand]

theorem expand_getElem (p : Byte) (j : Nat) (h : j < 8) : (expand p)[j]'(by simp [h]) = p.getLsbD (7 - j) := by simp [expand]

@[simp] theorem length_packBytes (k : Nat) (b : Bits) : (packBytes k b).length = k := by
  induction k generalizing b with
  | zero => rfl
  | succ k ih => simp [packBytes, ih]

/-- The j-th packed byte is made of bits 8j..8j+7. -/
theorem packBytes_getElem (k : Nat) (b : Bits) (j : Nat) (h : j < k) :
    (packBytes k b)[j]'(by simp [h]) = byteOf ((b.drop (8 * j)).take 8) := by
  induction k generalizing b j with
  | zero => omega
  | succ k ih =>
    cases j with
    | zero => simp [packBytes]
    | succ j =>
      simp only [packBytes, List.getElem_cons_succ]
      rw [ih (b.drop 8) j (by omega), List.drop_drop, Nat.mul_succ, Nat.add_comm]

/-! ### The packer (44_bitstream.md R115, R116) -/

@[simp] theorem State.pack_acc (s : State) (e : CodeEntry) :
    (s.pack e).acc = (s.acc ++ e.code).drop (8 * ((s.acc ++ e.code).length / 8)) := rfl
@[simp] theorem State.pack_encBits (s : State) (e : CodeEntry) :
    (s.pack e).encBits = s.encBits + e.len.setWidth 64 := rfl
@[simp] theorem State.pack_outq (s : State) (e : CodeEntry) :
    (s.pack e).outq =
      s.outq ++ (packBytes ((s.acc ++ e.code).length / 8) (s.acc ++ e.code)).map fun b => ⟨.payload, b.setWidth 32⟩ := rfl

/-- Packing changes ACC, ENC_BITS and the output sequence alone. -/
theorem State.pack_frame (s : State) (e : CodeEntry) :
    s.pack e = { s with acc := (s.pack e).acc, encBits := (s.pack e).encBits, outq := (s.pack e).outq } := rfl

/-- After packing, ACC holds at most 7 bits, as many as the bits so far leave over. -/
theorem State.length_pack_acc (s : State) (e : CodeEntry) :
    (s.pack e).acc.length = (s.acc.length + e.len.toNat) % 8 := by
  simp only [State.pack_acc, List.length_drop, List.length_append, CodeEntry.length_code]
  omega

/-- Flushing changes PADDING and the output sequence alone. -/
theorem State.flush_frame (s : State) : s.flush = { s with padding := s.flush.padding, outq := s.flush.outq } := by
  unfold State.flush
  split <;> rfl

/-! ### The unpacker (44_bitstream.md R119, R120) -/

@[simp] theorem State.bitSteps_nil (s : State) : s.bitSteps [] = .ok s := rfl
@[simp] theorem State.bitSteps_cons (s : State) (b : Bool) (bs : Bits) :
    s.bitSteps (b :: bs) = (s.bitStep b).andThen fun s' => s'.bitSteps bs := rfl

/-- With the empty tree every bit raises NULL_ROOT. -/
theorem State.bitStep_empty {s : State} (h : s.root = Config.null) (bit : Bool) :
    s.bitStep bit = .raised (.underrun .nullRoot) s := by
  simp [State.bitStep, h]

/-- With a one-leaf tree a bit is the step of R120. -/
theorem State.bitStep_leaf {s : State} (hr : s.root ≠ Config.null) (hl : (nodeIn s.nodes s.root).leaf = true) (bit : Bool) :
    s.bitStep bit = s.singleLeafStep (nodeIn s.nodes s.root) bit := by
  simp [State.bitStep, nodeAt?_eq_some hr, hl]

/-- Steps over a joined bit string: first the one part, then the other. -/
theorem State.bitSteps_append (s : State) (a b : Bits) :
    s.bitSteps (a ++ b) = (s.bitSteps a).andThen fun s' => s'.bitSteps b := by
  induction a generalizing s with
  | nil => rfl
  | cons x a ih =>
    simp only [List.cons_append, State.bitSteps_cons]
    cases s.bitStep x <;> simp [ih]

/-- What a bit step can do: move PTR to an internal node; emit a symbol and go back to the root; emit the symbol of a one-leaf
tree; raise and change nothing; or be stuck where PTR names no entry. -/
theorem State.bitStep_cases (s : State) (bit : Bool) :
    (∃ c, c ≠ Config.null ∧ (nodeIn s.nodes c).leaf = false ∧ s.bitStep bit = .ok { s with ptr := c }) ∨
    (∃ c, s.bitStep bit = .ok { s with
      ptr := s.root, decSyms := s.decSyms + 1#32, outq := s.outq ++ [⟨.symbol, (nodeIn s.nodes c).sym.setWidth 32⟩] }) ∨
    ((nodeIn s.nodes s.root).leaf = true ∧ s.bitStep bit = .ok { s with
      decSyms := s.decSyms + 1#32, outq := s.outq ++ [⟨.symbol, (nodeIn s.nodes s.root).sym.setWidth 32⟩] }) ∨
    (∃ u, s.bitStep bit = .raised (.underrun u) s) ∨
    (s.root ≠ Config.null ∧ s.ptr = Config.null ∧ s.bitStep bit = .stuck .noSuchNode) := by
  by_cases hr : s.root = Config.null
  · exact .inr (.inr (.inr (.inl ⟨.nullRoot, by simp [State.bitStep, hr]⟩)))
  cases hl : (nodeIn s.nodes s.root).leaf with
  | true =>
    cases bit with
    | true =>
      exact .inr (.inr (.inr (.inl ⟨.nullChild, by
        simp [State.bitStep, nodeAt?_eq_some hr, hl, State.singleLeafStep]⟩)))
    | false =>
      exact .inr (.inr (.inl ⟨rfl, by
        simp [State.bitStep, nodeAt?_eq_some hr, hl, State.singleLeafStep, State.emitBytes]⟩))
  | false =>
    by_cases hp : s.ptr = Config.null
    · exact .inr (.inr (.inr (.inr ⟨hr, hp, by simp [State.bitStep, nodeAt?_eq_some hr, hl, State.walkStep, hp]⟩)))
    generalize hc : (if bit then (nodeIn s.nodes s.ptr).right else (nodeIn s.nodes s.ptr).left) = c
    by_cases hn : c = Config.null
    · exact .inr (.inr (.inr (.inl ⟨.nullChild, by
        simp [State.bitStep, nodeAt?_eq_some hr, hl, State.walkStep, nodeAt?_eq_some hp, hc, hn]⟩)))
    cases hy : (nodeIn s.nodes c).leaf with
    | true =>
      exact .inr (.inl ⟨c, by
        simp [State.bitStep, nodeAt?_eq_some hr, hl, State.walkStep, nodeAt?_eq_some hp, hc, nodeAt?_eq_some hn, hy,
          State.decoded, State.emitBytes]⟩)
    | false =>
      exact .inl ⟨c, hn, hy, by
        simp [State.bitStep, nodeAt?_eq_some hr, hl, State.walkStep, nodeAt?_eq_some hp, hc, nodeAt?_eq_some hn, hy]⟩

end Sys2Proof.Machine
end

