-- ==== Sys2Proof/Laws/PerInstr.lean ====
section
/-!
SUPPORT. One lemma per command: its word meets the `mask` and `match` columns of its row of the opcode table
(spec/30_encoding.md R71).
-/

namespace Sys2Proof.Laws.MeetsRow

/-- The word of the command meets its row: `word & mask = match`. -/
def Statement (i : Instr) : Prop := encode i &&& i.opcode.mask = i.opcode.pattern

/-- A command meets its row when its argument has no 1 in a reserved bit. -/
theorem of_arg {i : Instr} (r : BitVec 24) (hr : i.opcode.mask = 0xFF#8 ++ r) (ha : i.arg &&& r = 0#24) :
    Statement i := by
  unfold Statement encode
  rw [hr]
  refine (BitVec.and_append (w := 8) (v := 24)).trans ?_
  rw [ha]
  exact congrArg (fun b : BitVec 8 => b ++ 0#24) (BitVec.and_allOnes (x := i.opcode.byte))

theorem nop : Statement .nop := by unfold Statement; decide
theorem reset : Statement .reset := by unfold Statement; decide
theorem clrErr : Statement .clrErr := by unfold Statement; decide
theorem abort : Statement .abort := by unfold Statement; decide
theorem mark (imm : BitVec 24) : Statement (.mark imm) := of_arg 0#24 rfl (by simp)
theorem freqClr : Statement .freqClr := by unfold Statement; decide
theorem freqAdd (s : Byte) (n : BitVec 16) : Statement (.freqAdd s n) := of_arg 0#24 rfl (by simp)
theorem build : Statement .build := by unfold Statement; decide
theorem derive : Statement .derive := by unfold Statement; decide
theorem ser : Statement .ser := by unfold Statement; decide
theorem desBegin : Statement .desBegin := by unfold Statement; decide
theorem desByte (b : Byte) : Statement (.desByte b) :=
  of_arg 0xFFFF00#24 rfl (by revert b; unfold Instr.arg; decide +kernel)
theorem desEnd : Statement .desEnd := by unfold Statement; decide
theorem encBegin : Statement .encBegin := by unfold Statement; decide
theorem encSym (s : Byte) : Statement (.encSym s) :=
  of_arg 0xFFFF00#24 rfl (by revert s; unfold Instr.arg; decide +kernel)
theorem encEnd : Statement .encEnd := by unfold Statement; decide
theorem decBegin (pad : Byte) : Statement (.decBegin pad) :=
  of_arg 0xFFFF00#24 rfl (by revert pad; unfold Instr.arg; decide +kernel)
theorem decByte (b : Byte) : Statement (.decByte b) :=
  of_arg 0xFFFF00#24 rfl (by revert b; unfold Instr.arg; decide +kernel)
theorem decEnd : Statement .decEnd := by unfold Statement; decide
theorem rdReg (r : Byte) : Statement (.rdReg r) :=
  of_arg 0xFFFF00#24 rfl (by revert r; unfold Instr.arg; decide +kernel)
theorem rdFreq (s : Byte) : Statement (.rdFreq s) :=
  of_arg 0xFFFF00#24 rfl (by revert s; unfold Instr.arg; decide +kernel)
theorem rdNode (idx : NodeIx) : Statement (.rdNode idx) :=
  of_arg 0xFFFE00#24 rfl (by revert idx; unfold Instr.arg; decide +kernel)
theorem rdClen (s : Byte) : Statement (.rdClen s) :=
  of_arg 0xFFFF00#24 rfl (by revert s; unfold Instr.arg; decide +kernel)
theorem rdCode (s : Byte) (k : BitVec 3) : Statement (.rdCode s k) :=
  of_arg 0xFFF800#24 rfl (by revert s k; unfold Instr.arg; decide +kernel)

end Sys2Proof.Laws.MeetsRow
end

