-- ==== Sys2Proof/Laws/Step.lean ====
section
/-!
SUPPORT. What a step can do, said once: an edge at the ports, nothing, a command, or a word that spells no command.
-/

namespace Sys2Proof.Machine

/-! ### Taking the next turn (20_memory.md R49) -/

@[simp] theorem State.takeCommand_nil {s : State} (h : s.cmdq = []) : s.takeCommand = .idle s := by
  simp [State.takeCommand, h]

@[simp] theorem State.takeCommand_cons {s : State} {w : Word} {ws : List Word} (h : s.cmdq = w :: ws) :
    s.takeCommand = .execute w { s with cmdq := ws } := by
  simp [State.takeCommand, h]

theorem State.nextTurn_nil {s : State} (h : s.turns = []) : s.nextTurn = s.takeCommand := by simp [State.nextTurn, h]

theorem State.nextTurn_run {s : State} {ts : List Turn} (h : s.turns = .run :: ts) :
    s.nextTurn = State.takeCommand { s with turns := ts } := by simp [State.nextTurn, h]

theorem State.nextTurn_edge {s : State} {e : Edge} {ts : List Turn} (h : s.turns = .edge e :: ts) :
    s.nextTurn = .edge e { s with turns := ts } := by simp [State.nextTurn, h]

/-- What the next turn can be. -/
theorem State.nextTurn_cases (s : State) :
    (∃ e ts, s.turns = .edge e :: ts ∧ s.nextTurn = .edge e { s with turns := ts }) ∨
    (∃ ts, (s.turns = [] ∧ ts = [] ∨ s.turns = .run :: ts) ∧ s.cmdq = [] ∧ s.nextTurn = .idle { s with turns := ts }) ∨
    (∃ ts w ws, (s.turns = [] ∧ ts = [] ∨ s.turns = .run :: ts) ∧ s.cmdq = w :: ws ∧
      s.nextTurn = .execute w { s with cmdq := ws, turns := ts }) := by
  cases s with
  | mk mode last err root nodeCount treeValid total distinct padding encBits decSyms decPad sessErr freq nodes codes
      codesValid acc ptr pend sessFailed desBuf sent outq cmdq cmdOffer outHeld turns =>
    cases turns with
    | nil => cases cmdq <;> simp [State.nextTurn, State.takeCommand]
    | cons a ts =>
      cases a with
      | edge e => exact .inl ⟨e, ts, rfl, rfl⟩
      | run => cases cmdq <;> simp [State.nextTurn, State.takeCommand]

/-- What a step can do. -/
theorem step_cases (s : State) :
    (∃ e ts, s.turns = .edge e :: ts ∧ step s = clockEdge e { s with turns := ts }) ∨
    (∃ ts, (s.turns = [] ∧ ts = [] ∨ s.turns = .run :: ts) ∧ s.cmdq = [] ∧ step s = .next { s with turns := ts }) ∨
    (∃ ts w ws i, (s.turns = [] ∧ ts = [] ∨ s.turns = .run :: ts) ∧ s.cmdq = w :: ws ∧ decode w = .ok i ∧
      step s = exec i { s with cmdq := ws, turns := ts }) ∨
    (∃ ts w ws e, (s.turns = [] ∧ ts = [] ∨ s.turns = .run :: ts) ∧ s.cmdq = w :: ws ∧ decode w = .error e ∧
      step s = illegalWord w e { s with cmdq := ws, turns := ts }) := by
  rcases s.nextTurn_cases with ⟨e, ts, ht, hn⟩ | ⟨ts, ht, hq, hn⟩ | ⟨ts, w, ws, ht, hq, hn⟩
  · exact .inl ⟨e, ts, ht, by simp [step, hn]⟩
  · exact .inr (.inl ⟨ts, ht, hq, by simp [step, hn]⟩)
  · cases hd : decode w with
    | ok i => exact .inr (.inr (.inl ⟨ts, w, ws, i, ht, hq, hd, by simp [step, hn, hd]⟩))
    | error e => exact .inr (.inr (.inr ⟨ts, w, ws, e, ht, hq, hd, by simp [step, hn, hd]⟩))

/-- The placed command is the next one executed. -/
theorem State.nextTurn_placeCommand (s : State) (w : Word) : (s.placeCommand w).nextTurn = .execute w s := by
  simp [State.placeCommand, State.nextTurn, State.takeCommand]

/-! ### A clock edge (20_memory.md R50, 70_reset_and_hazards.md R160) -/

/-- What an edge can do. -/
theorem clockEdge_cases (e : Edge) (s : State) :
    (e.rst = true ∧ clockEdge e s = .next s.pinReset) ∨
    (e.rst = false ∧ s.offerKept e = true ∧ clockEdge e s = .next ((s.commandPort e).outputPort e)) ∨
    (e.rst = false ∧ s.offerKept e = false ∧ clockEdge e s = .refused .handshakeBroken) := by
  cases hr : e.rst <;> cases hk : s.offerKept e <;> simp [clockEdge, hr, hk]

theorem clockEdge_not_fault (e : Edge) (s : State) (f : Fault) : clockEdge e s ≠ .fault f := by
  rcases clockEdge_cases e s with ⟨-, h⟩ | ⟨-, -, h⟩ | ⟨-, -, h⟩ <;> simp [h]

/-! ### Illegal words (30_encoding.md R72, R73) -/

/-- What a word that spells no command does: it always answers a next state. -/
theorem illegalWord_next (w : Word) (e : Illegal) (s : State) :
    illegalWord w e s = .next (match e with
      | .unknownOpcode => s.record (errResult (opcField w) .unknownOpcode)
      | .reservedBits op => (s.respondZeros op).record (errResult (opcField w) .reservedBits)) := by
  cases e <;> simp [illegalWord, finish]

/-! ### The meanings -/

/-- A command that is no read is its mode check and its body; a read is its mode check and its response. -/
theorem exec_shape (i : Instr) :
    (∃ body, ∀ s, exec i s = command i.opcode s body) ∨ (∃ response, ∀ s, exec i s = readCommand i.opcode s response) := by
  cases i
  case rdReg | rdFreq | rdNode | rdClen | rdCode =>
    refine .inr (Exists.intro ?_ fun s => ?_)
    rotate_left
    simp only [exec, execRdReg, execRdFreq, execRdNode, execRdClen, execRdCode, Instr.opcode]
    rfl
  all_goals
    refine .inl (Exists.intro ?_ fun s => ?_)
    rotate_left
    simp only [exec, execNop, execReset, execClrErr, execAbort, execMark, execFreqClr, execFreqAdd, execBuild, execDerive,
      execSer, execDesBegin, execDesByte, execDesEnd, execEncBegin, execEncSym, execEncEnd, execDecBegin, execDecByte,
      execDecEnd, Instr.opcode]
    rfl

/-- No command is refused. -/
theorem exec_not_refused (i : Instr) (s : State) (r : Refusal) : exec i s ≠ .refused r := by
  rcases exec_shape i with ⟨body, h⟩ | ⟨response, h⟩
  · rw [h]
    exact command_not_refused _ _ _ _
  · rw [h]
    rcases readCommand_cases i.opcode s response with ⟨ws, -, h'⟩ | ⟨c, h'⟩ <;> simp [h']

/-- A read always answers a next state. -/
theorem readCommand_next (op : Opcode) (s : State) (response : State → Except Cause (List Word)) :
    ∃ t, readCommand op s response = .next t := by
  rcases readCommand_cases op s response with ⟨ws, -, h⟩ | ⟨c, h⟩ <;> exact ⟨_, h⟩

end Sys2Proof.Machine
end

