-- ==== Sys2Proof/Laws/TreeBuilder.lean ====
section
/-!
SUPPORT. The tree builder: what extracting the least element does, and how the merge loop grows the node list.
-/

namespace Sys2Proof.Machine

theorem leastOf_mem (x : QueueEntry) (xs : List QueueEntry) : leastOf x xs ∈ x :: xs := by
  induction xs generalizing x with
  | nil => simp [leastOf]
  | cons y ys ih =>
    simp only [leastOf]
    rcases List.mem_cons.mp (ih (if y.precedes x then y else x)) with h | h
    · rw [h]
      split <;> simp
    · simp [h]

/-- Extracting takes one element out of the active set. -/
theorem extractLeast_cases (A : List QueueEntry) :
    (A = [] ∧ extractLeast A = none) ∨
    (∃ a rest, extractLeast A = some (a, rest) ∧ a ∈ A ∧ rest = A.erase a ∧ rest.length + 1 = A.length) := by
  cases A with
  | nil => exact .inl ⟨rfl, rfl⟩
  | cons x xs =>
    have hm := leastOf_mem x xs
    refine .inr ⟨leastOf x xs, (x :: xs).erase (leastOf x xs), rfl, hm, rfl, ?_⟩
    rw [List.length_erase_of_mem hm]
    simp

/-- A merge with at least two active elements makes one node and leaves one active element fewer. -/
theorem mergeOnce_of_two {m : Merger} (h : 2 ≤ m.active.length) :
    ∃ a b rest rest', extractLeast m.active = some (a, rest) ∧ extractLeast rest = some (b, rest') ∧
      mergeOnce m =
        ⟨m.nodes ++ [joinNode a b], rest' ++ [⟨BitVec.ofNat 9 m.nodes.length, a.freq + b.freq⟩]⟩ ∧
      rest'.length + 2 = m.active.length := by
  rcases extractLeast_cases m.active with ⟨h0, -⟩ | ⟨a, rest, ha, -, -, hl⟩
  · simp [h0] at h
  rcases extractLeast_cases rest with ⟨h0, -⟩ | ⟨b, rest', hb, -, -, hl'⟩
  · simp [h0] at hl
    omega
  exact ⟨a, b, rest, rest', ha, hb, by simp [mergeOnce, ha, hb], by omega⟩

/-- k merges of at least k + 1 active elements make k nodes. -/
theorem mergeTimes_lengths (k : Nat) (m : Merger) (h : k + 1 ≤ m.active.length) :
    (mergeTimes k m).nodes.length = m.nodes.length + k ∧ (mergeTimes k m).active.length = m.active.length - k := by
  induction k generalizing m with
  | zero => simp [mergeTimes]
  | succ k ih =>
    obtain ⟨a, b, rest, rest', ha, hb, hm, hl⟩ := mergeOnce_of_two (m := m) (by omega)
    have := ih (mergeOnce m) (by simp [hm]; omega)
    simp only [mergeTimes]
    rw [hm] at this ⊢
    simp only [List.length_append, List.length_cons, List.length_nil] at this
    omega

@[simp] theorem startMerge_nodes (leaves : List Node) : (startMerge leaves).nodes = leaves := rfl
@[simp] theorem startMerge_length (leaves : List Node) : (startMerge leaves).active.length = leaves.length := by
  simp [startMerge]

/-- A build of n leaves makes n − 1 internal nodes and leaves one active element, the root. -/
theorem mergeAll_lengths {leaves : List Node} (h : leaves ≠ []) :
    (mergeAll leaves).nodes.length = 2 * leaves.length - 1 ∧ (mergeAll leaves).active.length = 1 := by
  have hl : 0 < leaves.length := List.length_pos_of_ne_nil h
  have := mergeTimes_lengths (leaves.length - 1) (startMerge leaves) (by simp; omega)
  simp only [mergeAll, this, startMerge_nodes, startMerge_length]
  omega

/-- The nodes made before a merge stand as they were after it. -/
theorem mergeOnce_prefix (m : Merger) : m.nodes <+: (mergeOnce m).nodes := by
  unfold mergeOnce
  split
  · exact List.prefix_rfl
  · split
    · exact List.prefix_rfl
    · exact List.prefix_append _ _

theorem mergeTimes_prefix (k : Nat) (m : Merger) : m.nodes <+: (mergeTimes k m).nodes := by
  induction k generalizing m with
  | zero => exact List.prefix_rfl
  | succ k ih => exact (mergeOnce_prefix m).trans (ih _)

/-- A leaf entry is made for every symbol with a count. -/
theorem mem_leafNodes {freq : List (Nat × Word)} {x : Node} (h : x ∈ leafNodes freq) :
    ∃ n < Config.nsym, tableGet 0#32 freq n ≠ 0#32 ∧
      x = ⟨true, true, tableGet 0#32 freq n, BitVec.ofNat 8 n, Config.null, Config.null⟩ := by
  simp only [leafNodes, List.mem_filterMap, List.mem_range] at h
  obtain ⟨n, hn, h⟩ := h
  by_cases hf : tableGet 0#32 freq n = 0#32
  · simp [hf] at h
  · rw [if_neg hf] at h
    exact ⟨n, hn, hf, (Option.some.inj h).symm⟩

theorem length_leafNodes_le (freq : List (Nat × Word)) : (leafNodes freq).length ≤ Config.nsym := by
  unfold leafNodes
  exact (List.length_filterMap_le _ _).trans (by simp)

end Sys2Proof.Machine
end

