-- ==== Sys2Proof/Laws/TreeCodec.lean ====
section
/-!
SUPPORT. The scanner and the reconstruction: how a numeric run is taken in byte by byte, and what attaching one record can do.
-/

namespace Sys2Proof.Machine

/-! ### The scanner (43_tree_codec.md R104, R105) -/

@[simp] theorem scanFrom_nil (z : Scanner) : scanFrom z [] = z.finish := rfl

theorem scanFrom_cons (z : Scanner) (b : Byte) (bs : List Byte) :
    scanFrom z (b :: bs) = match z.byte b with
      | .error d => .error d
      | .ok z' => scanFrom z' bs := by
  simp only [scanFrom, Scanner.run]
  cases z.byte b <;> rfl

@[simp] theorem scanFrom_number_byte (st : ScanState) (run : List Byte) (R : List Record) {b : Byte} (hb : b ≠ chSP)
    (bs : List Byte) :
    scanFrom ⟨.number st run, R⟩ (b :: bs) = scanFrom ⟨.number st (run ++ [b]), R⟩ bs := by
  simp [scanFrom_cons, Scanner.byte, hb]

/-- A numeric run is collected whole before it is classified. -/
theorem scanFrom_number_run (st : ScanState) (pre run : List Byte) (R : List Record) (hr : chSP ∉ run) (bs : List Byte) :
    scanFrom ⟨.number st pre, R⟩ (run ++ bs) = scanFrom ⟨.number st (pre ++ run), R⟩ bs := by
  induction run generalizing pre with
  | nil => simp
  | cons b run ih =>
    have hb : b ≠ chSP := fun h => hr (by simp [h])
    rw [List.cons_append, scanFrom_number_byte st pre R hb, ih _ fun h => hr (by simp [h])]
    simp

/-- What a SP after a numeric run does. -/
theorem scanFrom_number_sp (st : ScanState) (run : List Byte) (R : List Record) (bs : List Byte) :
    scanFrom ⟨.number st run, R⟩ (chSP :: bs) = match classify run with
      | .error d => .error d
      | .ok t => match st.token t with
        | .next added st' => scanFrom ⟨.number st' [], R ++ added⟩ bs
        | .symbol f => scanFrom ⟨.symbol f, R⟩ bs := by
  rw [scanFrom_cons]
  simp only [Scanner.byte, if_pos]
  cases classify run with
  | error d => rfl
  | ok t => cases h : st.token t <;> simp [h]

/-! ### The reconstruction (43_tree_codec.md R106) -/

/-- What attaching one record can do: the three errors in their order, or one entry more, attached on the side of the front
of the queue. -/
theorem Rebuild.record_cases (z : Rebuild) (r : Record) :
    (z.queue = [] ∧ z.record r = .error .leftover) ∨
    (z.queue ≠ [] ∧ r.node? = none ∧ z.record r = .error .sentinelChild) ∨
    (z.queue ≠ [] ∧ r.node? ≠ none ∧ z.nodes.length = Config.nodeCap ∧ z.record r = .error .tooManyNodes) ∨
    (∃ h q x z', z.queue = h :: q ∧ r.node? = some x ∧ z.nodes.length ≠ Config.nodeCap ∧ z.record r = .ok z' ∧
      z'.nodes.length = z.nodes.length + 1 ∧
      z'.queue =
        (if z.side = .left then h :: q else q) ++ (if x.leaf then [] else [z.nodes.length]) ∧
      z'.side = if z.side = .left then .right else .left) := by
  obtain ⟨nodes, queue, side⟩ := z
  cases queue with
  | nil => exact .inl ⟨rfl, rfl⟩
  | cons h q =>
    cases hr : r.node? with
    | none => exact .inr (.inl ⟨by simp, rfl, by simp [Rebuild.record, hr]⟩)
    | some x =>
      by_cases hn : nodes.length = Config.nodeCap
      · exact .inr (.inr (.inl ⟨by simp, by simp, hn, by simp [Rebuild.record, hr, hn]⟩))
      · refine .inr (.inr (.inr ⟨h, q, x, _, rfl, rfl, hn, by simp [Rebuild.record, hr, hn]; rfl, ?_, ?_, ?_⟩))
        · simp
        · cases side <;> cases x.leaf <;> simp
        · cases side <;> simp

/-- Records are attached one list after the other. -/
theorem Rebuild.run_append (z : Rebuild) (rs rs' : List Record) :
    z.run (rs ++ rs') = match z.run rs with
      | .error d => .error d
      | .ok z' => z'.run rs' := by
  induction rs generalizing z with
  | nil => rfl
  | cons r rs ih =>
    simp only [List.cons_append, Rebuild.run]
    cases z.record r with
    | error d => rfl
    | ok z' => exact ih z'

end Sys2Proof.Machine
end

