-- ==== Sys2Proof/Machine/Assembler.lean ====
section
/-!
DEFINITION. The text of the HCC's assembly language (spec/30_encoding.md R75, R76; 10_state.md R35 for register names): a lexer,
a parser of one line, and the assembler of a program. What the two rules leave open in the text's form is log entry 12.
-/

namespace Sys2Proof.Machine

/-- The mnemonic column of 30_encoding.md R71. -/
def opcodeName : Opcode → String
  | .nop => "NOP"
  | .reset => "RESET"
  | .clrErr => "CLR_ERR"
  | .abort => "ABORT"
  | .mark => "MARK"
  | .freqClr => "FREQ_CLR"
  | .freqAdd => "FREQ_ADD"
  | .build => "BUILD"
  | .derive => "DERIVE"
  | .ser => "SER"
  | .desBegin => "DES_BEGIN"
  | .desByte => "DES_BYTE"
  | .desEnd => "DES_END"
  | .encBegin => "ENC_BEGIN"
  | .encSym => "ENC_SYM"
  | .encEnd => "ENC_END"
  | .decBegin => "DEC_BEGIN"
  | .decByte => "DEC_BYTE"
  | .decEnd => "DEC_END"
  | .rdReg => "RD_REG"
  | .rdFreq => "RD_FREQ"
  | .rdNode => "RD_NODE"
  | .rdClen => "RD_CLEN"
  | .rdCode => "RD_CODE"

/-- The register names in index order, 0x00 to 0x0E (10_state.md R35). -/
def registerNames : List String :=
  ["ID", "STATUS", "LAST", "ERR", "ROOT", "NODE_COUNT", "DISTINCT", "TOTAL", "PADDING", "ENC_BITS_LO", "ENC_BITS_HI",
   "DEC_SYMS", "DEC_PAD", "CONFIG", "SESS_ERR"]

/-! ### The lexer -/

/-- A token of a line. -/
inductive Token where
  | name (s : String)
  | number (v : Nat)
  | text (bytes : List Byte)
  | comma
  deriving DecidableEq, Repr

/-- The single quote, around a character literal (30_encoding.md R75). -/
def chQuote : Char := Char.ofNat 0x27

/-- The double quote, around a string (30_encoding.md R76). -/
def chString : Char := Char.ofNat 0x22

/-- The backslash, the first character of an escape (30_encoding.md R75, R76). -/
def chEscape : Char := Char.ofNat 0x5C

/-- The value of a digit in a base of at most 16. -/
def digitValue (base : Nat) (c : Char) : Option Nat :=
  let v :=
    if '0' ≤ c ∧ c ≤ '9' then c.toNat - '0'.toNat
    else if 'A' ≤ c ∧ c ≤ 'F' then c.toNat - 'A'.toNat + 10
    else if 'a' ≤ c ∧ c ≤ 'f' then c.toNat - 'a'.toNat + 10
    else base
  if v < base then some v else none

/-- The number a non-empty list of digits spells. -/
def numberIn (base : Nat) (acc : Nat) : List Char → Option Nat
  | [] => some acc
  | c :: cs =>
    match digitValue base c with
    | none => none
    | some d => numberIn base (base * acc + d) cs

/-- A word of letters, digits and underscores: a number if it begins with a digit, else a name (30_encoding.md R75). -/
def wordToken (cs : List Char) : Option Token :=
  match cs with
  | [] => none
  | '0' :: 'x' :: d :: ds => (numberIn 16 0 (d :: ds)).map .number
  | c :: ds => if c.isDigit then (numberIn 10 0 (c :: ds)).map .number else some (.name (String.ofList (c :: ds)))

/-- Where the lexer stands: between tokens; in a word; in a character literal (before its character, after a backslash,
before its closing quote); in a string (with its bytes so far, and after a backslash). -/
inductive LexState where
  | between
  | word (cs : List Char)
  | literal
  | literalEscape
  | literalEnd (v : Nat)
  | string (bytes : List Byte)
  | stringEscape (bytes : List Byte)
  deriving DecidableEq, Repr

/-- The byte an escape names: `\n` and `\\` everywhere, and the double quote in a string (30_encoding.md R75, R76). -/
def escapeByte (inString : Bool) (c : Char) : Option Byte :=
  if c = 'n' then some 0x0A#8
  else if c = chEscape then some 0x5C#8
  else if inString ∧ c = chString then some 0x22#8
  else none

/-- The ASCII byte of a character; none beyond ASCII (93_implementation_defined.md G4). -/
def asciiByte (c : Char) : Option Byte := if c.toNat < 128 then some (BitVec.ofNat 8 c.toNat) else none

/-- The tokens of a line; none where the line is not well written. A `;` outside a literal or a string begins the
comment (30_encoding.md R75). -/
def lex : LexState → List Char → Option (List Token)
  | .between, [] => some []
  | .word cs, [] => (wordToken cs).map fun t => [t]
  | _, [] => none
  | .literal, c :: rest =>
    if c = chEscape then lex .literalEscape rest
    else
      match asciiByte c with
      | none => none
      | some b => lex (.literalEnd b.toNat) rest
  | .literalEscape, c :: rest =>
    match escapeByte false c with
    | none => none
    | some b => lex (.literalEnd b.toNat) rest
  | .literalEnd v, c :: rest => if c = chQuote then (lex .between rest).map fun ts => .number v :: ts else none
  | .string bs, c :: rest =>
    if c = chString then (lex .between rest).map fun ts => .text bs :: ts
    else if c = chEscape then lex (.stringEscape bs) rest
    else
      match asciiByte c with
      | none => none
      | some b => lex (.string (bs ++ [b])) rest
  | .stringEscape bs, c :: rest =>
    match escapeByte true c with
    | none => none
    | some b => lex (.string (bs ++ [b])) rest
  | .word cs, c :: rest =>
    if c.isAlphanum ∨ c = '_' then lex (.word (cs ++ [c])) rest
    else
      match wordToken cs with
      | none => none
      | some t =>
        if c = ';' then some [t]
        else if c = ',' then (lex .between rest).map fun ts => t :: .comma :: ts
        else if c = ' ' ∨ c = '\t' then (lex .between rest).map fun ts => t :: ts
        else none
  | .between, c :: rest =>
    if c = ';' then some []
    else if c = ',' then (lex .between rest).map fun ts => .comma :: ts
    else if c = ' ' ∨ c = '\t' then lex .between rest
    else if c = chQuote then lex .literal rest
    else if c = chString then lex (.string []) rest
    else if c.isAlphanum ∨ c = '_' then lex (.word [c]) rest
    else none

/-! ### The parser of one line -/

/-- Operands separated by commas (30_encoding.md R75). -/
def operandsOf : List Token → Option (List Token)
  | [] => some []
  | .comma :: _ => none
  | [t] => some [t]
  | t :: .comma :: rest =>
    match operandsOf rest with
    | none => none
    | some [] => none
    | some ts => some (t :: ts)
  | _ :: _ :: _ => none

/-- The numbers of operands that are all numbers. -/
def numbersOf : List Token → Option (List Nat)
  | [] => some []
  | .number v :: ts => (numbersOf ts).map fun vs => v :: vs
  | .name _ :: _ | .text _ :: _ | .comma :: _ => none

/-- The bytes of operands that are all numbers of at most 255 (30_encoding.md R75: any other is refused). -/
def bytesOf (ts : List Token) : Option (List Byte) :=
  match numbersOf ts with
  | none => none
  | some vs => if vs.all (· < 256) then some (vs.map (BitVec.ofNat 8)) else none

/-- A pseudo-instruction from its name and operands (30_encoding.md R76). -/
def pseudoOf (name : String) (operands : List Token) : Option Pseudo :=
  match operands with
  | [] =>
    if name = "RD_STATUS" then some .rdStatus
    else if name = "RD_LAST" then some .rdLast
    else if name = "RD_ERR" then some .rdErr
    else if name = "RD_PADDING" then some .rdPadding
    else none
  | .text t :: rest =>
    if name = "DECOMPRESS" then
      match bytesOf rest with
      | some (pad :: bs) => some (.decompress t pad bs)
      | _ => none
    else if rest ≠ [] then none
    else if name = "COUNT_STR" then some (.countStr t)
    else if name = "ENC_STR" then some (.encStr t)
    else if name = "DES_STR" then some (.desStr t)
    else if name = "COMPRESS" then some (.compress t)
    else none
  | .number v :: rest =>
    match bytesOf (.number v :: rest) with
    | none => none
    | some bs =>
      if name = "DEC_BYTES" then some (.decBytes bs)
      else
        match bs with
        | [s] => if name = "COUNT" then some (.count s) else none
        | _ => none
  | .name _ :: _ | .comma :: _ => none

/-- A command's operands: numbers, or a register name for `RD_REG` (30_encoding.md R75). -/
def commandOperands (op : Opcode) (operands : List Token) : Option (List Nat) :=
  match op, operands with
  | .rdReg, [.name r] => registerNames.findIdx? (· == r) |>.map fun k => [k]
  | _, ts => numbersOf ts

/-- The lines that a source line stands for: one for a command or a `word`, the expansion of a pseudo-instruction, none for a
blank line (30_encoding.md R75, R76). -/
def sourceLine (tokens : List Token) : Option (List AsmLine) :=
  match tokens with
  | [] => some []
  | .name m :: rest =>
    match operandsOf rest with
    | none => none
    | some operands =>
      if m = "word" then
        match operands with
        | [.number v] => some [.word v]
        | _ => none
      else
        match Opcode.all.find? fun op => opcodeName op == m with
        | some op => (commandOperands op operands).map fun vs => [.command op vs]
        | none => (pseudoOf m operands).map fun p => p.expand.map Instr.line
  | .number _ :: _ | .text _ :: _ | .comma :: _ => none

/-- The command words of a list of lines; none where the assembler refuses one (30_encoding.md R75). -/
def assembleAll : List AsmLine → Option (List Word)
  | [] => some []
  | l :: ls =>
    match assemble l, assembleAll ls with
    | some w, some ws => some (w :: ws)
    | _, _ => none

/-- The command words of one line of text (30_encoding.md R75, R76). -/
def assembleText (line : String) : Option (List Word) :=
  match lex .between line.toList with
  | none => none
  | some ts =>
    match sourceLine ts with
    | none => none
    | some ls => assembleAll ls

/-- The command words of a program, one command a line (30_encoding.md R75; 70_reset_and_hazards.md R173). -/
def assembleProgram : List String → Option (List Word)
  | [] => some []
  | l :: ls =>
    match assembleText l, assembleProgram ls with
    | some ws, some ws' => some (ws ++ ws')
    | _, _ => none

end Sys2Proof.Machine
end

