-- ==== Sys2Proof/Tests/Slice0.lean ====
section
/-!
SUPPORT. Tests of one step each, expected values from spec/95_test_vectors.md (the vector is named) or written out from the
encoding rules; and for each statement with hypotheses a state and operands that meet them.
-/

namespace Sys2Proof.Tests

open Sys2Proof.Machine

/-! ### Small states -/

/-- The step or command ends in a next state with this property. -/
def ends (o : Host.Outcome State Fault Refusal) (p : State → Bool) : Bool :=
  match o with
  | .next t => p t
  | .fault _ => false
  | .refused _ => false

/-- The ASCII bytes of a text. -/
def bytes (t : String) : List Byte := t.toList.map fun c => BitVec.ofNat 8 c.toNat

/-- A leaf entry. -/
def leafE (f : Word) (s : Byte) : Node := ⟨true, true, f, s, 0x1FF#9, 0x1FF#9⟩

/-- An internal entry. -/
def innerE (f : Word) (l r : NodeIx) : Node := ⟨true, false, f, 0#8, l, r⟩

/-- The counts of "AAB". -/
def aabCounts : State := { State.reset with freq := [(0x41, 2#32), (0x42, 1#32)], total := 3#32, distinct := 2#9 }

/-- The tree of "AAB" (vector V-B11): 0:'A'/2 1:'B'/1 2:I3(1,0). -/
def aabTree : State :=
  { aabCounts with
    nodes := [(0, leafE 2#32 0x41#8), (1, leafE 1#32 0x42#8), (2, innerE 3#32 1#9 0#9)]
    root := 2#9, nodeCount := 3#10, treeValid := true }

/-- The codes of that tree by R90: 'B' = 0, 'A' = 1. -/
def aabCodes : State :=
  { aabTree with codes := [(0x41, CodeEntry.ofBits [true]), (0x42, CodeEntry.ofBits [false])], codesValid := true }

/-- An encoding session with those codes. -/
def aabEnc : State := { aabCodes with mode := .enc }

/-- A decoding session with that tree, one zero bit of padding. -/
def aabDec : State := { aabCodes with mode := .dec, ptr := 2#9, decPad := 1#3 }

/-- The counts of "AAAA". -/
def aaaaCounts : State := { State.reset with freq := [(0x41, 4#32)], total := 4#32, distinct := 1#9 }

/-- The tree of "AAAA" (vector V-B5), with its code (V-D4). -/
def aaaaCodes : State :=
  { aaaaCounts with
    nodes := [(0, leafE 4#32 0x41#8)], root := 0#9, nodeCount := 1#10, treeValid := true
    codes := [(0x41, CodeEntry.ofBits [false])], codesValid := true }

/-- The empty tree with the empty code table (vector V-D5). -/
def emptyCodes : State := { State.reset with treeValid := true, codesValid := true }

/-- A deserialization session holding some bytes. -/
def desWith (B : List Byte) : State := { State.reset with mode := .des, desBuf := B }

/-- The tree of "2 1 -1 -1 a 1 -1 -1 a" (vector V-D8): two leaves with one symbol. -/
def dupTree : State :=
  { State.reset with
    nodes := [(0, innerE 2#32 1#9 2#9), (1, leafE 1#32 0x61#8), (2, leafE 1#32 0x61#8)]
    root := 0#9, nodeCount := 3#10, treeValid := true }

/-- TOTAL is 2^32 − 1, all of it 'A' (the start state of vector V-F6). -/
def fullTotal : State := { State.reset with freq := [(0x41, 0xFFFFFFFF#32)], total := 0xFFFFFFFF#32, distinct := 1#9 }

/-- A decoding session of the empty tree with one byte pending (vector V-U12, before its second DEC_BYTE). -/
def emptyDec : State := { emptyCodes with mode := .dec, pend := some 0#8 }

/-- A failed decoding session (vector V-U12, after its second DEC_BYTE). -/
def failedDec : State :=
  { emptyCodes with mode := .dec, sessFailed := true, sessErr := 0x51030100#32, err := 0x20010000#32 }

/-! ### Well-formed lines (30_encoding.md R75): an ill-formed line for each check -/

theorem test_wf_byte : (AsmLine.command .desByte [255]).wellFormed = true ∧
    (AsmLine.command .desByte [256]).wellFormed = false := by decide
theorem test_wf_imm : (AsmLine.command .mark [0xFFFFFF]).wellFormed = true ∧
    (AsmLine.command .mark [0x1000000]).wellFormed = false := by decide
theorem test_wf_freq_add : (AsmLine.command .freqAdd [255, 65535]).wellFormed = true ∧
    (AsmLine.command .freqAdd [255, 65536]).wellFormed = false ∧
    (AsmLine.command .freqAdd [256, 0]).wellFormed = false := by decide
theorem test_wf_idx : (AsmLine.command .rdNode [511]).wellFormed = true ∧
    (AsmLine.command .rdNode [512]).wellFormed = false := by decide
theorem test_wf_code : (AsmLine.command .rdCode [255, 7]).wellFormed = true ∧
    (AsmLine.command .rdCode [255, 8]).wellFormed = false ∧ (AsmLine.command .rdCode [256, 0]).wellFormed = false := by decide
theorem test_wf_count : (AsmLine.command .nop []).wellFormed = true ∧ (AsmLine.command .nop [0]).wellFormed = false ∧
    (AsmLine.command .freqAdd [65]).wellFormed = false := by decide
theorem test_wf_word : (AsmLine.word 0xFFFFFFFF).wellFormed = true ∧ (AsmLine.word 0x100000000).wellFormed = false := by decide

/-! ### Decoding: one word for each command, written out from 30_encoding.md R64 to R71 -/

theorem test_decode_control :
    decode 0b00000000000000000000000000000000#32 = .ok .nop ∧
    decode 0b00000001000000000000000000000000#32 = .ok .reset ∧
    decode 0b00000010000000000000000000000000#32 = .ok .clrErr ∧
    decode 0b00000011000000000000000000000000#32 = .ok .abort ∧
    decode 0b00000100101010111100110111101111#32 = .ok (.mark 0xABCDEF#24) := by decide
theorem test_decode_frequency :
    decode 0b00010000000000000000000000000000#32 = .ok .freqClr ∧
    decode 0b00010001000100100011010001000001#32 = .ok (.freqAdd 0x41#8 4660#16) := by decide
theorem test_decode_tree :
    decode 0b00100000000000000000000000000000#32 = .ok .build ∧
    decode 0b00100001000000000000000000000000#32 = .ok .derive := by decide
theorem test_decode_codec :
    decode 0b00110000000000000000000000000000#32 = .ok .ser ∧
    decode 0b00110001000000000000000000000000#32 = .ok .desBegin ∧
    decode 0b00110010000000000000000000110100#32 = .ok (.desByte 0x34#8) ∧
    decode 0b00110011000000000000000000000000#32 = .ok .desEnd := by decide
theorem test_decode_encoder :
    decode 0b01000000000000000000000000000000#32 = .ok .encBegin ∧
    decode 0b01000001000000000000000001000010#32 = .ok (.encSym 0x42#8) ∧
    decode 0b01000010000000000000000000000000#32 = .ok .encEnd := by decide
theorem test_decode_decoder :
    decode 0b01010000000000000000000000000001#32 = .ok (.decBegin 1#8) ∧
    decode 0b01010001000000000000000001101110#32 = .ok (.decByte 0x6E#8) ∧
    decode 0b01010010000000000000000000000000#32 = .ok .decEnd := by decide
theorem test_decode_read :
    decode 0b01100000000000000000000000001000#32 = .ok (.rdReg 0x08#8) ∧
    decode 0b01100001000000000000000001000001#32 = .ok (.rdFreq 0x41#8) ∧
    decode 0b01100010000000000000000111111110#32 = .ok (.rdNode 510#9) ∧
    decode 0b01100011000000000000000001011010#32 = .ok (.rdClen 0x5A#8) ∧
    decode 0b01100100000000000000011101000011#32 = .ok (.rdCode 0x43#8 7#3) := by decide

/-! ### The assembler (30_encoding.md R75, R76) -/

theorem test_asm_command : assembleText "FREQ_ADD 'A', 4660 ; V-F1" = some [0x11123441#32] := by decide
theorem test_asm_register : assembleText "RD_REG PADDING" = some [0x60000008#32] := by decide
theorem test_asm_string : assembleText "ENC_STR \"A\\n\"" = some [0x41000041#32, 0x4100000A#32] := by decide
theorem test_asm_refuses : assembleText "RD_CODE 'C', 8" = none ∧ assembleText "DES_BYTE 256" = none := by decide

/-! ### One step -/

/-- Vector V-C1: NOP gives LAST 0. -/
theorem test_nop : ends (exec .nop aabCodes) (· = { aabCodes with last := 0#32 }) = true := by decide
/-- Vector V-C3 and R129: the state is the reset state but for LAST. -/
theorem test_reset : ends (exec .reset aabEnc) (· = { State.reset with last := 0x01000000#32 }) = true := by decide
/-- Vector V-C5: CLR_ERR clears ERR. -/
theorem test_clr_err : ends (exec .clrErr { aabCodes with err := 0x50040108#32 })
    (fun t => t.err = 0#32 ∧ t.last = 0x02000000#32 ∧ t.status = 0x0000000C#32) = true := by decide
/-- Vector V-E12: ABORT in ENC drops the partial byte and keeps ENC_BITS. -/
theorem test_abort : ends (exec .abort { aabEnc with acc := [true, true, false], encBits := 3#64 })
    (fun t => t.mode = .idle ∧ t.acc = [] ∧ t.encBits = 3#64 ∧ t.outq = [] ∧ t.last = 0x03000000#32) = true := by decide
/-- Vector V-C10: MARK 0xABCDEF. -/
theorem test_mark : ends (exec (.mark 0xABCDEF#24) State.reset)
    (fun t => t.outq = [⟨.mark, 0x00ABCDEF#32⟩] ∧ t.last = 0x04000000#32) = true := by decide
/-- Vector V-F5: FREQ_CLR keeps the tree and the codes. -/
theorem test_freq_clr : ends (exec .freqClr aabCodes)
    (fun t => t.total = 0#32 ∧ t.distinct = 0#9 ∧ t.freqAt 0x41#8 = 0#32 ∧ t.status = 0x0000000C#32 ∧ t.root = 2#9) = true := by
  decide
/-- Vector V-F1. -/
theorem test_freq_add : ends (exec (.freqAdd 0x41#8 4660#16) State.reset)
    (fun t => t.freqAt 0x41#8 = 4660#32 ∧ t.total = 4660#32 ∧ t.distinct = 1#9 ∧ t.last = 0x11000000#32) = true := by decide
/-- Vector V-F6: the total may not pass 2^32 − 1. -/
theorem test_freq_add_overflow : ends (exec (.freqAdd 0x42#8 1#16) fullTotal)
    (fun t => t.last = 0x11140042#32 ∧ t.err = 0x11140042#32 ∧ t.total = 0xFFFFFFFF#32 ∧ t.freqAt 0x42#8 = 0#32) = true := by
  decide
/-- Vector V-B11. -/
theorem test_build : ends (exec .build aabCounts)
    (fun t => t.root = 2#9 ∧ t.nodeCount = 3#10 ∧ t.nodes = aabTree.nodes ∧ t.last = 0x20000000#32) = true := by decide +kernel
/-- Vector V-B6: BUILD of nothing raises EMPTY_INPUT and leaves the empty tree. -/
theorem test_build_empty : ends (exec .build State.reset)
    (fun t => t.last = 0x20010000#32 ∧ t.root = 0x1FF#9 ∧ t.status = 0x00000014#32) = true := by decide +kernel
/-- R90 on the tree of V-B11: 'B' is its left child, 'A' its right. -/
theorem test_derive : ends (exec .derive aabTree)
    (fun t => (t.codeAt 0x42#8).code = [false] ∧ (t.codeAt 0x41#8).code = [true] ∧ (t.codeAt 0x43#8).valid = false ∧
      t.codesValid = true) = true := by decide +kernel
/-- Vector V-D8: DUP_SYMBOL. -/
theorem test_derive_dup : ends (exec .derive dupTree)
    (fun t => t.last = 0x21160061#32 ∧ t.codesValid = false ∧ t.codes = [] ∧ t.nodes = dupTree.nodes) = true := by
  decide +kernel
/-- Vector V-T2: `4 -1 -1 A`. -/
theorem test_ser : ends (exec .ser aaaaCodes)
    (fun t => t.outq = (bytes "4 -1 -1 A").map fun b => ⟨.tree, b.setWidth 32⟩) = true := by decide +kernel
/-- Vector V-T4: NO_TREE. -/
theorem test_ser_no_tree : ends (exec .ser State.reset) (fun t => t.last = 0x30120000#32 ∧ t.outq = []) = true := by decide
/-- Vector V-T12: DES_BEGIN drops the tree. -/
theorem test_des_begin : ends (exec .desBegin aabCodes)
    (fun t => t.status = 0x00000001#32 ∧ t.root = 0x1FF#9 ∧ t.nodes = [] ∧ t.codes = []) = true := by decide
/-- R109: DES_BYTE appends its byte. -/
theorem test_des_byte : ends (exec (.desByte 0x0A#8) (desWith [0x35#8]))
    (fun t => t.desBuf = [0x35#8, 0x0A#8] ∧ t.last = 0x32000000#32) = true := by decide
/-- The stream `9 1 -1 -1 a 1 -1 -1 b` of 95_test_vectors.md section 2.4 is accepted, root 0, three nodes. -/
theorem test_des_end : ends (exec .desEnd (desWith (bytes "9 1 -1 -1 a 1 -1 -1 b")))
    (fun t => t.nodes = [(0, innerE 9#32 1#9 2#9), (1, leafE 1#32 0x61#8), (2, leafE 1#32 0x62#8)] ∧ t.root = 0#9 ∧
      t.last = 0x33000000#32) = true := by decide +kernel
/-- The stream `4294967296 -1 -1 a` of 95_test_vectors.md section 2.4: FREQ_RANGE. -/
theorem test_des_end_range : ends (exec .desEnd (desWith (bytes "4294967296 -1 -1 a")))
    (fun t => t.last = 0x33020300#32 ∧ t.treeValid = false) = true := by decide +kernel
/-- Vector V-E6: a tree without codes. -/
theorem test_enc_begin : ends (exec .encBegin aabTree) (fun t => t.last = 0x40130000#32 ∧ t.mode = .idle) = true := by decide
/-- Vector V-E1: with 0110111 in ACC, the code 0 of 'A' completes the byte 0x6E. -/
theorem test_enc_sym : ends (exec (.encSym 0x42#8) { aabEnc with acc := [false, true, true, false, true, true, true] })
    (fun t => t.outq = [⟨.payload, 0x6E#32⟩] ∧ t.acc = [] ∧ t.encBits = 1#64) = true := by decide
/-- R116, the example: ACC = 1101110 gives PAYLOAD 0xDC and PADDING 1. -/
theorem test_enc_end : ends (exec .encEnd { aabEnc with acc := [true, true, false, true, true, true, false] })
    (fun t => t.outq = [⟨.payload, 0xDC#32⟩] ∧ t.padding = 1#3 ∧ t.mode = .idle) = true := by decide
/-- Vector V-U3. -/
theorem test_dec_begin : ends (exec (.decBegin 8#8) aabCodes)
    (fun t => t.last = 0x50040108#32 ∧ t.mode = .idle ∧ t.decPad = 0#3) = true := by decide
/-- Vectors V-U13 and V-U15: a byte of zero bits of a one-leaf tree, and a 1 bit that fails the session. -/
theorem test_dec_byte : ends (exec (.decByte 0#8) { aaaaCodes with mode := .dec, ptr := 0#9, pend := some 0x80#8 })
    (fun t => t.last = 0x51030200#32 ∧ t.sessErr = 0x51030200#32 ∧ t.sessFailed = true ∧ t.decSyms = 0#32) = true := by
  decide +kernel
/-- Vector V-U13: DEC_END of four zero bits. -/
theorem test_dec_end : ends (exec .decEnd { aaaaCodes with mode := .dec, ptr := 0#9, pend := some 0#8, decPad := 4#3 })
    (fun t => t.decSyms = 4#32 ∧ t.outq = List.replicate 4 ⟨.symbol, 0x41#32⟩ ∧ t.last = 0x52000000#32) = true := by
  decide +kernel
/-- Vector V-U12: DEC_END reports the stored error with its own opcode. -/
theorem test_dec_end_failed : ends (exec .decEnd failedDec)
    (fun t => t.last = 0x52030100#32 ∧ t.err = 0x20010000#32 ∧ t.sessErr = 0x51030100#32 ∧ t.mode = .idle) = true := by decide
/-- Vector V-R2. -/
theorem test_rd_reg : ends (exec (.rdReg 15#8) aabCodes)
    (fun t => t.outq = [⟨.resp, 0#32⟩] ∧ t.last = 0x6010030F#32 ∧ t.err = 0x6010030F#32) = true := by decide
/-- Vector V-R10: CONFIG. -/
theorem test_rd_reg_config : ends (exec (.rdReg 13#8) State.reset)
    (fun t => t.outq = [⟨.resp, 0x20FF01FF#32⟩]) = true := by decide
/-- R135. -/
theorem test_rd_freq : ends (exec (.rdFreq 0x41#8) aabDec) (fun t => t.outq = [⟨.resp, 2#32⟩]) = true := by decide
/-- R136: an internal entry with children 1 and 0 reads 1 << 31 | 1 << 18, and then its FREQ. -/
theorem test_rd_node : ends (exec (.rdNode 2#9) aabCodes)
    (fun t => t.outq = [⟨.resp, 0x80040000#32⟩, ⟨.resp, 3#32⟩]) = true := by decide
/-- Vector V-R4. -/
theorem test_rd_node_null : ends (exec (.rdNode 511#9) aabCodes)
    (fun t => t.outq = [⟨.resp, 0#32⟩, ⟨.resp, 0#32⟩] ∧ t.last = 0x621003FF#32) = true := by decide
/-- R137. -/
theorem test_rd_clen : ends (exec (.rdClen 0x41#8) aabCodes) (fun t => t.outq = [⟨.resp, 0x80000001#32⟩]) = true := by decide
/-- R138: the first bit of the code is the most significant bit of word 0. -/
theorem test_rd_code : ends (exec (.rdCode 0x41#8 0#3) aabCodes) (fun t => t.outq = [⟨.resp, 0x80000000#32⟩]) = true := by
  decide +kernel
/-- Vector V-X1: an unknown opcode. -/
theorem test_unknown_opcode : ends (step { State.reset with cmdq := [0xFF123456#32] })
    (fun t => t.last = 0xFF100100#32 ∧ t.outq = [] ∧ t.cmdq = []) = true := by decide
/-- Vector V-R8: reserved bits of a read. -/
theorem test_reserved_read : ends (step { State.reset with cmdq := [0x62000200#32] })
    (fun t => t.last = 0x62100200#32 ∧ t.outq = [⟨.resp, 0#32⟩, ⟨.resp, 0#32⟩]) = true := by decide
/-- Vector V-B9: BUILD in a deserialization session. -/
theorem test_sequence : ends (exec .build (desWith [])) (fun t => t.last = 0x20110001#32) = true := by decide
/-- The host's question: the row's command runs as the first one after reset. -/
theorem test_with_fetch_word : ends (step (State.reset.withFetchWord 32 0x04ABCDEF))
    (fun t => t.outq = [⟨.mark, 0x00ABCDEF#32⟩] ∧ t.cmdq = [] ∧ t.turns = []) = true := by decide

/-! ### For each statement with hypotheses, a state and operands that meet them -/

/-- The command or step ends in some next state. -/
abbrev GoesOn (o : Host.Outcome State Fault Refusal) : Prop := ends o (fun _ => true) = true

/-- `GoesOn` is what the statements' hypotheses `… = .next t` ask. -/
theorem goesOn_next {o : Host.Outcome State Fault Refusal} (h : GoesOn o) : ∃ t, o = .next t := by
  cases o with
  | next t => exact ⟨t, rfl⟩
  | fault f => cases h
  | refused r => cases h

/-- An edge with every level low. -/
def quiet : Edge := ⟨false, false, 0#32, false, false, false⟩

theorem test_witness_DecodeAndEncodeAgree : decode 0x11123441#32 = .ok (.freqAdd 0x41#8 4660#16) := by decide
theorem test_witness_WordSpellsByMaskAndMatch :
    0x620001FF#32 &&& Opcode.rdNode.mask = Opcode.rdNode.pattern ∧ 0x62000200#32 &&& Opcode.rdNode.mask ≠ Opcode.rdNode.pattern := by
  decide
theorem test_witness_AssemblerAgreesWithEncoder :
    Opcode.desByte.format = .B ∧ assemble (.command .desByte [255]) = some 0x320000FF#32 ∧
    assemble (.command .desByte [256]) = none ∧ assemble (.command .freqAdd [0, 65536]) = none ∧
    assemble (.command .freqAdd [256, 0]) = none ∧ assemble (.command .rdNode [512]) = none ∧
    assemble (.command .rdCode [0, 8]) = none ∧ assemble (.command .rdCode [256, 0]) = none ∧
    assemble (.command .mark [0x1000000]) = none := by decide
theorem test_witness_UnknownOpcodeIsIllegal :
    State.nextTurn { State.reset with cmdq := [0x05000000#32] } = .execute 0x05000000#32 State.reset ∧
    (∀ op : Opcode, op.byte ≠ opcField 0x05000000#32) ∧ ∀ op : Opcode, op.byte ≠ 0x65#8 := by
  refine ⟨by decide, fun op => ?_, fun op => ?_⟩ <;> cases op <;> decide
theorem test_witness_ReservedBitsAreIllegal :
    State.nextTurn { State.reset with cmdq := [0x00000001#32] } = .execute 0x00000001#32 State.reset ∧
    opcField 0x00000001#32 = Opcode.nop.byte ∧ (0x00000001#32).getLsbD 0 = true ∧
    opcField 0x60000108#32 = Opcode.rdReg.byte ∧ (0x60000108#32).getLsbD 8 = true ∧
    opcField 0x62000200#32 = Opcode.rdNode.byte ∧ (0x62000200#32).getLsbD 9 = true ∧
    opcField 0x64800000#32 = Opcode.rdCode.byte ∧ (0x64800000#32).getLsbD 23 = true := by decide
theorem test_witness_StepRunsTheDecodedCommand :
    ({ State.reset with cmdq := [0#32] } : State).cmdq = [0#32] ∧ decode 0#32 = .ok .nop ∧ State.reset.turns = [] ∧
    ({ State.reset with cmdq := [0#32], turns := [.run, .run] } : State).turns = .run :: [.run] ∧ State.reset.cmdq = [] ∧
    ({ State.reset with turns := [.run] } : State).turns = .run :: [] := by decide
theorem test_witness_CommandsLeaveTheStreamAlone : GoesOn (exec .ser aaaaCodes) := by decide +kernel
theorem test_witness_OutputSequenceOnlyGrows :
    GoesOn (step { aaaaCodes with cmdq := [0x04000001#32] }) ∧
    GoesOn (step { aaaaCodes with turns := [.edge { quiet with rst := true }] }) := by decide
theorem test_witness_PinResetGivesResetState :
    ({ aabEnc with turns := [.edge { quiet with rst := true }, .run] } : State).turns =
      .edge { quiet with rst := true } :: [.run] ∧ ({ quiet with rst := true } : Edge).rst = true := by decide
/-- A word offered before and kept, and a front word offered: taken by the host or held. -/
theorem test_witness_EdgeTransfersNeedValidAndReady :
    quiet.rst = false ∧ State.reset.cmdOffer = none ∧
    ({ State.reset with cmdOffer := some 7#32 } : State).cmdOffer = some 7#32 ∧
    ({ quiet with cmdValid := true, cmdData := 7#32 } : Edge).cmdValid = true ∧
    ({ quiet with cmdValid := true, cmdData := 7#32 } : Edge).cmdData = 7#32 ∧
    ({ State.reset with outq := [⟨.mark, 1#32⟩] } : State).outq = ⟨.mark, 1#32⟩ :: [] ∧
    (({ quiet with outValid := true } : Edge).outValid || State.reset.outHeld) = true ∧
    State.reset.outq = [] ∧ (quiet.outValid || State.reset.outHeld) = false := by decide
theorem test_witness_OnlyBrokenHandshakesAreRefused :
    step { State.reset with cmdOffer := some 7#32, turns := [.edge quiet] } = .refused .handshakeBroken := by rfl
theorem test_witness_EveryCommandRecordsItsResult :
    GoesOn (exec (.desByte 0#8) State.reset) ∧ GoesOn (illegalWord 0x05000000#32 .unknownOpcode State.reset) := by decide
/-- One mode for each kind of "no" row, a "yes" row, and DEC_END of a failed session. -/
theorem test_witness_ModesAdmitCommands :
    (aabEnc.mode ≠ .idle ∧ Opcode.build ∈ [Opcode.freqClr, .freqAdd, .build, .derive, .ser, .desBegin, .encBegin, .decBegin]) ∧
    (aabEnc.mode ≠ .des ∧ Opcode.desEnd ∈ [Opcode.desByte, .desEnd]) ∧
    (aabDec.mode ≠ .enc ∧ Opcode.encEnd ∈ [Opcode.encSym, .encEnd]) ∧
    (aabEnc.mode ≠ .dec ∧ Opcode.decEnd ∈ [Opcode.decByte, .decEnd]) ∧
    ((desWith []).mode = .des ∧ Instr.opcode (.rdNode 0#9) = .rdNode) ∧
    (State.reset.sessFailed = false ∧ GoesOn (exec .freqClr State.reset)) ∧
    (failedDec.sessFailed = true ∧ codeOf failedDec.sessErr ≠ 0x11#8 ∧ GoesOn (exec .decEnd failedDec)) := by decide

/-- The node table of `aabTree` is a tree of three nodes. -/
theorem aabTree_ok : TreeOk aabTree.nodes aabTree.root 3 where
  bound := by decide
  used := by decide
  unused := fun n hn => tableGet_of_gt_all n hn
  empty := by decide
  rootIn := by decide
  internal := by decide
  leaf := by decide
  oneParent := by decide
  parented := by decide
  ordered := by decide
where
  tableGet_of_gt_all (n : Nat) (hn : 3 ≤ n) : tableGet Node.cleared aabTree.nodes n = Node.cleared := by
    have h0 : ¬0 = n := by omega
    have h1 : ¬1 = n := by omega
    have h2 : ¬2 = n := by omega
    simp [tableGet, aabTree, h0, h1, h2]

/-- The tree of "ABCC" (vector V-B3), in a decoding session whose one byte has one data bit, 1. -/
def abccDec : State :=
  { State.reset with
    nodes := [(0, leafE 1#32 0x41#8), (1, leafE 1#32 0x42#8), (2, leafE 2#32 0x43#8), (3, innerE 2#32 0#9 1#9),
      (4, innerE 4#32 2#9 3#9)]
    root := 4#9, nodeCount := 5#10, treeValid := true
    mode := .dec, ptr := 4#9, pend := some 0x80#8, decPad := 7#3 }

theorem abccDec_ok : TreeOk abccDec.nodes abccDec.root 5 where
  bound := by decide
  used := by decide
  unused := fun n hn => by
    have h0 : ¬0 = n := by omega
    have h1 : ¬1 = n := by omega
    have h2 : ¬2 = n := by omega
    have h3 : ¬3 = n := by omega
    have h4 : ¬4 = n := by omega
    simp [tableGet, abccDec, h0, h1, h2, h3, h4]
  empty := by decide
  rootIn := by decide
  internal := by decide
  leaf := by decide
  oneParent := by decide
  parented := by decide
  ordered := by decide

/-- The node table of `dupTree` is a tree of three nodes. -/
theorem dupTree_ok : TreeOk dupTree.nodes dupTree.root 3 where
  bound := by decide
  used := by decide
  unused := fun n hn => by
    have h0 : ¬0 = n := by omega
    have h1 : ¬1 = n := by omega
    have h2 : ¬2 = n := by omega
    simp [tableGet, dupTree, h0, h1, h2]
  empty := by decide
  rootIn := by decide
  internal := by decide
  leaf := by decide
  oneParent := by decide
  parented := by decide
  ordered := by decide

theorem aabCodes_tree : InvTree aabCodes := aabTree_ok
theorem aabCodes_codes : InvCodes aabCodes := by
  refine ⟨rfl, ?_⟩
  decide +kernel
theorem aabCodes_counts : InvCounts aabCodes := by unfold InvCounts; decide +kernel
theorem aabCounts_counts : InvCounts aabCounts := aabCodes_counts
theorem aabCounts_table : InvFreqTable aabCounts := by unfold InvFreqTable; decide
theorem aabDec_session : InvSession aabDec := by
  refine ⟨rfl, rfl, rfl, .inl rfl, rfl⟩

theorem test_witness_NoCommandIsFatal : InvTree aabCodes ∧ InvSession aabCodes :=
  ⟨aabCodes_tree, rfl, rfl, rfl, rfl⟩
theorem test_witness_StepKeepsResultsLegal :
    InvResults failedDec ∧ GoesOn (step { failedDec with cmdq := [0x52000000#32] }) := by
  simp only [InvResults, LegalResult]
  decide
theorem test_witness_CommandsNeedTheirTable :
    State.reset.mode = .idle ∧ State.reset.treeValid = false ∧ State.reset.codesValid = false ∧
    Instr.derive = .derive ∧ Instr.ser = .ser ∧ ∃ pad, Instr.decBegin 255#8 = .decBegin pad :=
  ⟨rfl, rfl, rfl, rfl, rfl, 255#8, rfl⟩
theorem test_witness_StepKeepsTables :
    InvTables aabTree ∧ GoesOn (step { aabTree with cmdq := [0x21000000#32] }) := by
  refine ⟨⟨by decide, by decide, by decide⟩, by decide +kernel⟩
theorem test_witness_StepKeepsCounts :
    InvFreqTable aabCodes ∧ InvCounts aabCodes ∧ GoesOn (step { aabCodes with cmdq := [0x11000141#32] }) :=
  ⟨aabCounts_table, aabCodes_counts, by decide⟩
theorem test_witness_StepKeepsTree : InvTree aabCodes ∧ GoesOn (step { aabCodes with cmdq := [0x20000000#32] }) :=
  ⟨aabCodes_tree, by decide +kernel⟩
theorem test_witness_StepKeepsCodes :
    InvSession aabCodes ∧ InvCodes aabCodes ∧ GoesOn (step { aabCodes with cmdq := [0x21000000#32] }) :=
  ⟨⟨rfl, rfl, rfl, rfl⟩, aabCodes_codes, by decide +kernel⟩
theorem test_witness_StepKeepsSession :
    InvTree aabDec ∧ InvSession aabDec ∧ aabDec.mode = .dec ∧ GoesOn (step { aabDec with cmdq := [0x5100006E#32] }) ∧
    InvPorts { State.reset with outq := [⟨.mark, 1#32⟩], outHeld := true } ∧
    GoesOn (step { State.reset with outq := [⟨.mark, 1#32⟩], outHeld := true, turns := [.edge quiet] }) :=
  ⟨aabTree_ok, aabDec_session, rfl, by decide, by simp [InvPorts], by decide⟩
/-- A session whose `PTR` is an internal node and not the root. -/
theorem test_witness_ptr_inside : InvSession { abccDec with ptr := 3#9 } :=
  ⟨rfl, rfl, rfl, .inr ⟨by decide, by decide⟩, rfl⟩
theorem test_witness_TreeReachesEveryEntry :
    TreeOk aabTree.nodes aabTree.root 3 ∧ (0#9).toNat < 3 ∧ PathTo aabTree.nodes aabTree.root 0#9 [true] :=
  ⟨aabTree_ok, by decide, PathTo.right PathTo.root (by decide)⟩
theorem test_witness_AbortClosesTheSession :
    State.reset.mode = .idle ∧ (desWith [0#8]).mode = .des ∧ aabEnc.mode = .enc ∧ aabDec.mode = .dec := by decide
theorem test_witness_FreqClrEmptiesTheTable :
    aabCodes.mode = .idle ∧ State.reset.mode = .idle ∧ InvFreqTable State.reset ∧ InvCounts State.reset ∧
    (∀ sym, State.reset.freqAt sym = 0#32) ∧
    aabEnc.mode ≠ .idle := ⟨rfl, rfl, by unfold InvFreqTable; decide, by unfold InvCounts; decide +kernel, fun _ => rfl, by decide⟩
/-- The last increment that fits, of a symbol counted before and of a new one. -/
theorem test_witness_FreqAddCounts :
    let s := { State.reset with freq := [(0x41, 0xFFFFFFFE#32)], total := 0xFFFFFFFE#32, distinct := 1#9 }
    s.mode = .idle ∧ InvFreqTable s ∧ InvCounts s ∧ s.total.toNat + (1#16).toNat ≤ 4294967295 ∧ (1#16 ≠ 0#16 ∧ s.freqAt 0x42#8 = 0#32) ∧
    (0x42#8 : Byte) ≠ 0x41#8 :=
  ⟨rfl, by unfold InvFreqTable; decide, by unfold InvCounts; decide +kernel, by decide, by decide, by decide⟩
theorem test_witness_FreqAddRefusesOverflow :
    fullTotal.mode = .idle ∧ 4294967295 < fullTotal.total.toNat + (1#16).toNat := by decide
theorem test_witness_FreqAddsCommute :
    aabCounts.mode = .idle ∧ InvFreqTable aabCounts ∧ InvCounts aabCounts ∧
    aabCounts.total.toNat + (1#16).toNat + (2#16).toNat ≤ 4294967295 ∧
    ends (exec (.freqAdd 0x41#8 1#16) aabCounts) (fun t => ends (exec (.freqAdd 0x42#8 2#16) t) (fun _ => true)) = true ∧
    ends (exec (.freqAdd 0x42#8 2#16) aabCounts) (fun t => ends (exec (.freqAdd 0x41#8 1#16) t) (fun _ => true)) = true :=
  ⟨rfl, aabCounts_table, aabCounts_counts, by decide, by decide, by decide⟩
theorem test_witness_BuildOfNothingIsTheEmptyTree :
    State.reset.mode = .idle ∧ ∀ sym, State.reset.freqAt sym = 0#32 := ⟨rfl, fun _ => rfl⟩
theorem test_witness_BuildPlacesLeavesThenInternalNodes :
    aaaaCounts.mode = .idle ∧ freqCount aaaaCounts.freq = 1 ∧ (presentSymbols aaaaCounts.freq)[0]? = some 0x41 ∧
    aabCounts.mode = .idle ∧ freqCount aabCounts.freq = 2 ∧ (presentSymbols aabCounts.freq)[1]? = some 0x42 := by decide +kernel
theorem test_witness_BuildMergesTheTwoLeast :
    aabCounts.mode = .idle ∧ freqCount aabCounts.freq = 2 ∧ 0 + 1 < 2 ∧ GoesOn (exec .build aabCounts) ∧
    ActiveAt aabTree.nodes 2 0 0 ∧ ActiveAt aabTree.nodes 2 0 1 := by
  refine ⟨rfl, by decide +kernel, by decide, by decide +kernel, ⟨by decide, by simp⟩, by decide, by simp⟩
theorem test_witness_BuildSumsFrequencies :
    aabCounts.mode = .idle ∧ InvCounts aabCounts ∧ freqCount aabCounts.freq ≠ 0 ∧ GoesOn (exec .build aabCounts) :=
  ⟨rfl, aabCounts_counts, by decide +kernel, by decide +kernel⟩
theorem test_witness_BuildIsAFunctionOfTheCounts :
    aabCounts.mode = .idle ∧ aabCodes.mode = .idle ∧ (∀ sym, aabCounts.freqAt sym = aabCodes.freqAt sym) ∧
    GoesOn (exec .build aabCounts) ∧ GoesOn (exec .build aabCodes) :=
  ⟨rfl, rfl, fun _ => rfl, by decide +kernel, by decide +kernel⟩

/-- The nodes of the tree of "AAB" that a path from the root reaches. -/
theorem aab_reached {i : NodeIx} {p : Bits} (h : PathTo aabTree.nodes aabTree.root i p) : i = 2#9 ∨ i = 1#9 ∨ i = 0#9 := by
  induction h with
  | root => exact .inl rfl
  | left _ hl ih => rcases ih with rfl | rfl | rfl <;> revert hl <;> decide
  | right _ hl ih => rcases ih with rfl | rfl | rfl <;> revert hl <;> decide

theorem aab_distinct : DistinctSymbols aabTree.nodes aabTree.root := by
  rintro i j p q x hi hj ⟨hli, rfl⟩ ⟨hlj, hs⟩
  rcases aab_reached hi with rfl | rfl | rfl <;> rcases aab_reached hj with rfl | rfl | rfl <;> revert hli hlj hs <;> decide

theorem test_witness_DeriveGivesEachLeafItsPath :
    aabTree.mode = .idle ∧ aabTree.treeValid = true ∧ InvTree aabTree ∧ DistinctSymbols aabTree.nodes aabTree.root ∧
    PathTo aabTree.nodes aabTree.root 1#9 [false] ∧ LeafOf aabTree.nodes 1#9 0x42#8 :=
  ⟨rfl, rfl, aabTree_ok, aab_distinct, PathTo.left PathTo.root (by decide), by unfold LeafOf; decide⟩
/-- The one-leaf tree: the path is empty and the code is `0`. -/
theorem test_witness_one_leaf_path :
    PathTo aaaaCodes.nodes aaaaCodes.root 0#9 [] ∧ LeafOf aaaaCodes.nodes 0#9 0x41#8 ∧ pathCode [] = [false] :=
  ⟨PathTo.root, by unfold LeafOf; decide, rfl⟩
theorem test_witness_DeriveRefusesDuplicateSymbols :
    dupTree.mode = .idle ∧ dupTree.treeValid = true ∧ InvTree dupTree ∧ ¬DistinctSymbols dupTree.nodes dupTree.root := by
  refine ⟨rfl, rfl, dupTree_ok, fun h => ?_⟩
  have := h 1#9 2#9 [false] [true] 0x61#8 (PathTo.left PathTo.root (by decide)) (PathTo.right PathTo.root (by decide))
    (by unfold LeafOf; decide) (by unfold LeafOf; decide)
  exact absurd this (by decide)
/-- The second leaf of 'a' in that tree is the right one, and it comes after the left one. -/
theorem test_witness_second_leaf :
    SecondLeafOf dupTree.nodes dupTree.root 2#9 [true] 0x61#8 ∧ WalkedBefore [false] [true] := by
  have hb : WalkedBefore [false] [true] := ⟨[], [], [], rfl, rfl⟩
  exact ⟨⟨PathTo.right PathTo.root (by decide), by unfold LeafOf; decide, 1#9, [false], by decide,
    PathTo.left PathTo.root (by decide), by unfold LeafOf; decide, hb⟩, hb⟩
theorem test_witness_CodesArePrefixFree :
    InvTree aabCodes ∧ InvCodes aabCodes ∧ aabCodes.codesValid = true ∧ (aabCodes.codeAt 0x41#8).valid = true ∧
    (aabCodes.codeAt 0x42#8).valid = true ∧ (0x41#8 : Byte) ≠ 0x42#8 :=
  ⟨aabCodes_tree, aabCodes_codes, rfl, by decide, by decide, by decide⟩
theorem test_witness_SerEmitsTheTree :
    aabTree.mode = .idle ∧ aabTree.treeValid = true ∧ InvTree aabTree ∧ emptyCodes.root = 0x1FF#9 :=
  ⟨rfl, rfl, aabTree_ok, rfl⟩
theorem test_witness_ScanOfJoinedRecords :
    Record.sentinel ∉ [Record.internal 0#32, .leaf 0xFFFFFFFF#32 0x5C#8, .leaf 1#32 0x20#8] := by decide
theorem test_witness_DeserializeOfSerialize : TreeOk aabTree.nodes aabTree.root 3 ∧ 3 ≠ 0 := ⟨aabTree_ok, by decide⟩
theorem test_witness_SerializeOfDeserialize :
    let B := bytes "3 1 -1 -1 B 2 -1 -1 A"
    let R : List Record := [.internal 3#32, .leaf 1#32 0x42#8, .leaf 2#32 0x41#8]
    let nodes := [innerE 3#32 1#9 2#9, leafE 1#32 0x42#8, leafE 2#32 0x41#8]
    scan B = .ok R ∧ rebuild R = .ok nodes ∧ nodes ≠ [] ∧ ¬LeadingZero B := by
  refine ⟨by rfl, by rfl, by decide, ?_⟩
  rintro ⟨i, b, h, -⟩
  exact absurd (List.mem_of_getElem? h) (by decide)
theorem test_witness_DeserializationSessionCollectsBytes :
    aabCodes.mode = .idle ∧ (desWith [0x35#8]).mode = .des := by decide
theorem test_witness_DesEndReconstructs :
    (desWith (bytes "4 -1 -1 A")).mode = .des ∧
    deserialize (desWith (bytes "4 -1 -1 A")).desBuf = .ok [leafE 4#32 0x41#8] ∧
    deserialize (desWith []).desBuf = .ok [] ∧ deserialize (desWith (bytes "5")).desBuf = .error .missingChild :=
  ⟨rfl, by rfl, by rfl, by rfl⟩
/-- A run for each row of R103, the boundary of FREQ_RANGE among them. -/
theorem test_witness_classify :
    classify [0x35#8, 0x0A#8] = .error .rawNewline ∧ classify [] = .error .badSeparator ∧ classify (bytes "-1") = .ok .sent ∧
    classify (bytes "4294967295") = .ok (.num 0xFFFFFFFF#32) ∧ classify (bytes "4294967296") = .error .freqRange ∧
    classify (bytes "+5") = .error .badToken ∧ chSP ∉ bytes "4294967295" ∧ chSP ∉ bytes "-1" ∧ chSP ∉ bytes "+5" := by
  decide +kernel
/-- R107: `5  6` has a scanner error and would miss a child too. -/
theorem test_witness_scanner_first :
    scan (bytes "5  6") = .error .badSeparator ∧ scan (bytes "5") = .ok [.internal 5#32] := by decide +kernel
/-- The symbol phase: a symbol that is no escape, one that is `\` before a SP, and the byte after a symbol. -/
theorem test_witness_symbol_phase :
    (0x41#8 : Byte) ≠ 0x0A#8 ∧ ¬((0x41#8 : Byte) = 0x5C#8 ∧ [0x6E#8].head? = some 0x6E#8) ∧
    ¬((0x5C#8 : Byte) = 0x5C#8 ∧ [0x20#8].head? = some 0x6E#8) ∧ (0x6E#8 : Byte) ≠ 0x20#8 := by decide
/-- Records for each case of R106: complete, open, and open at the capacity of 511. -/
theorem test_witness_rebuild_defects :
    (¬LeavesOpen [.internal 2#32, .leaf 1#32 0x61#8, .leaf 1#32 0x62#8] ∧
      ∀ n, 0 < n → n < 3 → LeavesOpen ([Record.internal 2#32, .leaf 1#32 0x61#8, .leaf 1#32 0x62#8].take n)) ∧
    (LeavesOpen [.internal 2#32, .leaf 1#32 0x61#8] ∧
      ∀ n, 0 < n → n < 2 → LeavesOpen ([Record.internal 2#32, .leaf 1#32 0x61#8].take n)) ∧
    ((List.replicate 511 (Record.internal 0#32)).length = 511 ∧ .sentinel ∉ List.replicate 511 (Record.internal 0#32) ∧
      LeavesOpen (List.replicate 511 (.internal 0#32)) ∧
      ∀ n, 0 < n → n < 511 → LeavesOpen ((List.replicate 511 (Record.internal 0#32)).take n)) := by
  have hopen : ∀ n, LeavesOpen (List.replicate n (.internal 0#32)) := fun n => by
    simp only [LeavesOpen, List.filter_replicate, if_pos, List.length_replicate]
    omega
  refine ⟨⟨by unfold LeavesOpen; decide, fun n h0 hn => ?_⟩, ⟨by unfold LeavesOpen; decide, fun n h0 hn => ?_⟩,
    List.length_replicate, fun h => Record.noConfusion (List.eq_of_mem_replicate h), hopen 511, fun n _ _ => ?_⟩
  · obtain rfl | rfl : n = 1 ∨ n = 2 := by omega
    all_goals unfold LeavesOpen; decide
  · obtain rfl : n = 1 := by omega
    unfold LeavesOpen
    decide
  · rw [List.take_replicate]
    exact hopen _
theorem test_witness_EncBeginOpensTheSession : aabCodes.mode = .idle ∧ aabCodes.codesValid = true := by decide
theorem test_witness_EncSymPacksTheCode :
    aabEnc.mode = .enc ∧ (aabEnc.codeAt 0x41#8).valid = true ∧ (aabEnc.codeAt 0x5A#8).valid = false := by decide
theorem test_witness_EncEndPadsTheLastByte :
    aabEnc.mode = .enc ∧ InvSession aabEnc ∧
    InvSession { aabEnc with acc := List.replicate 7 true, encBits := 15#64 } := by
  refine ⟨rfl, ⟨rfl, rfl, rfl, rfl, rfl, by decide, by decide⟩, rfl, rfl, rfl, rfl, rfl, by decide, by decide⟩
theorem test_witness_PackingLaw : aabEnc.acc = [] := rfl
theorem test_witness_ByteOrderIsMsbFirst :
    [true, false, true, true, false, false, false, true].length = 8 ∧
    byteOf [true, false, true, true, false, false, false, true] = 0xB1#8 := by decide
theorem test_witness_DecBeginOpensTheSession :
    aabEnc.mode ≠ .idle ∧ State.reset.mode = .idle ∧ State.reset.treeValid = false ∧ aabCodes.mode = .idle ∧
    aabCodes.treeValid = true ∧ (7#8).toNat ≤ 7 ∧ 7 < (8#8).toNat := by decide
theorem test_witness_DecByteStepsThePendingByte :
    aabDec.mode = .dec ∧ aabDec.sessFailed = false ∧ aabDec.pend = none ∧ InvTree { aabDec with pend := some 0x5A#8 } ∧
    InvSession { aabDec with pend := some 0x5A#8 } ∧ aabDec.root ≠ 0x1FF#9 ∧ (nodeIn aabDec.nodes aabDec.root).leaf = false ∧
    (∃ u, State.bitSteps { aabDec with pend := some 0#8 } (expand 0x5A#8) = .ok u) ∧
    emptyDec.mode = .dec ∧ emptyDec.sessFailed = false ∧ emptyDec.pend = some 0#8 ∧
    ∃ c u, State.bitSteps { emptyDec with pend := some 1#8 } (expand 0#8) = .raised c u :=
  ⟨rfl, rfl, rfl, aabTree_ok, ⟨rfl, rfl, rfl, .inl rfl, rfl⟩, by decide, by decide, ⟨_, rfl⟩, rfl, rfl, rfl, _, _, rfl⟩
/-- The hypotheses of the tree clause, with the bits ending at the root (every code of "AAB" is one bit) and off it (the tree
of "ABCC", vector V-B3, after the bit 1). -/
theorem test_witness_DecEndExpandsTheLastByte :
    aabDec.mode = .dec ∧ aabDec.sessFailed = false ∧ aabDec.pend = none ∧ aabDec.decPad ≠ 0#3 ∧ aabDec.ptr = aabDec.root ∧
    ({ aabDec with decPad := 0#3 } : State).decPad = 0#3 ∧ InvTree { aabDec with pend := some 0x5A#8 } ∧
    InvSession { aabDec with pend := some 0x5A#8 } ∧ aabDec.root ≠ 0x1FF#9 ∧ (nodeIn aabDec.nodes aabDec.root).leaf = false ∧
    (∃ u, State.bitSteps { aabDec with mode := .idle, pend := none } ((expand 0x5A#8).take 7) = .ok u ∧ u.ptr = u.root) :=
  ⟨rfl, rfl, rfl, by decide, rfl, rfl, aabTree_ok, ⟨rfl, rfl, rfl, .inl rfl, rfl⟩, by decide, by decide, _, rfl, rfl⟩
/-- The clauses of the empty tree and of a one-leaf tree, with no 1 bit and with one at position 3 (vector V-U14). -/
theorem test_witness_one_leaf_session :
    emptyDec.mode = .dec ∧ emptyDec.sessFailed = false ∧ emptyDec.pend = some 0#8 ∧ emptyDec.root = 0x1FF#9 ∧
    aaaaCodes.root ≠ 0x1FF#9 ∧ (nodeIn aaaaCodes.nodes aaaaCodes.root).leaf = true ∧ aaaaCodes.sessFailed = false ∧
    ({ aaaaCodes with mode := .dec, ptr := 0#9, pend := some 0x10#8 } : State).ptr = aaaaCodes.root ∧
    (∀ j < 3, (0x10#8).getLsbD (7 - j) = false) ∧ (0x10#8).getLsbD (7 - 3) = true ∧
    ∀ j < 8, (0#8).getLsbD (7 - j) = false := by decide
/-- The clauses of an error in the last byte, and of `PTR` off the root with no byte and no padding. -/
theorem test_witness_DecEnd_raised :
    emptyDec.mode = .dec ∧ emptyDec.sessFailed = false ∧ emptyDec.pend = some 0#8 ∧
    (∃ c u, State.bitSteps { emptyDec with mode := .idle, pend := none } ((expand 0#8).take 8) = .raised c u) ∧
    ({ abccDec with ptr := 3#9, pend := none, decPad := 0#3 } : State).ptr ≠ abccDec.root :=
  ⟨rfl, rfl, rfl, ⟨_, _, rfl⟩, by decide⟩
theorem test_witness_DecEnd_mid_code :
    abccDec.mode = .dec ∧ abccDec.sessFailed = false ∧ abccDec.pend = some 0x80#8 ∧ InvTree abccDec ∧ InvSession abccDec ∧
    abccDec.root ≠ 0x1FF#9 ∧ (nodeIn abccDec.nodes abccDec.root).leaf = false ∧
    ∃ u, State.bitSteps { abccDec with mode := .idle, pend := none } ((expand 0x80#8).take 1) = .ok u ∧ u.ptr ≠ u.root :=
  ⟨rfl, rfl, rfl, abccDec_ok, ⟨rfl, rfl, rfl, .inl rfl, rfl⟩, by decide, by decide, _, rfl, by decide⟩
theorem test_witness_CodesDecodeToTheirSymbols :
    InvTree aabDec ∧ InvCodes aabDec ∧ aabDec.codesValid = true ∧ aabDec.ptr = aabDec.root ∧
    ∀ x ∈ [0x41#8, 0x42#8, 0x41#8], (aabDec.codeAt x).valid = true :=
  ⟨aabTree_ok, aabCodes_codes, rfl, rfl, by decide⟩
theorem test_witness_FailedSessionReportsItsFirstError :
    emptyDec.mode = .dec ∧ emptyDec.sessFailed = false ∧
    ends (exec (.decByte 0#8) emptyDec) (fun t => codeOf t.last != 0#8) = true ∧ codeOf emptyDec.err = 0#8 ∧
    failedDec.mode = .dec ∧ failedDec.sessFailed = true := by decide
theorem test_witness_PaddingBitsAreNotExamined :
    aabDec.mode = .dec ∧ ∀ j, aabDec.decPad.toNat ≤ j → (0xDC#8).getLsbD j = (0xDD#8).getLsbD j := by
  refine ⟨rfl, fun j hj => ?_⟩
  have h1 : 1 ≤ j := hj
  by_cases h8 : j < 8
  · have h : ∀ k : Fin 8, 1 ≤ k.val → (0xDC#8).getLsbD k.val = (0xDD#8).getLsbD k.val := by decide
    exact h ⟨j, h8⟩ h1
  · rw [BitVec.getLsbD_of_ge _ _ (by omega), BitVec.getLsbD_of_ge _ _ (by omega)]
theorem test_witness_RdNodeReadsAnEntry :
    aabEnc.mode ≠ .des ∧ (510#9).toNat ≤ 510 ∧ (511#9).toNat = 511 := by decide
/-- Both answers of the register map, where they meet. -/
theorem test_witness_RdRegReadsEveryRegister :
    registerValue failedDec (0x0E#8).toNat = some 0x51030100 ∧ registerValue failedDec (0x0F#8).toNat = none := by decide
/-- A valid code and a cleared one. -/
theorem test_witness_RdFreqClenAndCodeReadTheTables :
    (aabCodes.codeAt 0x41#8).valid = true ∧ (aabCodes.codeAt 0x41#8).len.toNat = 1 ∧ (aabCodes.codeAt 0x5A#8).valid = false := by
  decide

end Sys2Proof.Tests
end

section
/-!
PROOFS, 10_state.md. What a command does to the state, said once as a relation (`Effect`), and the one induction over steps
(`step_keeps`) that every invariant of that file uses.
-/

namespace Sys2Proof.Machine

/-! ### Changes that no invariant of the registers and tables sees -/

/-- `t` differs from `s` at most in LAST, ERR, the output sequence, the ports and the turns. -/
def SameCore (s t : State) : Prop :=
  ∃ last err sent outq cmdq cmdOffer outHeld turns, t =
    { s with last := last, err := err, sent := sent, outq := outq, cmdq := cmdq, cmdOffer := cmdOffer,
             outHeld := outHeld, turns := turns }

theorem SameCore.record (s : State) (r : Word) : SameCore s (s.record r) := ⟨_, _, _, _, _, _, _, _, rfl⟩

theorem SameCore.take (s : State) (ws : List Word) (ts : List Turn) : SameCore s { s with cmdq := ws, turns := ts } :=
  ⟨_, _, _, _, _, _, _, _, rfl⟩

theorem SameCore.pinReset (s : State) : SameCore State.reset s.pinReset := ⟨_, _, _, _, _, _, _, _, rfl⟩

theorem SameCore.commandPort (s : State) (e : Edge) : SameCore s (s.commandPort e) := by
  unfold State.commandPort
  split <;> exact ⟨_, _, _, _, _, _, _, _, rfl⟩

theorem SameCore.outputPort (s : State) (e : Edge) : SameCore s (s.outputPort e) := by
  unfold State.outputPort
  split <;> exact ⟨_, _, _, _, _, _, _, _, rfl⟩

/-! ### ABORT (45_control.md R131) -/

/-- ABORT changes the session's own state alone. -/
theorem State.abortSession_frame (s : State) : s.abortSession =
    { s with mode := s.abortSession.mode, acc := s.abortSession.acc, pend := s.abortSession.pend,
             sessFailed := s.abortSession.sessFailed, desBuf := s.abortSession.desBuf } := by
  unfold State.abortSession
  split <;> rfl

/-! ### The unpacker (44_bitstream.md R118, R119) -/

/-- Wherever a body ends, whether or not it raises, P holds of the state. -/
def Ended.EndsIn (P : State → Prop) : Ended → Prop
  | .ok u => P u
  | .raised _ u => P u
  | .stuck _ => True

@[simp] theorem Ended.endsIn_ok (P : State → Prop) (u : State) : (Ended.ok u).EndsIn P ↔ P u := Iff.rfl
@[simp] theorem Ended.endsIn_raised (P : State → Prop) (c : Cause) (u : State) : (Ended.raised c u).EndsIn P ↔ P u := Iff.rfl

theorem Ended.EndsIn.mono {P Q : State → Prop} {e : Ended} (h : e.EndsIn P) (hPQ : ∀ u, P u → Q u) : e.EndsIn Q := by
  cases e with
  | ok u => exact hPQ u h
  | raised c u => exact hPQ u h
  | stuck f => trivial

/-- A bit step that raises changes nothing, and raises an underrun. -/
theorem State.bitStep_raised {s u : State} {bit : Bool} {c : Cause} (h : s.bitStep bit = .raised c u) :
    u = s ∧ ∃ r, c = .underrun r := by
  rcases s.bitStep_cases bit with ⟨_, _, _, h'⟩ | ⟨_, h'⟩ | ⟨_, h'⟩ | ⟨r, h'⟩ | ⟨_, _, h'⟩ <;> rw [h'] at h <;> cases h
  exact ⟨rfl, r, rfl⟩

/-- What every bit step keeps holds where the steps of a bit string end. -/
theorem State.bitSteps_keeps {P : State → Prop} (hP : ∀ s bit u, P s → s.bitStep bit = .ok u → P u) {s : State} (hs : P s)
    (bs : Bits) : (s.bitSteps bs).EndsIn P := by
  induction bs generalizing s with
  | nil => exact hs
  | cons b bs ih =>
    rw [State.bitSteps_cons]
    cases hb : s.bitStep b with
    | ok v => exact ih (hP s b v hs hb)
    | raised c v => exact (State.bitStep_raised hb).1 ▸ hs
    | stuck f => trivial

/-- The steps of a bit string raise underruns alone. -/
theorem State.bitSteps_raised {s u : State} {bs : Bits} {c : Cause} (h : s.bitSteps bs = .raised c u) :
    ∃ r, c = .underrun r := by
  induction bs generalizing s with
  | nil => simp at h
  | cons b bs ih =>
    rw [State.bitSteps_cons] at h
    cases hb : s.bitStep b with
    | ok v => exact ih (by simpa [hb] using h)
    | raised c' v =>
      rw [hb] at h
      cases h
      exact (State.bitStep_raised hb).2
    | stuck f => simp [hb] at h

/-- `u` differs from `s` at most in PTR, DEC_SYMS and words emitted. -/
def BitFrame (s u : State) : Prop :=
  ∃ ptr decSyms ws, u = { s with ptr := ptr, decSyms := decSyms, outq := s.outq ++ ws }

theorem BitFrame.refl (s : State) : BitFrame s s := ⟨s.ptr, s.decSyms, [], by simp⟩

theorem BitFrame.bitStep {s t u : State} {bit : Bool} (h : BitFrame s t) (hb : t.bitStep bit = .ok u) : BitFrame s u := by
  obtain ⟨p, d, ws, rfl⟩ := h
  rcases State.bitStep_cases _ bit with ⟨c, _, _, h⟩ | ⟨c, h⟩ | ⟨_, h⟩ | ⟨r, h⟩ | ⟨_, _, h⟩ <;> rw [h] at hb <;> cases hb
  · exact ⟨c, d, ws, rfl⟩
  · exact ⟨s.root, d + 1#32, ws ++ [_], by simp; rfl⟩
  · exact ⟨p, d + 1#32, ws ++ [_], by simp; rfl⟩

theorem BitFrame.of_bitSteps (s : State) (bs : Bits) : (s.bitSteps bs).EndsIn (BitFrame s) :=
  State.bitSteps_keeps (fun _ _ _ => BitFrame.bitStep) (BitFrame.refl s) bs

theorem BitFrame.of_ok {s u : State} {bs : Bits} (h : s.bitSteps bs = .ok u) : BitFrame s u := by
  simpa [h] using BitFrame.of_bitSteps s bs

theorem BitFrame.of_raised {s u : State} {bs : Bits} {c : Cause} (h : s.bitSteps bs = .raised c u) : BitFrame s u := by
  simpa [h] using BitFrame.of_bitSteps s bs

/-! ### What a command does before its result word is recorded -/

/-- `Effect s u` holds of every state u that a command makes of s before its result word is recorded (`exec_effect`): one
constructor for each way a command of 30_encoding.md R71 changes the state, with the guards of its rule. It leaves open what
ENC_END and DEC_END emit, and what they leave in PADDING, PTR, DEC_SYMS and SESS_ERR. -/
inductive Effect (s : State) : State → Prop where
  | emits (ws : List OutWord) : Effect s { s with outq := s.outq ++ ws }
  | reset : Effect s s.resetCore
  | clrErr : Effect s { s with err := 0#32 }
  | abort : Effect s s.abortSession
  | freqClr : s.mode = .idle → Effect s { s with freq := [], total := 0#32, distinct := 0#9 }
  | freqAdd (sym : Byte) (n : BitVec 16) : s.mode = .idle → s.total.toNat + n.toNat ≤ Config.totalMax →
      Effect s (s.count sym n)
  | buildEmpty : s.mode = .idle → leafNodes s.freq = [] → Effect s (s.clearCodes.setTree [] Config.null 0#10)
  | build : s.mode = .idle → leafNodes s.freq ≠ [] →
      Effect s (s.clearCodes.setTree (tableOfList (mergeAll (leafNodes s.freq)).nodes) (mergeAll (leafNodes s.freq)).root
        (BitVec.ofNat 10 (mergeAll (leafNodes s.freq)).nodes.length))
  | derive {codes : List (Nat × CodeEntry)} : s.mode = .idle → s.treeValid = true →
      deriveCodes s.nodes s.root = .ok codes → Effect s { s.clearCodes with codes := codes, codesValid := true }
  | deriveDup : s.mode = .idle → s.treeValid = true → Effect s s.clearCodes
  | desBegin : s.mode = .idle → Effect s { s.clearTree.clearCodes with desBuf := [], mode := .des }
  | desByte (b : Byte) : s.mode = .des → Effect s { s with desBuf := s.desBuf ++ [b] }
  | desMalformed : s.mode = .des → Effect s { s with desBuf := [], mode := .idle }
  | desEnd {nodes : List Node} : s.mode = .des → deserialize s.desBuf = .ok nodes →
      Effect s ({ s with desBuf := [], mode := .idle }.setTree (tableOfList nodes)
        (if nodes.isEmpty then Config.null else 0#9) (BitVec.ofNat 10 nodes.length))
  | encBegin : s.mode = .idle → s.codesValid = true →
      Effect s { s with acc := [], encBits := 0#64, padding := 0#3, mode := .enc }
  | encSym (sym : Byte) : s.mode = .enc → (s.codeAt sym).valid = true → Effect s (s.pack (s.codeAt sym))
  | encEnd (padding : BitVec 3) (ws : List OutWord) : s.mode = .enc →
      Effect s { s with acc := [], mode := .idle, padding := padding, outq := s.outq ++ ws }
  | decBegin (pad : BitVec 3) : s.mode = .idle → s.treeValid = true →
      Effect s { s with
        decPad := pad, ptr := s.root, pend := none, decSyms := 0#32, sessFailed := false, sessErr := 0#32, mode := .dec }
  | decFirst (b : Byte) : s.mode = .dec → s.sessFailed = false → Effect s { s with pend := some b }
  | decByte (b p : Byte) {u : State} : s.mode = .dec → s.sessFailed = false →
      State.bitSteps { s with pend := some b } (expand p) = .ok u → Effect s u
  | decByteFails (b p : Byte) {c : Cause} {u : State} : s.mode = .dec → s.sessFailed = false →
      State.bitSteps { s with pend := some b } (expand p) = .raised c u →
      Effect s { u with sessFailed := true, pend := none, sessErr := errResult Opcode.decByte.byte c }
  | decEndFailed : s.mode = .dec → s.sessFailed = true → Effect s { s with mode := .idle, sessFailed := false }
  | decEnd (ptr : NodeIx) (decSyms sessErr : Word) (ws : List OutWord) : s.mode = .dec → s.sessFailed = false →
      Effect s { s with
        mode := .idle, pend := none, ptr := ptr, decSyms := decSyms, sessErr := sessErr, outq := s.outq ++ ws }

theorem Effect.refl (s : State) : Effect s s := by simpa using Effect.emits (s := s) []

/-- ENC_END (44_bitstream.md R116). -/
theorem encEnd_endsIn {s : State} (hm : s.mode = .enc) :
    (Ended.ok { s.flush with acc := [], mode := .idle }).EndsIn (Effect s) := by
  unfold State.flush
  split
  · exact .encEnd _ _ hm
  · simpa using Effect.encEnd 0#3 [] hm

/-- DEC_BYTE of a session that has not failed, with a byte pending (44_bitstream.md R122). -/
theorem decByte_endsIn {s : State} (hm : s.mode = .dec) (hf : s.sessFailed = false) (b p : Byte) :
    (failSession (State.bitSteps { s with pend := some b } (expand p))).EndsIn (Effect s) := by
  cases h : State.bitSteps { s with pend := some b } (expand p) with
  | ok u => exact .decByte b p hm hf h
  | raised c u => exact .decByteFails b p hm hf h
  | stuck f => trivial

/-- DEC_END of a session that has not failed (44_bitstream.md R123). -/
theorem decEnd_endsIn {s : State} (hm : s.mode = .dec) (hf : s.sessFailed = false) :
    ((State.expandLast { s with mode := .idle }).andThen State.endAtRoot).EndsIn (Effect s) := by
  have close (ptr decSyms sessErr ws) := Effect.decEnd (s := s) ptr decSyms sessErr ws hm hf
  unfold State.expandLast
  cases hp : s.pend with
  | none =>
    have here (sessErr : Word) : Effect s { s with mode := .idle, pend := none, sessErr := sessErr } := by
      simpa using close s.ptr s.decSyms sessErr []
    by_cases hd : s.decPad = 0#3
    · by_cases hr : s.ptr = s.root
      · simpa [hd, State.endAtRoot, hr] using here s.sessErr
      · simpa [hd, State.endAtRoot, hr, endWith] using here _
    · simpa [hd, endWith] using here _
  | some p =>
    simp only
    cases hb : State.bitSteps { s with mode := .idle, pend := none } ((expand p).take (8 - s.decPad.toNat)) with
    | ok u =>
      obtain ⟨ptr, decSyms, ws, rfl⟩ := BitFrame.of_ok hb
      by_cases hr : ptr = s.root
      · simpa [State.endAtRoot, hr] using close ptr decSyms s.sessErr ws
      · simpa [State.endAtRoot, hr, endWith] using close ptr decSyms _ ws
    | raised c u =>
      obtain ⟨ptr, decSyms, ws, rfl⟩ := BitFrame.of_raised hb
      exact close ptr decSyms _ ws
    | stuck f => trivial

/-- A command that is no read has an effect when its body, admitted, ends in one. -/
theorem command_effect {op : Opcode} {s t : State} {body : State → Ended} (h : command op s body = .next t)
    (hb : admitted op s.mode = true → (body s).EndsIn (Effect s)) : ∃ u r, Effect s u ∧ t = u.record r := by
  rcases command_next h with ⟨-, rfl⟩ | ⟨ha, u, hu, rfl⟩ | ⟨ha, c, u, hu, rfl⟩
  · exact ⟨s, _, .refl s, rfl⟩
  · exact ⟨u, _, by simpa [hu] using hb ha, rfl⟩
  · exact ⟨u, _, by simpa [hu] using hb ha, rfl⟩

theorem readCommand_effect {op : Opcode} {s t : State} {response : State → Except Cause (List Word)}
    (h : readCommand op s response = .next t) : ∃ u r, Effect s u ∧ t = u.record r := by
  rcases readCommand_cases op s response with ⟨ws, -, h'⟩ | ⟨c, h'⟩ <;> rw [h'] at h <;> cases h
  · exact ⟨_, _, .emits _, rfl⟩
  · exact ⟨_, _, .emits _, rfl⟩

/-- What a command's next state comes from: an effect, and the recording of its result word (60_exceptions.md R142). -/
theorem exec_effect {i : Instr} {s t : State} (h : exec i s = .next t) : ∃ u r, Effect s u ∧ t = u.record r := by
  unfold exec at h
  cases i with
  | nop => exact command_effect h fun _ => .refl s
  | reset => exact command_effect h fun _ => .reset
  | clrErr => exact command_effect h fun _ => .clrErr
  | abort => exact command_effect h fun _ => .abort
  | mark imm => exact command_effect h fun _ => .emits _
  | freqClr => exact command_effect h fun ha => .freqClr (eq_of_beq ha)
  | freqAdd sym n =>
    refine command_effect h fun ha => ?_
    split
    · exact .refl s
    · next hn => exact .freqAdd sym n (eq_of_beq ha) (Nat.le_of_not_lt hn)
  | build =>
    refine command_effect h fun ha => ?_
    dsimp only
    split
    · next hl => exact .buildEmpty (eq_of_beq ha) hl
    · next hl => exact .build (eq_of_beq ha) hl
  | derive =>
    refine command_effect h fun ha => ?_
    split
    · next hv =>
      split
      · next hd => exact .derive (eq_of_beq ha) hv hd
      · exact .deriveDup (eq_of_beq ha) hv
      · trivial
    · exact .refl s
  | ser =>
    refine command_effect h fun ha => ?_
    split
    · split
      · exact .emits _
      · trivial
    · exact .refl s
  | desBegin => exact command_effect h fun ha => .desBegin (eq_of_beq ha)
  | desByte b => exact command_effect h fun ha => .desByte b (eq_of_beq ha)
  | desEnd =>
    refine command_effect h fun ha => ?_
    dsimp only
    split
    · exact .desMalformed (eq_of_beq ha)
    · next hd => exact .desEnd (eq_of_beq ha) hd
  | encBegin =>
    refine command_effect h fun ha => ?_
    split
    · next hv => exact .encBegin (eq_of_beq ha) hv
    · exact .refl s
  | encSym sym =>
    refine command_effect h fun ha => ?_
    split
    · next hv => exact .encSym sym (eq_of_beq ha) hv
    · exact .refl s
  | encEnd => exact command_effect h fun ha => encEnd_endsIn (eq_of_beq ha)
  | decBegin pad =>
    refine command_effect h fun ha => ?_
    split
    · next hv =>
      split
      · exact .refl s
      · exact .decBegin _ (eq_of_beq ha) hv
    · exact .refl s
  | decByte b =>
    refine command_effect h fun ha => ?_
    have hm : s.mode = .dec := eq_of_beq ha
    split
    · exact .refl s
    · next hf =>
      split
      · exact .decFirst b hm (Bool.eq_false_of_not_eq_true hf)
      · exact decByte_endsIn hm (Bool.eq_false_of_not_eq_true hf) b _
  | decEnd =>
    refine command_effect h fun ha => ?_
    have hm : s.mode = .dec := eq_of_beq ha
    dsimp only
    split
    · next hf => exact .decEndFailed hm hf
    · next hf => exact decEnd_endsIn hm (Bool.eq_false_of_not_eq_true hf)
  | rdReg r => exact readCommand_effect h
  | rdFreq sym => exact readCommand_effect h
  | rdNode idx => exact readCommand_effect h
  | rdClen sym => exact readCommand_effect h
  | rdCode sym k => exact readCommand_effect h

/-- So does the next state of a word that spells no command (30_encoding.md R72, R73). -/
theorem illegalWord_effect {w : Word} {e : Illegal} {s t : State} (h : illegalWord w e s = .next t) :
    ∃ u r, Effect s u ∧ t = u.record r := by
  rw [illegalWord_next] at h
  cases h
  cases e with
  | unknownOpcode => exact ⟨s, _, .refl s, rfl⟩
  | reservedBits op => exact ⟨_, _, .emits _, rfl⟩

/-! ### Steps -/

/-- What a step's next state comes from: the reset pin, an edge at the ports, nothing, or the effect of a command word. -/
theorem step_next {s t : State} (h : step s = .next t) :
    (∃ ts, t = State.pinReset { s with turns := ts }) ∨
    (∃ e ts, t = (State.commandPort { s with turns := ts } e).outputPort e) ∨
    (∃ ts, t = { s with turns := ts }) ∨
    (∃ ws ts u r, Effect { s with cmdq := ws, turns := ts } u ∧ t = u.record r) := by
  rcases step_cases s with ⟨e, ts, -, h'⟩ | ⟨ts, -, -, h'⟩ | ⟨ts, w, ws, i, -, -, -, h'⟩ | ⟨ts, w, ws, e, -, -, -, h'⟩ <;>
    rw [h'] at h
  · rcases clockEdge_cases e { s with turns := ts } with ⟨-, he⟩ | ⟨-, -, he⟩ | ⟨-, -, he⟩ <;> rw [he] at h <;> cases h
    · exact .inl ⟨ts, rfl⟩
    · exact .inr (.inl ⟨e, ts, rfl⟩)
  · cases h
    exact .inr (.inr (.inl ⟨ts, rfl⟩))
  · exact .inr (.inr (.inr ⟨ws, ts, exec_effect h⟩))
  · exact .inr (.inr (.inr ⟨ws, ts, illegalWord_effect h⟩))

/-- A property of the registers and tables is kept by every change that `SameCore` allows. -/
def Framed (P : State → Prop) : Prop := ∀ s t, SameCore s t → P s → P t

theorem Framed.and {P Q : State → Prop} (hP : Framed P) (hQ : Framed Q) : Framed fun s => P s ∧ Q s :=
  fun s t h => And.imp (hP s t h) (hQ s t h)

/-- The induction over steps: Q holds after every step from a state that meets P, when P gives Q, the reset state meets Q,
and every effect of a command takes P to Q. -/
theorem step_keeps {P Q : State → Prop} (hP : Framed P) (hQ : Framed Q) (hPQ : ∀ s, P s → Q s) (hreset : Q State.reset)
    (heffect : ∀ s u, Effect s u → P s → Q u) {s t : State} (hs : P s) (h : step s = .next t) : Q t := by
  rcases step_next h with ⟨ts, rfl⟩ | ⟨e, ts, rfl⟩ | ⟨ts, rfl⟩ | ⟨ws, ts, u, r, hu, rfl⟩
  · exact hQ _ _ (.pinReset _) hreset
  · exact hQ _ _ (.outputPort _ e) (hQ _ _ (.commandPort _ e) (hQ _ _ (.take s s.cmdq ts) (hPQ s hs)))
  · exact hQ _ _ (.take s s.cmdq ts) (hPQ s hs)
  · exact hQ _ _ (.record u r) (heffect _ u hu (hP _ _ (.take s ws ts) hs))

end Sys2Proof.Machine
end

section
/-!
PROOFS, 10_state.md R38. Node lists and the tables made of them: when such a table holds a tree, and that the trees of
`BUILD` (41_tree_builder.md) and of `DES_END` (43_tree_codec.md) do.
-/

namespace Sys2Proof.Machine

/-! ### The children of a node list -/

/-- The indices an entry names, left before right. -/
def Node.links (x : Node) : List NodeIx := if x.leaf then [] else [x.left, x.right]

theorem Node.links_of_leaf {x : Node} (h : x.leaf = true) : x.links = [] := by simp [Node.links, h]

theorem Node.links_of_internal {x : Node} (h : x.leaf = false) : x.links = [x.left, x.right] := by simp [Node.links, h]

/-- The children that a node table names are those of the entries it was made of. -/
theorem childLinks_ofList (l : List Node) : childLinks (tableOfList l) l.length = l.flatMap Node.links := by
  have hl : l = (List.range l.length).map fun n => l.getD n Node.cleared :=
    List.ext_getElem (by simp) fun n h _ => by simp [h]
  conv_rhs => rw [hl, List.flatMap_map]
  simp only [childLinks, tableGet_ofList, Node.links]

/-- Every entry is used, and a leaf names no child (10_state.md R37). -/
def EntriesOk (l : List Node) : Prop :=
  ∀ x ∈ l, x.used = true ∧ (x.leaf = true → x.left = Config.null ∧ x.right = Config.null)

/-- Every child has a lower index than its parent (41_tree_builder.md R84). -/
def ChildrenBelow (l : List Node) : Prop :=
  ∀ (n : Nat) (x : Node), l[n]? = some x → ∀ i ∈ x.links, i.toNat < n

/-- Every child has a higher index than its parent (43_tree_codec.md R106). -/
def ChildrenAbove (l : List Node) : Prop :=
  ∀ (n : Nat) (x : Node), l[n]? = some x → ∀ i ∈ x.links, n < i.toNat

/-- A node list whose root and children are its indices, each once, makes a table that holds a tree. -/
theorem treeOk_ofList {l : List Node} {root : NodeIx} (bound : l.length ≤ Config.nodeCap) (entries : EntriesOk l)
    (once : ((root :: l.flatMap Node.links).map BitVec.toNat).Perm (List.range l.length))
    (ordered : ChildrenBelow l ∨ ChildrenAbove l) : TreeOk (tableOfList l) root l.length := by
  have hget {n : Nat} (hn : n < l.length) : ∃ x ∈ l, l[n]? = some x ∧ tableGet Node.cleared (tableOfList l) n = x :=
    ⟨l[n], List.getElem_mem hn, by simp [hn], by simp [hn]⟩
  have hin {i : NodeIx} (hi : i ∈ root :: l.flatMap Node.links) : i.toNat < l.length :=
    List.mem_range.mp (once.subset (List.mem_map_of_mem hi))
  have hroot : root.toNat < l.length := hin List.mem_cons_self
  refine
    { bound := bound, used := ?_, unused := ?_, empty := ?_, rootIn := fun _ => hroot, internal := ?_, leaf := ?_,
      oneParent := ?_, parented := ?_, ordered := ?_ }
  · intro n hn
    obtain ⟨x, hx, -, h⟩ := hget hn
    exact h ▸ (entries x hx).1
  · intro n hn
    simp [hn]
  · have hnull : root ≠ Config.null := fun h => by
      rw [h] at hroot
      exact absurd (hroot.trans_le bound) (by decide)
    simp only [hnull, false_iff]
    omega
  · intro n hn
    obtain ⟨x, hx, -, h⟩ := hget hn
    rw [h]
    intro hl
    have hchild (i : NodeIx) (hi : i ∈ x.links) := hin (List.mem_cons_of_mem _ (List.mem_flatMap.mpr ⟨x, hx, hi⟩))
    simpa [Node.links_of_internal hl] using hchild
  · intro n hn
    obtain ⟨x, hx, -, h⟩ := hget hn
    exact h ▸ (entries x hx).2
  · rw [childLinks_ofList]
    exact (once.symm.nodup List.nodup_range).of_map _
  · intro n hn
    rw [childLinks_ofList]
    simpa [eq_comm] using once.symm.subset (List.mem_range.mpr hn)
  · refine ordered.imp (fun h n hn => ?_) fun h n hn => ?_
    all_goals
      obtain ⟨x, -, hx, he⟩ := hget hn
      rw [he]
      intro hl
      simpa [Node.links_of_internal hl] using h n x hx

/-- The table of no entries holds the empty tree (10_state.md R38). -/
theorem treeOk_empty : TreeOk [] Config.null 0 where
  bound := by decide
  used n hn := absurd hn (Nat.not_lt_zero n)
  unused _ _ := rfl
  empty := by simp
  rootIn h := absurd rfl h
  internal n hn := absurd hn (Nat.not_lt_zero n)
  leaf n hn := absurd hn (Nat.not_lt_zero n)
  oneParent := by decide
  parented n hn := absurd hn (Nat.not_lt_zero n)
  ordered := .inl fun n hn => absurd hn (Nat.not_lt_zero n)

/-! ### Lists one entry longer -/

theorem EntriesOk.concat {l : List Node} {x : Node} (h : EntriesOk l) (hx : EntriesOk [x]) : EntriesOk (l ++ [x]) := by
  simp only [EntriesOk, List.forall_mem_append]
  exact ⟨h, hx⟩

theorem ChildrenBelow.concat {l : List Node} {x : Node} (h : ChildrenBelow l) (hx : ∀ i ∈ x.links, i.toNat < l.length) :
    ChildrenBelow (l ++ [x]) := by
  intro n y hy
  rcases Nat.lt_or_ge n l.length with hn | hn
  · exact h n y (by rwa [List.getElem?_append_left hn] at hy)
  · rw [List.getElem?_append_right hn] at hy
    obtain ⟨hn', rfl⟩ := List.getElem?_eq_some_iff.mp hy
    intro i hi
    exact (hx i (by simpa using hi)).trans_le hn

/-! ### The merge loop (41_tree_builder.md R84, R85) -/

/-- The indices in the active set. -/
def Merger.pending (m : Merger) : List NodeIx := m.active.map QueueEntry.index

/-- What every turn of the merge loop keeps: each index made so far is active or the child of one entry. -/
structure Merging (m : Merger) : Prop where
  room : m.nodes.length + m.active.length ≤ 512
  entries : EntriesOk m.nodes
  below : ChildrenBelow m.nodes
  once : ((m.pending ++ m.nodes.flatMap Node.links).map BitVec.toNat).Perm (List.range m.nodes.length)

theorem Merging.mergeOnce {m : Merger} (h : Merging m) : Merging (mergeOnce m) := by
  rcases extractLeast_cases m.active with ⟨-, hA⟩ | ⟨a, rest, hA, ha, rfl, hla⟩
  · simpa [Machine.mergeOnce, hA] using h
  rcases extractLeast_cases (m.active.erase a) with ⟨-, hB⟩ | ⟨b, rest, hB, hb, rfl, hlb⟩
  · simpa [Machine.mergeOnce, hA, hB] using h
  have hlen : m.nodes.length < 512 := by have := h.room; omega
  have hpend : m.pending.Perm (a.index :: b.index :: ((m.active.erase a).erase b).map QueueEntry.index) :=
    ((List.perm_cons_erase ha).trans ((List.perm_cons_erase hb).cons a)).map QueueEntry.index
  have hlinks : (joinNode a b).links = [a.index, b.index] := rfl
  have hin (i : NodeIx) (hi : i ∈ m.pending) : i.toNat < m.nodes.length :=
    List.mem_range.mp (h.once.subset (List.mem_map_of_mem (List.mem_append_left _ hi)))
  simp only [Machine.mergeOnce, hA, hB]
  refine ⟨?_, h.entries.concat ?_, h.below.concat fun i hi => hin i (hpend.symm.subset ?_), ?_⟩
  · have := h.room
    simp only [List.length_append, List.length_singleton]
    omega
  · simp [EntriesOk, joinNode]
  · rw [hlinks] at hi
    exact List.mem_append_left _ hi
  · rw [List.length_append, List.length_singleton, List.range_succ]
    refine List.Perm.trans (List.perm_iff_count.mpr fun n => ?_) (h.once.append_right _)
    have hcount := (hpend.map BitVec.toNat).count_eq n
    have hnew : m.nodes.length % 512 = m.nodes.length := Nat.mod_eq_of_lt hlen
    simp only [List.map_cons, List.count_cons] at hcount
    simp [Merger.pending, hlinks, hnew, List.count_append, List.count_cons] at hcount ⊢
    omega

theorem Merging.mergeTimes {m : Merger} (h : Merging m) (k : Nat) : Merging (mergeTimes k m) := by
  induction k generalizing m with
  | zero => exact h
  | succ k ih => exact ih h.mergeOnce

/-- The merge of leaves alone begins well. -/
theorem Merging.start {leaves : List Node} (hl : leaves.length ≤ 256) (he : EntriesOk leaves)
    (hleaf : ∀ x ∈ leaves, x.leaf = true) :
    Merging (startMerge leaves) := by
  have hlinks : leaves.flatMap Node.links = [] := List.flatMap_eq_nil_iff.mpr fun x hx => Node.links_of_leaf (hleaf x hx)
  refine ⟨by simp; omega, he, fun n x hx => ?_, ?_⟩
  · rw [Node.links_of_leaf (hleaf x (List.mem_of_getElem? hx))]
    exact nofun
  · have hpend : (startMerge leaves).pending.map BitVec.toNat = List.range leaves.length := by
      refine List.ext_getElem (by simp [Merger.pending]) fun n hn _ => ?_
      simp [Merger.pending] at hn
      simp [Merger.pending, startMerge]
      omega
    simp [hlinks, hpend]

theorem leafNodes_entriesOk (freq : List (Nat × Word)) : EntriesOk (leafNodes freq) := by
  intro x hx
  obtain ⟨n, -, -, rfl⟩ := mem_leafNodes hx
  simp

theorem leaf_of_mem_leafNodes {freq : List (Nat × Word)} {x : Node} (hx : x ∈ leafNodes freq) : x.leaf = true := by
  obtain ⟨n, -, -, rfl⟩ := mem_leafNodes hx
  rfl

/-- The whole merge of a build. -/
theorem merging_mergeAll (freq : List (Nat × Word)) : Merging (mergeAll (leafNodes freq)) :=
  (Merging.start (length_leafNodes_le freq) (leafNodes_entriesOk freq) fun _ => leaf_of_mem_leafNodes).mergeTimes _

theorem length_mergeAll_le {freq : List (Nat × Word)} (h : leafNodes freq ≠ []) :
    (mergeAll (leafNodes freq)).nodes.length ≤ Config.nodeCap := by
  have := length_leafNodes_le freq
  have := (mergeAll_lengths h).1
  simp only [Config.nsym, Config.nodeCap] at *
  omega

/-- `BUILD` of at least one symbol makes a tree (41_tree_builder.md R85). -/
theorem treeOk_build {freq : List (Nat × Word)} (h : leafNodes freq ≠ []) :
    TreeOk (tableOfList (mergeAll (leafNodes freq)).nodes) (mergeAll (leafNodes freq)).root
      (mergeAll (leafNodes freq)).nodes.length := by
  have hm := merging_mergeAll freq
  obtain ⟨r, hr⟩ := List.length_eq_one_iff.mp (mergeAll_lengths h).2
  refine treeOk_ofList (length_mergeAll_le h) hm.entries ?_ (.inl hm.below)
  simpa [Merger.pending, Merger.root, hr] using hm.once

/-! ### The reconstruction (43_tree_codec.md R106) -/

/-- The child on a side. -/
def Node.child (x : Node) : Side → NodeIx
  | .left => x.left
  | .right => x.right

/-- The children attached so far: a side not yet filled holds NULL. -/
def Node.attached (x : Node) : List NodeIx := x.links.filter (· ≠ Config.null)

@[simp] theorem Node.attach_used (x : Node) (side : Side) (i : NodeIx) : (x.attach side i).used = x.used := by
  cases side <;> rfl

@[simp] theorem Node.attach_leaf (x : Node) (side : Side) (i : NodeIx) : (x.attach side i).leaf = x.leaf := by
  cases side <;> rfl

theorem Node.child_attach (x : Node) (side side' : Side) (i : NodeIx) :
    (x.attach side i).child side' = if side' = side then i else x.child side' := by
  cases side <;> cases side' <;> rfl

theorem Node.mem_links_attach {x : Node} {side : Side} {i j : NodeIx} (h : j ∈ (x.attach side i).links) :
    j = i ∨ j ∈ x.links := by
  cases side <;> cases hl : x.leaf <;> simp [Node.links, Node.attach, hl] at h ⊢ <;> tauto

/-- Filling an empty side of an internal entry adds one child. -/
theorem Node.attached_attach {x : Node} {side : Side} {i : NodeIx} (hl : x.leaf = false) (hs : x.child side = Config.null)
    (hi : i ≠ Config.null) : (x.attach side i).attached.Perm (i :: x.attached) := by
  cases side with
  | left =>
    have hs : x.left = Config.null := hs
    simp [Node.attached, Node.links, Node.attach, hl, hs, hi]
  | right =>
    have hs : x.right = Config.null := hs
    by_cases hx : x.left = Config.null
    · simp [Node.attached, Node.links, Node.attach, hl, hs, hi, hx]
    · simpa [Node.attached, Node.links, Node.attach, hl, hs, hi, hx] using List.Perm.swap i x.left []

theorem Node.attached_eq_links {x : Node} (h : x.leaf = false → ∀ side, x.child side ≠ Config.null) :
    x.attached = x.links := by
  cases hl : x.leaf with
  | true => simp [Node.attached, Node.links_of_leaf hl]
  | false =>
    have hleft : x.left ≠ Config.null := h hl .left
    have hright : x.right ≠ Config.null := h hl .right
    simp [Node.attached, Node.links_of_internal hl, hleft, hright]

/-- The entry of a record has no child yet. -/
theorem Record.node?_fresh {r : Record} {x : Node} (h : r.node? = some x) :
    x.used = true ∧ ∀ side, x.child side = Config.null := by
  cases r <;> cases h <;> exact ⟨rfl, fun side => by cases side <;> rfl⟩

section
variable {x : Node} (hx : ∀ side, x.child side = Config.null)
include hx

theorem Node.eq_null_of_mem_links {i : NodeIx} (hi : i ∈ x.links) : i = Config.null := by
  have hleft : x.left = Config.null := hx .left
  have hright : x.right = Config.null := hx .right
  cases hl : x.leaf with
  | true => simp [Node.links_of_leaf hl] at hi
  | false => simpa [Node.links_of_internal hl, hleft, hright] using hi

theorem Node.attached_eq_nil : x.attached = [] :=
  List.filter_eq_nil_iff.mpr fun i hi => by simp [Node.eq_null_of_mem_links hx hi]

end

theorem toNat_newIndex {n : Nat} (h : n < Config.nodeCap) : (BitVec.ofNat 9 n).toNat = n := by
  simp only [Config.nodeCap] at h
  rw [BitVec.toNat_ofNat]
  omega

theorem newIndex_ne_null {n : Nat} (h : n < Config.nodeCap) : BitVec.ofNat 9 n ≠ Config.null := fun e => by
  have := toNat_newIndex h
  rw [e] at this
  exact absurd (this ▸ h) (by decide)

/-- The node list after a new entry x is attached on a side of entry p (43_tree_codec.md R106). -/
def attachNew (l : List Node) (p : Nat) (side : Side) (x : Node) : List Node :=
  (l.modify p fun y => y.attach side (BitVec.ofNat 9 l.length)) ++ [x]

@[simp] theorem length_attachNew (l : List Node) (p : Nat) (side : Side) (x : Node) :
    (attachNew l p side x).length = l.length + 1 := by simp [attachNew]

theorem attachNew_lookup {l : List Node} {p : Nat} {side : Side} {x y : Node} {n : Nat}
    (h : (attachNew l p side x)[n]? = some y) :
    (n ≠ p ∧ n < l.length ∧ l[n]? = some y) ∨
    (n = p ∧ n < l.length ∧ ∃ y₀, l[n]? = some y₀ ∧ y = y₀.attach side (BitVec.ofNat 9 l.length)) ∨
    (n = l.length ∧ y = x) := by
  rcases Nat.lt_or_ge n l.length with hn | hn
  · rw [attachNew, List.getElem?_append_left (by simpa using hn)] at h
    by_cases hp : p = n
    · subst hp
      rw [List.getElem?_modify_eq, List.getElem?_eq_getElem hn] at h
      exact .inr (.inl ⟨rfl, hn, l[p], List.getElem?_eq_getElem hn, by simpa using h.symm⟩)
    · rw [List.getElem?_modify_ne _ _ hp] at h
      exact .inl ⟨fun e => hp e.symm, hn, h⟩
  · rw [attachNew, List.getElem?_append_right (by simpa using hn)] at h
    obtain ⟨h1, h2⟩ := List.getElem?_eq_some_iff.mp h
    simp at h1 h2
    exact .inr (.inr ⟨by omega, h2.symm⟩)

section
variable {l : List Node} {p : Nat} {side : Side} {x y : Node} (hp : l[p]? = some y) (hy : y.leaf = false)
include hp

theorem ChildrenAbove.attachNew (hl : l.length < Config.nodeCap) (h : ChildrenAbove l)
    (hx : ∀ side, x.child side = Config.null) :
    ChildrenAbove (attachNew l p side x) := by
  intro n z hn i hz
  rcases attachNew_lookup hn with ⟨-, -, hn⟩ | ⟨rfl, hnl, y₀, hy₀, rfl⟩ | ⟨rfl, rfl⟩
  · exact h n z hn i hz
  · rcases Node.mem_links_attach hz with rfl | hz
    · exact hnl.trans_eq (toNat_newIndex hl).symm
    · exact h n y₀ hy₀ i hz
  · rw [Node.eq_null_of_mem_links hx hz]
    exact hl

include hy

/-- An internal entry stays one. -/
theorem attachNew_internal {n : Nat} {z : Node} (hz : l[n]? = some z) (hzl : z.leaf = false) :
    ∃ z', (attachNew l p side x)[n]? = some z' ∧ z'.leaf = false := by
  have hn := (List.getElem?_eq_some_iff.mp hz).1
  obtain ⟨z', hz'⟩ : ∃ z', (Machine.attachNew l p side x)[n]? = some z' :=
    ⟨_, List.getElem?_eq_getElem (by simp; omega)⟩
  refine ⟨z', hz', ?_⟩
  rcases attachNew_lookup hz' with ⟨-, -, h⟩ | ⟨rfl, -, y₀, hy₀, rfl⟩ | ⟨rfl, -⟩
  · exact (Option.some.inj (h.symm.trans hz)) ▸ hzl
  · obtain rfl : y₀ = y := Option.some.inj (hy₀.symm.trans hp)
    simpa using hy
  · exact absurd hn (Nat.lt_irrefl _)

theorem EntriesOk.attachNew (h : EntriesOk l) (hx : EntriesOk [x]) : EntriesOk (attachNew l p side x) := by
  intro z hz
  obtain ⟨n, hn⟩ := List.mem_iff_getElem?.mp hz
  rcases attachNew_lookup hn with ⟨-, -, hz⟩ | ⟨rfl, -, y₀, hy₀, rfl⟩ | ⟨-, rfl⟩
  · exact h z (List.mem_of_getElem? hz)
  · obtain rfl : y₀ = y := Option.some.inj (hy₀.symm.trans hp)
    simp [hy, (h y₀ (List.mem_of_getElem? hp)).1]
  · exact hx z List.mem_cons_self

/-- The new entry is the one index more that is attached. -/
theorem attachNew_attached (hl : l.length < Config.nodeCap) (hs : y.child side = Config.null)
    (hx : ∀ side, x.child side = Config.null) :
    ((attachNew l p side x).flatMap Node.attached).Perm (BitVec.ofNat 9 l.length :: l.flatMap Node.attached) := by
  obtain ⟨hpl, hget⟩ := List.getElem?_eq_some_iff.mp hp
  have hsplit : l = l.take p ++ y :: l.drop (p + 1) := by rw [← hget]; simp
  have hperm := Node.attached_attach hy hs (newIndex_ne_null hl)
  calc ((Machine.attachNew l p side x).flatMap Node.attached)
      _ = (l.take p).flatMap Node.attached ++
          ((y.attach side (BitVec.ofNat 9 l.length)).attached ++ (l.drop (p + 1)).flatMap Node.attached) := by
        simp [Machine.attachNew, List.modify_eq_take_cons_drop hpl, hget, Node.attached_eq_nil hx]
      List.Perm _ ((l.take p).flatMap Node.attached ++
          (BitVec.ofNat 9 l.length :: y.attached ++ (l.drop (p + 1)).flatMap Node.attached)) :=
        (hperm.append_right _).append_left _
      List.Perm _ (BitVec.ofNat 9 l.length :: ((l.take p).flatMap Node.attached ++
          (y.attached ++ (l.drop (p + 1)).flatMap Node.attached))) := List.perm_middle
      _ = BitVec.ofNat 9 l.length :: (l.take p ++ y :: l.drop (p + 1)).flatMap Node.attached := by simp
      _ = BitVec.ofNat 9 l.length :: l.flatMap Node.attached := by rw [← hsplit]

end

/-- The entries that wait for a child on a side: those of Q, but for its front where the left side is already filled. -/
def Rebuild.waiting (z : Rebuild) : Side → List Nat
  | .right => z.queue
  | .left => if z.side = .left then z.queue else z.queue.tail

/-- What every record keeps: each index made so far but the root's is attached once, and the sides not filled are those that
wait. -/
structure Rebuilding (z : Rebuild) : Prop where
  bound : z.nodes.length ≤ Config.nodeCap
  entries : EntriesOk z.nodes
  above : ChildrenAbove z.nodes
  once : ((0#9 :: z.nodes.flatMap Node.attached).map BitVec.toNat).Perm (List.range z.nodes.length)
  nodup : z.queue.Nodup
  inside : ∀ h ∈ z.queue, ∃ x, z.nodes[h]? = some x ∧ x.leaf = false
  vacant : ∀ (side : Side) (n : Nat) (x : Node), z.nodes[n]? = some x → x.leaf = false →
    (x.child side = Config.null ↔ n ∈ z.waiting side)

/-- The store after one record attached, entry by entry. -/
theorem Rebuild.record_ok {z z' : Rebuild} {r : Record} (h : z.record r = .ok z') :
    ∃ p q x, z.queue = p :: q ∧ r.node? = some x ∧ z.nodes.length ≠ Config.nodeCap ∧
      z'.nodes = attachNew z.nodes p z.side x ∧
      z'.queue = (if z.side = .left then p :: q else q) ++ (if x.leaf then [] else [z.nodes.length]) ∧
      z'.side = if z.side = .left then .right else .left := by
  cases hq : z.queue with
  | nil => simp [Rebuild.record, hq] at h
  | cons p q =>
    cases hr : r.node? with
    | none => simp [Rebuild.record, hq, hr] at h
    | some x =>
      by_cases hn : z.nodes.length = Config.nodeCap
      · simp [Rebuild.record, hq, hr, hn] at h
      · simp only [Rebuild.record, hq, hr, hn, if_false, Except.ok.injEq] at h
        subst h
        refine ⟨p, q, x, rfl, rfl, hn, rfl, ?_, ?_⟩
        · cases z.side <;> cases x.leaf <;> simp
        · cases z.side <;> rfl

/-- Who waits after a record: the front no longer on the side it took, and the new entry on both sides if it is internal. -/
theorem Rebuild.waiting_record {z z' : Rebuild} {p : Nat} {q new : List Nat} (hq : z.queue = p :: q)
    (hq' : z'.queue = (if z.side = .left then p :: q else q) ++ new)
    (hs' : z'.side = if z.side = .left then .right else .left) (side : Side) :
    z.waiting z.side = p :: q ∧ z'.waiting side = (if side = z.side then q else z.waiting side) ++ new := by
  cases hs : z.side <;> cases side <;> simp [Rebuild.waiting, hq, hq', hs', hs]

theorem Rebuilding.record {z z' : Rebuild} {r : Record} (h : Rebuilding z) (hr : z.record r = .ok z') : Rebuilding z' := by
  obtain ⟨p, q, x, hq, hx, hcap, hn', hq', hs'⟩ := Rebuild.record_ok hr
  obtain ⟨hused, hfresh⟩ := Record.node?_fresh hx
  obtain ⟨y, hp, hy⟩ := h.inside p (by simp [hq])
  have hlt : z.nodes.length < Config.nodeCap := Nat.lt_of_le_of_ne h.bound hcap
  have hwait := Rebuild.waiting_record hq hq' hs'
  have hvac : y.child z.side = Config.null := (h.vacant z.side p y hp hy).mpr (by simp [(hwait z.side).1])
  have hnod : p ∉ q ∧ q.Nodup := List.nodup_cons.mp (hq ▸ h.nodup)
  have hold (n : Nat) (hn : n ∈ z.queue) : n < z.nodes.length := by
    obtain ⟨w, hw, -⟩ := h.inside n hn
    exact (List.getElem?_eq_some_iff.mp hw).1
  have hnew (n : Nat) (hn : n < z.nodes.length) : n ∉ (if x.leaf then [] else [z.nodes.length]) := by
    split <;> simp
    omega
  have hlen : z'.nodes.length = z.nodes.length + 1 := by rw [hn', length_attachNew]
  refine
    { bound := by rw [hlen]; exact hlt
      entries := hn' ▸ h.entries.attachNew hp hy ?_
      above := hn' ▸ h.above.attachNew hp hlt hfresh
      once := ?_, nodup := ?_, inside := ?_, vacant := ?_ }
  · simpa [EntriesOk, hused] using fun _ => ⟨hfresh .left, hfresh .right⟩
  · rw [hn', length_attachNew, List.range_succ]
    have hperm := attachNew_attached hp hy hlt hvac hfresh
    refine (((hperm.cons 0#9).trans (List.Perm.swap _ _ _)).map BitVec.toNat).trans ?_
    rw [List.map_cons, toNat_newIndex hlt]
    exact (h.once.cons _).trans (List.perm_append_singleton _ _).symm
  · rw [hq']
    refine List.Nodup.append (by split; exacts [hq ▸ h.nodup, hnod.2]) (by split <;> simp) ?_
    intro n hn hnn
    exact hnew n (hold n (by rw [hq]; revert hn; split <;> simp_all)) hnn
  · intro n hn
    rw [hq', List.mem_append] at hn
    rw [hn']
    rcases hn with hn | hn
    · obtain ⟨w, hw, hwl⟩ := h.inside n (by rw [hq]; revert hn; split <;> simp_all)
      exact attachNew_internal hp hy hw hwl
    · cases hxl : x.leaf with
      | true => simp [hxl] at hn
      | false =>
        obtain rfl : n = z.nodes.length := by simpa [hxl] using hn
        exact ⟨x, by simp [attachNew], hxl⟩
  · intro side n w hw hwl
    rw [hn'] at hw
    rw [(hwait side).2, List.mem_append]
    rcases attachNew_lookup hw with ⟨hne, hn, hw⟩ | ⟨rfl, hn, y₀, hy₀, rfl⟩ | ⟨rfl, rfl⟩
    · rw [h.vacant side n w hw hwl]
      split
      · next hside => simp [hside, (hwait side).1, hne, hnew n hn]
      · simp [hnew n hn]
    · obtain rfl : y₀ = y := Option.some.inj (hy₀.symm.trans hp)
      rw [Node.child_attach]
      split
      · simp [hnew n hn, hnod.1, newIndex_ne_null hlt]
      · simp [h.vacant side n y₀ hp hy, hnew n hn]
    · simp [hfresh side, hwl]

theorem Rebuilding.run {z z' : Rebuild} {rs : List Record} (h : Rebuilding z) (hr : z.run rs = .ok z') : Rebuilding z' := by
  induction rs generalizing z with
  | nil =>
    cases hr
    exact h
  | cons r rs ih =>
    simp only [Rebuild.run] at hr
    cases hz : z.record r with
    | error d => simp [hz] at hr
    | ok z₁ => exact ih (h.record hz) (by simpa [hz] using hr)

/-- The first record alone, not a sentinel (43_tree_codec.md R106). -/
theorem Rebuilding.start {r : Record} {x : Node} (hx : r.node? = some x) :
    Rebuilding ⟨[x], if x.leaf then [] else [0], .left⟩ := by
  obtain ⟨hused, hfresh⟩ := Record.node?_fresh hx
  have hone {n : Nat} {y : Node} (hy : [x][n]? = some y) : n = 0 ∧ x = y := by
    cases n with
    | zero => exact ⟨rfl, by simpa using hy⟩
    | succ n => simp at hy
  refine
    { bound := by simp [Config.nodeCap]
      entries := by simpa [EntriesOk, hused] using fun _ => ⟨hfresh .left, hfresh .right⟩
      above := ?_
      once := by simp [Node.attached_eq_nil hfresh]
      nodup := by cases x.leaf <;> simp
      inside := ?_, vacant := ?_ }
  · intro n y hy i hi
    obtain ⟨rfl, rfl⟩ := hone hy
    rw [Node.eq_null_of_mem_links hfresh hi]
    decide
  · intro n hn
    cases hl : x.leaf <;> simp [hl] at hn
    exact ⟨x, by simp [hn], hl⟩
  · intro side n y hy hl
    obtain ⟨rfl, rfl⟩ := hone hy
    cases side <;> simp [hfresh, Rebuild.waiting, hl]

/-- A reconstruction with no side left open made a tree (43_tree_codec.md R106). -/
theorem Rebuilding.treeOk {z : Rebuild} (h : Rebuilding z) (hq : z.queue = []) :
    TreeOk (tableOfList z.nodes) 0#9 z.nodes.length := by
  have hwait (side : Side) : z.waiting side = [] := by cases side <;> simp [Rebuild.waiting, hq]
  have hlinks : z.nodes.flatMap Node.attached = z.nodes.flatMap Node.links := by
    refine List.flatMap_congr fun x hx => Node.attached_eq_links fun hl side hnull => ?_
    obtain ⟨n, hn⟩ := List.mem_iff_getElem?.mp hx
    simpa [hwait] using (h.vacant side n x hn hl).mp hnull
  exact treeOk_ofList h.bound h.entries (hlinks ▸ h.once) (.inr h.above)

/-- What an accepted record list makes: no entries, or those of a reconstruction with no side left open
(43_tree_codec.md R106). -/
theorem rebuild_ok {R : List Record} {nodes : List Node} (h : rebuild R = .ok nodes) :
    nodes = [] ∨ ∃ z, Rebuilding z ∧ z.queue = [] ∧ z.nodes = nodes := by
  cases R with
  | nil => exact .inl (by simpa [rebuild] using h.symm)
  | cons r rs =>
    unfold rebuild at h
    cases hr : r.node? with
    | none =>
      simp only [hr] at h
      split at h <;> cases h
      exact .inl rfl
    | some x =>
      simp only [hr] at h
      cases hz : Rebuild.run ⟨[x], if x.leaf then [] else [0], .left⟩ rs with
      | error d => simp [hz] at h
      | ok z =>
        simp only [hz] at h
        split at h <;> cases h
        next hq => exact .inr ⟨z, (Rebuilding.start hr).run hz, List.isEmpty_iff.mp hq, rfl⟩

/-- `DES_END` accepts trees alone (43_tree_codec.md R106, R107). -/
theorem deserialize_tree {B : List Byte} {nodes : List Node} (h : deserialize B = .ok nodes) :
    EntriesOk nodes ∧ TreeOk (tableOfList nodes) (if nodes.isEmpty then Config.null else 0#9) nodes.length := by
  unfold deserialize at h
  cases hR : scan B with
  | error d => simp [hR] at h
  | ok R =>
    rcases rebuild_ok (by simpa [hR] using h) with rfl | ⟨z, hz, hq, rfl⟩
    · exact ⟨nofun, treeOk_empty⟩
    · have hne : z.nodes ≠ [] := fun e => by simpa [e] using hz.once.length_eq
      rw [if_neg (by simpa using hne)]
      exact ⟨hz.entries, hz.treeOk hq⟩

end Sys2Proof.Machine
end

section
/-!
PROOFS, 10_state.md. Reset values and what every step keeps: the command stream, the tables, the tree, the codes, the
session, the ports; and the paths of a tree.
-/

namespace Sys2Proof.Machine

/-! ### The command stream and the ports (R21, R47, R49) -/

/-- `u` differs from `s` neither in the command stream nor at the ports, but for words emitted. -/
def StreamKept (s u : State) : Prop :=
  u.cmdq = s.cmdq ∧ u.turns = s.turns ∧ u.cmdOffer = s.cmdOffer ∧ u.sent = s.sent ∧ u.outHeld = s.outHeld ∧
    ∃ ws, Emits s u ws

theorem StreamKept.of_eq {s u : State} (hc : u.cmdq = s.cmdq) (ht : u.turns = s.turns) (ho : u.cmdOffer = s.cmdOffer)
    (hs : u.sent = s.sent) (hh : u.outHeld = s.outHeld) (hq : u.outq = s.outq) : StreamKept s u :=
  ⟨hc, ht, ho, hs, hh, [], by simp [Emits, hq]⟩

theorem BitFrame.streamKept {s u : State} (h : BitFrame s u) : StreamKept s u := by
  obtain ⟨_, _, ws, rfl⟩ := h
  exact ⟨rfl, rfl, rfl, rfl, rfl, ws, rfl⟩

theorem Effect.streamKept {s u : State} (h : Effect s u) : StreamKept s u := by
  cases h with
  | emits ws => exact ⟨rfl, rfl, rfl, rfl, rfl, ws, rfl⟩
  | abort =>
    rw [State.abortSession_frame]
    exact .of_eq rfl rfl rfl rfl rfl rfl
  | encSym sym _ _ => exact ⟨rfl, rfl, rfl, rfl, rfl, _, rfl⟩
  | encEnd padding ws _ => exact ⟨rfl, rfl, rfl, rfl, rfl, ws, rfl⟩
  | decByte b p _ _ hb => exact (BitFrame.of_ok hb).streamKept
  | decByteFails b p _ _ hb => exact (BitFrame.of_raised hb).streamKept
  | decEnd _ _ _ ws _ _ => exact ⟨rfl, rfl, rfl, rfl, rfl, ws, rfl⟩
  | _ => exact .of_eq rfl rfl rfl rfl rfl rfl

theorem exec_streamKept {i : Instr} {s t : State} (h : exec i s = .next t) : StreamKept s t := by
  obtain ⟨u, r, hu, rfl⟩ := exec_effect h
  exact hu.streamKept

theorem InvPorts.of_streamKept {s u : State} (h : StreamKept s u) (hs : InvPorts s) : InvPorts u := by
  obtain ⟨-, -, -, -, hheld, ws, hq⟩ := h
  intro hu
  rw [hq]
  exact List.append_ne_nil_of_left_ne_nil (hs (hheld ▸ hu)) ws

theorem InvPorts.outputPort (s : State) (e : Edge) : InvPorts (s.outputPort e) := by
  unfold State.outputPort
  split
  · exact nofun
  · intro h
    have : (!s.outq.isEmpty) = true := (Bool.and_eq_true_iff.mp h).2
    simpa using this

theorem step_keeps_invPorts {s t : State} (hs : InvPorts s) (h : step s = .next t) : InvPorts t := by
  rcases step_next h with ⟨ts, rfl⟩ | ⟨e, ts, rfl⟩ | ⟨ts, rfl⟩ | ⟨ws, ts, u, r, hu, rfl⟩
  · exact nofun
  · exact .outputPort _ e
  · exact hs
  · exact InvPorts.of_streamKept (s := { s with cmdq := ws, turns := ts }) hu.streamKept hs

/-! ### The three tables (R36, R37, R39) -/

theorem framed_invTables : Framed InvTables := by
  rintro s _ ⟨_, _, _, _, _, _, _, _, rfl⟩ h
  exact h

theorem tableWf_nil {α : Type} (d : α) (size : Nat) : TableWf d size [] := ⟨.nil, nofun⟩

theorem invTables_reset : InvTables State.reset := ⟨tableWf_nil _ _, tableWf_nil _ _, tableWf_nil _ _⟩

/-- A table of used entries has the canonical form. -/
theorem tableWf_nodes {l : List Node} (hl : l.length ≤ Config.nodeCap) (h : EntriesOk l) :
    TableWf Node.cleared Config.nodeCap (tableOfList l) := by
  refine tableOfList_wf _ _ l hl fun x hx e => ?_
  have := (h x hx).1
  rw [e] at this
  exact absurd this (by decide)

theorem tableWf_codeTable (T : CodeMap) : TableWf CodeEntry.cleared Config.nsym (codeTable T) := by
  refine tableOfSymbols_wf _ _ fun x v hv => ?_
  obtain ⟨p, -, rfl⟩ := Option.map_eq_some_iff.mp hv
  exact CodeEntry.ofBits_ne_cleared p

theorem tableWf_deriveCodes {nodes : List (Nat × Node)} {root : NodeIx} {codes : List (Nat × CodeEntry)}
    (h : deriveCodes nodes root = .ok codes) : TableWf CodeEntry.cleared Config.nsym codes := by
  unfold deriveCodes at h
  split at h
  · cases h
    exact tableWf_nil _ _
  · split at h <;> cases h
    exact tableWf_codeTable _

theorem Effect.keeps_invTables {s u : State} (h : Effect s u) (hs : InvTables s) : InvTables u := by
  obtain ⟨hfreq, hnodes, hcodes⟩ := hs
  cases h with
  | reset => exact invTables_reset
  | abort =>
    rw [State.abortSession_frame]
    exact ⟨hfreq, hnodes, hcodes⟩
  | freqClr _ => exact ⟨tableWf_nil _ _, hnodes, hcodes⟩
  | freqAdd sym n _ _ => exact ⟨State.setFreq_wf s sym _ hfreq, hnodes, hcodes⟩
  | buildEmpty _ _ => exact ⟨hfreq, tableWf_nil _ _, tableWf_nil _ _⟩
  | build _ hl => exact ⟨hfreq, tableWf_nodes (length_mergeAll_le hl) (merging_mergeAll s.freq).entries, tableWf_nil _ _⟩
  | derive _ _ hd => exact ⟨hfreq, hnodes, tableWf_deriveCodes hd⟩
  | deriveDup _ _ => exact ⟨hfreq, hnodes, tableWf_nil _ _⟩
  | desBegin _ => exact ⟨hfreq, tableWf_nil _ _, tableWf_nil _ _⟩
  | desEnd _ hd =>
    obtain ⟨hentries, htree⟩ := deserialize_tree hd
    exact ⟨hfreq, tableWf_nodes htree.bound hentries, hcodes⟩
  | decByte b p _ _ hb =>
    obtain ⟨_, _, _, rfl⟩ := BitFrame.of_ok hb
    exact ⟨hfreq, hnodes, hcodes⟩
  | decByteFails b p _ _ hb =>
    obtain ⟨_, _, _, rfl⟩ := BitFrame.of_raised hb
    exact ⟨hfreq, hnodes, hcodes⟩
  | _ => exact ⟨hfreq, hnodes, hcodes⟩

/-! ### The tree (R28, R38) -/

theorem framed_invTree : Framed InvTree := by
  rintro s _ ⟨_, _, _, _, _, _, _, _, rfl⟩ h
  exact h

theorem invTree_reset : InvTree State.reset := ⟨rfl, rfl, rfl⟩

theorem invTree_valid {s : State} (hv : s.treeValid = true) (h : InvTree s) : TreeOk s.nodes s.root s.nodeCount.toNat := by
  simpa [InvTree, hv] using h

/-- A tree just accepted. -/
theorem invTree_setTree {s : State} {nodes : List (Nat × Node)} {root : NodeIx} {k : Nat} (h : TreeOk nodes root k) :
    InvTree (s.setTree nodes root (BitVec.ofNat 10 k)) := by
  have hk : (BitVec.ofNat 10 k).toNat = k := by
    have := h.bound
    simp only [Config.nodeCap] at this
    rw [BitVec.toNat_ofNat]
    omega
  show TreeOk nodes root (BitVec.ofNat 10 k).toNat
  rwa [hk]

/-- BUILD, DES_END, DES_BEGIN and RESET write the node table; every other command leaves it alone. -/
theorem Effect.keeps_invTree {s u : State} (h : Effect s u) (hs : InvTree s) : InvTree u := by
  cases h with
  | reset => exact invTree_reset
  | abort =>
    rw [State.abortSession_frame]
    exact hs
  | buildEmpty _ _ => exact invTree_setTree treeOk_empty
  | build _ hl => exact invTree_setTree (treeOk_build hl)
  | desBegin _ => exact ⟨rfl, rfl, rfl⟩
  | desEnd _ hd => exact invTree_setTree (deserialize_tree hd).2
  | decByte b p _ _ hb =>
    obtain ⟨_, _, _, rfl⟩ := BitFrame.of_ok hb
    exact hs
  | decByteFails b p _ _ hb =>
    obtain ⟨_, _, _, rfl⟩ := BitFrame.of_raised hb
    exact hs
  | _ => exact hs

/-! ### The session (R22, R34, R41 to R43) -/

theorem framed_invSession : Framed InvSession := by
  rintro s _ ⟨_, _, _, _, _, _, _, _, rfl⟩ h
  exact h

theorem invSession_reset : InvSession State.reset := ⟨rfl, rfl, rfl, rfl⟩

/-- PTR is ROOT or an internal entry of the tree (44_bitstream.md R119). -/
def State.PtrInTree (s : State) : Prop :=
  s.ptr = s.root ∨ (s.ptr.toNat < s.nodeCount.toNat ∧ (nodeIn s.nodes s.ptr).leaf = false)

theorem invSession_idle {s : State} (hm : s.mode = .idle) :
    InvSession s ↔ s.acc = [] ∧ s.pend = none ∧ s.sessFailed = false ∧ s.desBuf = [] := by simp [InvSession, hm]

theorem invSession_des {s : State} (hm : s.mode = .des) :
    InvSession s ↔ s.acc = [] ∧ s.pend = none ∧ s.sessFailed = false ∧
      s.treeValid = false ∧ s.root = Config.null ∧ s.nodeCount = 0#10 ∧ s.codesValid = false := by simp [InvSession, hm]

theorem invSession_enc {s : State} (hm : s.mode = .enc) :
    InvSession s ↔ s.pend = none ∧ s.sessFailed = false ∧ s.desBuf = [] ∧ s.codesValid = true ∧ s.padding = 0#3 ∧
      s.acc.length ≤ 7 ∧ s.acc.length = s.encBits.toNat % 8 := by simp [InvSession, hm]

theorem invSession_dec {s : State} (hm : s.mode = .dec) :
    InvSession s ↔ s.acc = [] ∧ s.desBuf = [] ∧ s.treeValid = true ∧ s.PtrInTree ∧
      (if s.sessFailed then s.pend = none ∧ codeOf s.sessErr ≠ 0#8 else s.sessErr = 0#32) := by
  simp [InvSession, hm, State.PtrInTree]

/-- A step of an internal root goes back to the root, or down to an internal child of the entry at PTR. -/
theorem State.walkStep_ptr {s u : State} {bit : Bool} (h : s.walkStep bit = .ok u) :
    u.ptr = s.root ∨ ((nodeIn s.nodes u.ptr).leaf = false ∧
      (u.ptr = (nodeIn s.nodes s.ptr).left ∨ u.ptr = (nodeIn s.nodes s.ptr).right)) := by
  unfold State.walkStep at h
  split at h
  · cases h
  · next x hx =>
    obtain ⟨-, rfl⟩ := nodeAt?_cases hx
    generalize hc : (if bit then (nodeIn s.nodes s.ptr).right else (nodeIn s.nodes s.ptr).left) = c at h
    dsimp only at h
    split at h
    · cases h
    · next y hy =>
      obtain ⟨-, rfl⟩ := nodeAt?_cases hy
      split at h <;> cases h
      · exact .inl rfl
      · next hl => exact .inr ⟨Bool.eq_false_of_not_eq_true hl, by cases bit <;> simp [← hc]⟩

/-- Bit steps keep PTR inside the tree. -/
theorem State.PtrInTree.bitStep {s u : State} {bit : Bool} (ht : TreeOk s.nodes s.root s.nodeCount.toNat)
    (hs : s.PtrInTree) (h : s.bitStep bit = .ok u) : u.PtrInTree := by
  have hu := BitFrame.bitStep (BitFrame.refl s) h
  unfold State.bitStep at h
  split at h
  · cases h
  next x hx =>
  obtain ⟨hroot, rfl⟩ := nodeAt?_cases hx
  split at h
  · unfold State.singleLeafStep at h
    split at h <;> cases h
    exact hs
  next hl =>
  have hl : (nodeIn s.nodes s.root).leaf = false := Bool.eq_false_of_not_eq_true hl
  obtain ⟨hin, hinternal⟩ : s.ptr.toNat < s.nodeCount.toNat ∧ (nodeIn s.nodes s.ptr).leaf = false := by
    rcases hs with hs | hs
    · exact hs ▸ ⟨ht.rootIn (mt ht.empty.mpr hroot), hl⟩
    · exact hs
  obtain ⟨hleft, hright⟩ := ht.internal _ hin hinternal
  have hptr := State.walkStep_ptr h
  obtain ⟨ptr, _, _, rfl⟩ := hu
  rcases hptr with hr | ⟨hc, rfl | rfl⟩
  · exact .inl hr
  · exact .inr ⟨hleft, hc⟩
  · exact .inr ⟨hright, hc⟩

theorem BitFrame.treeOk {s t : State} (h : BitFrame s t) (ht : TreeOk s.nodes s.root s.nodeCount.toNat) :
    TreeOk t.nodes t.root t.nodeCount.toNat := by
  obtain ⟨_, _, _, rfl⟩ := h
  exact ht

/-- Where the bits of a byte end, PTR is inside the tree. -/
theorem State.PtrInTree.bitSteps {s : State} (ht : TreeOk s.nodes s.root s.nodeCount.toNat) (hs : s.PtrInTree) (bs : Bits) :
    (s.bitSteps bs).EndsIn State.PtrInTree := by
  have hkeep := State.bitSteps_keeps (P := fun t => BitFrame s t ∧ t.PtrInTree)
    (fun t _ u ⟨hf, hp⟩ h => ⟨hf.bitStep h, hp.bitStep (hf.treeOk ht) h⟩) ⟨.refl s, hs⟩ bs
  exact hkeep.mono fun _ => And.right

theorem codeOf_underrun (opc : Byte) (r : Underrun) : codeOf (errResult opc (.underrun r)) ≠ 0#8 := by
  rw [codeOf_errResult]
  exact (by decide : 0x03#8 ≠ 0#8)

/-- The number of bits left in ACC goes with ENC_BITS (44_bitstream.md R115). -/
theorem State.length_pack_acc_mod {s : State} (e : CodeEntry) (h : s.acc.length = s.encBits.toNat % 8) :
    (s.pack e).acc.length = (s.pack e).encBits.toNat % 8 := by
  rw [State.length_pack_acc, State.pack_encBits, BitVec.toNat_add, BitVec.toNat_setWidth]
  omega

theorem Effect.keeps_invSession {s u : State} (h : Effect s u) (ht : InvTree s) (hs : InvSession s) : InvSession u := by
  cases h with
  | reset => exact invSession_reset
  | abort =>
    cases hm : s.mode with
    | idle => simpa [State.abortSession, hm] using hs
    | des =>
      obtain ⟨hacc, hpend, hfailed, -⟩ := (invSession_des hm).mp hs
      simp [State.abortSession, hm, InvSession, hacc, hpend, hfailed]
    | enc =>
      obtain ⟨hpend, hfailed, hbuf, -⟩ := (invSession_enc hm).mp hs
      simp [State.abortSession, hm, InvSession, hpend, hfailed, hbuf]
    | dec =>
      obtain ⟨hacc, hbuf, -⟩ := (invSession_dec hm).mp hs
      simp [State.abortSession, hm, InvSession, hacc, hbuf]
  | buildEmpty hm _ | build hm _ | derive hm _ _ | deriveDup hm _ =>
    exact Iff.mpr (invSession_idle hm) ((invSession_idle hm).mp hs)
  | desBegin hm =>
    obtain ⟨hacc, hpend, hfailed, -⟩ := (invSession_idle hm).mp hs
    exact ⟨hacc, hpend, hfailed, rfl, rfl, rfl, rfl⟩
  | desByte b hm => exact Iff.mpr (invSession_des hm) ((invSession_des hm).mp hs)
  | desMalformed hm | desEnd hm _ =>
    obtain ⟨hacc, hpend, hfailed, -⟩ := (invSession_des hm).mp hs
    exact ⟨hacc, hpend, hfailed, rfl⟩
  | encBegin hm hv =>
    obtain ⟨-, hpend, hfailed, hbuf⟩ := (invSession_idle hm).mp hs
    exact ⟨hpend, hfailed, hbuf, hv, rfl, Nat.zero_le 7, rfl⟩
  | encSym sym hm _ =>
    obtain ⟨hpend, hfailed, hbuf, hv, hpad, hle, hacc⟩ := (invSession_enc hm).mp hs
    refine Iff.mpr (invSession_enc hm) ⟨hpend, hfailed, hbuf, hv, hpad, ?_, State.length_pack_acc_mod _ hacc⟩
    rw [State.length_pack_acc]
    omega
  | encEnd padding ws hm =>
    obtain ⟨hpend, hfailed, hbuf, -⟩ := (invSession_enc hm).mp hs
    exact ⟨rfl, hpend, hfailed, hbuf⟩
  | decBegin pad hm hv =>
    obtain ⟨hacc, hpend, hfailed, hbuf⟩ := (invSession_idle hm).mp hs
    exact ⟨hacc, hbuf, hv, .inl rfl, rfl⟩
  | decFirst b hm hf =>
    obtain ⟨hacc, hbuf, hv, hptr, herr⟩ := (invSession_dec hm).mp hs
    exact Iff.mpr (invSession_dec hm) ⟨hacc, hbuf, hv, hptr, by simpa [hf] using herr⟩
  | decByte b p hm hf hb =>
    obtain ⟨hacc, hbuf, hv, hptr, herr⟩ := (invSession_dec hm).mp hs
    have hptr := State.PtrInTree.bitSteps (s := { s with pend := some b }) (invTree_valid hv ht) hptr (expand p)
    rw [hb] at hptr
    obtain ⟨_, _, _, rfl⟩ := BitFrame.of_ok hb
    exact Iff.mpr (invSession_dec hm) ⟨hacc, hbuf, hv, hptr, by simpa [hf] using herr⟩
  | decByteFails b p hm hf hb =>
    obtain ⟨hacc, hbuf, hv, hptr, herr⟩ := (invSession_dec hm).mp hs
    have hptr := State.PtrInTree.bitSteps (s := { s with pend := some b }) (invTree_valid hv ht) hptr (expand p)
    rw [hb] at hptr
    obtain ⟨r, rfl⟩ := State.bitSteps_raised hb
    obtain ⟨_, _, _, rfl⟩ := BitFrame.of_raised hb
    exact Iff.mpr (invSession_dec hm) ⟨hacc, hbuf, hv, hptr, rfl, codeOf_underrun _ r⟩
  | decEndFailed hm hf =>
    obtain ⟨hacc, hbuf, hv, hptr, herr⟩ := (invSession_dec hm).mp hs
    rw [if_pos hf] at herr
    exact ⟨hacc, herr.1, rfl, hbuf⟩
  | decEnd ptr decSyms sessErr ws hm hf =>
    obtain ⟨hacc, hbuf, -⟩ := (invSession_dec hm).mp hs
    exact ⟨hacc, rfl, hf, hbuf⟩
  | _ => exact hs

/-! ### The codes (R40) -/

theorem framed_invCodes : Framed InvCodes := by
  rintro s _ ⟨_, _, _, _, _, _, _, _, rfl⟩ h
  exact h

theorem invCodes_cleared {s : State} (hv : s.codesValid = false) : InvCodes s ↔ s.codes = [] := by simp [InvCodes, hv]

/-- The node table changes only where the codes are cleared, or stand cleared. -/
theorem Effect.keeps_invCodes {s u : State} (h : Effect s u) (hsess : InvSession s) (hs : InvCodes s) : InvCodes u := by
  cases h with
  | reset => exact rfl
  | abort =>
    rw [State.abortSession_frame]
    exact hs
  | buildEmpty _ _ | build _ _ | deriveDup _ _ | desBegin _ => exact rfl
  | derive _ hv hd => exact ⟨hv, hd⟩
  | desEnd hm _ =>
    obtain ⟨-, -, -, -, -, -, hv⟩ := (invSession_des hm).mp hsess
    exact Iff.mpr (invCodes_cleared hv) ((invCodes_cleared hv).mp hs)
  | decByte b p _ _ hb =>
    obtain ⟨_, _, _, rfl⟩ := BitFrame.of_ok hb
    exact hs
  | decByteFails b p _ _ hb =>
    obtain ⟨_, _, _, rfl⟩ := BitFrame.of_raised hb
    exact hs
  | _ => exact hs

/-! ### The counts and the results at reset -/

theorem freqSum_nil : freqSum [] = 0 := by simp [freqSum, tableGet]

theorem freqCount_nil : freqCount [] = 0 := by simp [freqCount, presentSymbols, tableGet]

theorem legalResult_zero : LegalResult 0#32 := by unfold LegalResult; decide

/-! ### The paths of a tree (R38) -/

/-- The child that a path bit goes to. -/
def Node.step (x : Node) (bit : Bool) : NodeIx := if bit then x.right else x.left

theorem Node.mem_links {x : Node} {i : NodeIx} : i ∈ x.links ↔ x.leaf = false ∧ ∃ bit, i = x.step bit := by
  cases hl : x.leaf <;> simp [Node.links, Node.step, hl, or_comm]

/-- The sides of an internal entry that names two different children. -/
theorem Node.step_inj {x : Node} (hl : x.leaf = false) (hx : x.links.Nodup) {a b : Bool}
    (h : x.step a = x.step b) : a = b := by
  have hne : x.left ≠ x.right := by simpa [Node.links_of_internal hl] using hx
  cases a <;> cases b
  · rfl
  · exact absurd h hne
  · exact absurd h.symm hne
  · rfl

theorem childLinks_eq (nodes : List (Nat × Node)) (k : Nat) :
    childLinks nodes k = (List.range k).flatMap fun n => (tableGet Node.cleared nodes n).links := rfl

theorem step_mem_childLinks {nodes : List (Nat × Node)} {k : Nat} {i : NodeIx} (hi : i.toNat < k)
    (hl : (nodeIn nodes i).leaf = false) (bit : Bool) : (nodeIn nodes i).step bit ∈ childLinks nodes k :=
  List.mem_flatMap.mpr ⟨i.toNat, List.mem_range.mpr hi, Node.mem_links.mpr ⟨hl, bit, rfl⟩⟩

/-- A path ends at the root, or goes by its last bit from an internal entry to a child. -/
theorem pathTo_cases {nodes : List (Nat × Node)} {root i : NodeIx} {p : Bits} (h : PathTo nodes root i p) :
    (i = root ∧ p = []) ∨
    ∃ j q bit, PathTo nodes root j q ∧ (nodeIn nodes j).leaf = false ∧ i = (nodeIn nodes j).step bit ∧ p = q ++ [bit] := by
  cases h with
  | root => exact .inl ⟨rfl, rfl⟩
  | left hj hl => exact .inr ⟨_, _, false, hj, hl, rfl, rfl⟩
  | right hj hl => exact .inr ⟨_, _, true, hj, hl, rfl, rfl⟩

theorem PathTo.step {nodes : List (Nat × Node)} {root i : NodeIx} {p : Bits} (h : PathTo nodes root i p)
    (hl : (nodeIn nodes i).leaf = false) (bit : Bool) : PathTo nodes root ((nodeIn nodes i).step bit) (p ++ [bit]) := by
  cases bit with
  | false => exact h.left hl
  | true => exact h.right hl

section
variable {nodes : List (Nat × Node)} {root : NodeIx} {k : Nat} (ht : TreeOk nodes root k)
include ht

/-- A path stays inside a tree that is not empty. -/
theorem PathTo.inside (hk : k ≠ 0) {i : NodeIx} {p : Bits} (h : PathTo nodes root i p) : i.toNat < k := by
  induction h with
  | root => exact ht.rootIn hk
  | left _ hl ih => exact (ht.internal _ ih hl).1
  | right _ hl ih => exact (ht.internal _ ih hl).2

/-- Every entry but the root is the child of an internal entry. -/
theorem TreeOk.exists_parent {i : NodeIx} (hi : i.toNat < k) (hr : i ≠ root) :
    ∃ (j : NodeIx) (bit : Bool), j.toNat < k ∧ (nodeIn nodes j).leaf = false ∧ i = (nodeIn nodes j).step bit := by
  have hmem : i ∈ childLinks nodes k := by
    rcases ht.parented _ hi with h | h
    · exact absurd (BitVec.eq_of_toNat_eq h) hr
    · obtain ⟨j, hj, he⟩ := List.mem_map.mp h
      exact BitVec.eq_of_toNat_eq he ▸ hj
  obtain ⟨n, hn, hi⟩ := List.mem_flatMap.mp (childLinks_eq nodes k ▸ hmem)
  have hn : n < k := List.mem_range.mp hn
  have hj : (BitVec.ofNat 9 n).toNat = n := toNat_newIndex (hn.trans_le ht.bound)
  obtain ⟨hl, bit, hi⟩ := Node.mem_links.mp hi
  rw [← hj, ← nodeIn_eq] at hl hi
  exact ⟨BitVec.ofNat 9 n, bit, hj.symm ▸ hn, hl, hi⟩

/-- Both orders of log entry 10 rank a child after its parent. -/
theorem TreeOk.exists_rank : ∃ rank : Nat → Nat, ∀ j : NodeIx, j.toNat < k → (nodeIn nodes j).leaf = false →
    ∀ bit, rank j.toNat < rank ((nodeIn nodes j).step bit).toNat := by
  rcases ht.ordered with h | h
  · refine ⟨fun n => k - n, fun j hj hl bit => ?_⟩
    have hchild : ((nodeIn nodes j).step bit).toNat < j.toNat := by
      cases bit with
      | false => exact (h _ hj hl).1
      | true => exact (h _ hj hl).2
    dsimp only
    omega
  · refine ⟨id, fun j hj hl bit => ?_⟩
    cases bit with
    | false => exact (h _ hj hl).1
    | true => exact (h _ hj hl).2

/-- Every entry of a tree is reached (R38), by induction on its rank. -/
theorem TreeOk.exists_path {i : NodeIx} (hi : i.toNat < k) : ∃ p, PathTo nodes root i p := by
  obtain ⟨rank, hrank⟩ := ht.exists_rank
  induction hr : rank i.toNat using Nat.strongRecOn generalizing i with
  | ind r ih =>
    by_cases hroot : i = root
    · exact ⟨[], hroot ▸ .root⟩
    · obtain ⟨j, bit, hj, hl, rfl⟩ := ht.exists_parent hi hroot
      obtain ⟨p, hp⟩ := ih _ (hr ▸ hrank j hj hl bit) hj rfl
      exact ⟨p ++ [bit], hp.step hl bit⟩

/-- An entry is the child of one entry on one side. -/
theorem TreeOk.step_inj {i j : NodeIx} {a b : Bool} (hi : i.toNat < k) (hj : j.toNat < k)
    (hil : (nodeIn nodes i).leaf = false) (hjl : (nodeIn nodes j).leaf = false)
    (h : (nodeIn nodes i).step a = (nodeIn nodes j).step b) : i = j ∧ a = b := by
  have hnodup := (List.nodup_cons.mp ht.oneParent).2
  rw [childLinks_eq, List.nodup_flatMap] at hnodup
  obtain ⟨heach, hdisjoint⟩ := hnodup
  have hij : i = j := by
    by_contra hne
    have : Std.Symm (Function.onFun List.Disjoint fun n => (tableGet Node.cleared nodes n).links) := ⟨fun _ _ h => h.symm⟩
    exact hdisjoint.forall (List.mem_range.mpr hi) (List.mem_range.mpr hj)
      (fun e => hne (BitVec.eq_of_toNat_eq e)) (Node.mem_links.mpr ⟨hil, a, rfl⟩) (Node.mem_links.mpr ⟨hjl, b, h⟩)
  subst hij
  exact ⟨rfl, Node.step_inj hil (heach _ (List.mem_range.mpr hi)) h⟩

/-- The root is no entry's child. -/
theorem TreeOk.step_ne_root {i : NodeIx} (hi : i.toNat < k) (hl : (nodeIn nodes i).leaf = false) (bit : Bool) :
    (nodeIn nodes i).step bit ≠ root := fun h =>
  (List.nodup_cons.mp ht.oneParent).1 (h ▸ step_mem_childLinks hi hl bit)

/-- No entry of a tree is reached by two paths (R38), by induction on the first path from its last bit. -/
theorem PathTo.unique (hk : k ≠ 0) {i : NodeIx} {p q : Bits} (hp : PathTo nodes root i p) (hq : PathTo nodes root i q) :
    p = q := by
  induction p using List.reverseRecOn generalizing i q with
  | nil =>
    obtain ⟨rfl, -⟩ : i = root ∧ _ := (pathTo_cases hp).resolve_right fun ⟨_, _, _, _, _, _, h⟩ => by simp at h
    rcases pathTo_cases hq with ⟨-, rfl⟩ | ⟨j, q, b, hj, hl, hroot, -⟩
    · rfl
    · exact absurd hroot.symm (ht.step_ne_root (hj.inside ht hk) hl b)
  | append_singleton p a ih =>
    rcases pathTo_cases hp with ⟨-, h⟩ | ⟨i', p', a', hi, hil, rfl, h⟩
    · simp at h
    obtain ⟨rfl, rfl⟩ : p = p' ∧ a = a' := by simpa using h
    rcases pathTo_cases hq with ⟨hroot, -⟩ | ⟨j, q, b, hj, hjl, hstep, rfl⟩
    · exact absurd hroot (ht.step_ne_root (hi.inside ht hk) hil a)
    · obtain ⟨rfl, rfl⟩ := ht.step_inj (hi.inside ht hk) (hj.inside ht hk) hil hjl hstep
      rw [ih hi hj]

end

/-! ### The obligations -/

/-- Settles O22: only BUILD and DES_END make a node table, and what they make is a tree. In both, the root and the children
named so far are the indices made so far, each once; BUILD keeps that up at every merge with the active set as roots, DES_END
at every record with the unfilled sides left out. -/
theorem stepKeepsTree : Obligations.StepKeepsTree := fun _ _ hs h =>
  step_keeps framed_invTree framed_invTree (fun _ => id) invTree_reset (fun _ _ => Effect.keeps_invTree) hs h

/-- Settles O8, by the effects of the commands. -/
theorem commandsLeaveTheStreamAlone : Obligations.CommandsLeaveTheStreamAlone := fun _ _ _ => exec_streamKept

/-- Settles O20: a write keeps the canonical form, and the tables made whole have it, since every entry of a tree is used and
every derived code is valid. -/
theorem stepKeepsTables : Obligations.StepKeepsTables := fun _ _ hs h =>
  step_keeps framed_invTables framed_invTables (fun _ => id) invTables_reset (fun _ _ => Effect.keeps_invTables) hs h

/-- Settles O23: a command that writes the node table clears the codes, but for DES_END, in whose session they stand
cleared. -/
theorem stepKeepsCodes : Obligations.StepKeepsCodes := fun _ _ hsess hs h =>
  step_keeps (framed_invSession.and framed_invCodes) framed_invCodes (fun _ => And.right) rfl
    (fun _ _ he hs => he.keeps_invCodes hs.1 hs.2) ⟨hsess, hs⟩ h

/-- Settles O24: the session mode by mode, with PTR kept inside the tree by every bit step; and the output port, which raises
`out_valid` only over a word, while no command takes a word away. -/
theorem stepKeepsSession : Obligations.StepKeepsSession := by
  refine ⟨fun _ _ ht hs h => ?_, fun s ht hs hm => ?_, fun _ _ => step_keeps_invPorts⟩
  · exact step_keeps (framed_invTree.and framed_invSession) framed_invSession (fun _ => And.right) invSession_reset
      (fun _ _ he hs => he.keeps_invSession hs.1 hs.2) ⟨ht, hs⟩ h
  · obtain ⟨-, -, hv, hptr, -⟩ := (invSession_dec hm).mp hs
    exact hptr.imp_right fun ⟨hin, hl⟩ => ⟨(invTree_valid hv ht).used _ hin, hl⟩

/-- Settles O25: a path exists by induction on the order of the indices, and is the only one since every entry is the child
of one entry on one side. -/
theorem treeReachesEveryEntry : Obligations.TreeReachesEveryEntry := fun _ _ _ ht =>
  ⟨fun _ hi => ht.exists_path hi, fun _ _ _ hi hp hq => hp.unique ht (Nat.ne_zero_of_lt hi) hq⟩

/-- Settles O18: each value is the field of the reset state. -/
theorem resetValues : Obligations.ResetValues :=
  ⟨rfl, rfl, rfl, rfl, rfl, rfl, rfl, rfl, rfl, rfl, rfl, rfl, rfl, rfl, rfl, rfl, fun _ => rfl, fun _ => rfl, fun _ => rfl,
    rfl, rfl, rfl, rfl, rfl, rfl⟩

/-- Settles O19: the three tables are empty, no tree and no session is held, and no result is recorded. -/
theorem resetMeetsInvariants : Obligations.ResetMeetsInvariants :=
  ⟨invTables_reset, ⟨freqSum_nil.symm, freqCount_nil.symm⟩, invTree_reset, rfl, invSession_reset,
    ⟨legalResult_zero, legalResult_zero, legalResult_zero⟩, nofun⟩

end Sys2Proof.Machine
end

section
/-!
PROOFS, 20_memory.md. The two ports and the order of steps (R47 to R50, 60_exceptions.md R156), and the order of the bits in a
byte (R52).
-/

namespace Sys2Proof

/-! ### Lines (30_encoding.md R75) -/

theorem operandsFit_cons {v n : Nat} {vs ns : List Nat} (hv : v < n) (hvs : operandsFit vs ns = true) :
    operandsFit (v :: vs) (n :: ns) = true := by simp [operandsFit, hv, hvs]

/-- Every command's operands stand at their fields' widths, so its line is well formed (30_encoding.md R70, R75). -/
theorem Instr.wellFormed_eq_true (i : Instr) : i.wellFormed = true := by
  cases i with
  | mark imm => exact operandsFit_cons imm.isLt rfl
  | freqAdd s n => exact operandsFit_cons s.isLt (operandsFit_cons n.isLt rfl)
  | rdNode idx => exact operandsFit_cons idx.isLt rfl
  | rdCode s k => exact operandsFit_cons s.isLt (operandsFit_cons k.isLt rfl)
  | desByte x | encSym x | decBegin x | decByte x | rdReg x | rdFreq x | rdClen x => exact operandsFit_cons x.isLt rfl
  | _ => rfl

end Sys2Proof

namespace Sys2Proof.Machine

/-! ### Bytes and bits (R52) -/

theorem bitsValue_concat (b : Bits) (x : Bool) : bitsValue (b ++ [x]) = Nat.bit x (bitsValue b) := by
  simp [bitsValue, Nat.bit_val]

/-- The digits of a bit string's number, the last bit first. -/
theorem testBit_bitsValue (b : Bits) (i : Nat) : (bitsValue b).testBit i = b.reverse.getD i false := by
  induction b using List.reverseRecOn generalizing i with
  | nil => simp [bitsValue]
  | append_singleton b x ih =>
    rw [bitsValue_concat, List.reverse_concat]
    cases i with
    | zero => simp
    | succ i => rw [Nat.testBit_bit_succ, ih, List.getD_cons_succ]

/-- Bit 7 − j of a byte is bit j of its group. -/
theorem byteOf_getLsbD {b : Bits} (hb : b.length = 8) {j : Nat} (hj : j < 8) :
    (byteOf b).getLsbD (7 - j) = b.getD j false := by
  have hdigit : (byteOf b).getLsbD (7 - j) = b.reverse.getD (7 - j) false := by
    rw [byteOf, BitVec.getLsbD_ofNat, testBit_bitsValue, decide_eq_true (by omega), Bool.true_and]
  rw [hdigit, List.getD_eq_getElem?_getD, List.getElem?_reverse (by omega), List.getD_eq_getElem?_getD,
    show b.length - 1 - (7 - j) = j by omega]

theorem byteOf_expand (p : Byte) : byteOf (expand p) = p := by
  refine BitVec.eq_of_getLsbD_eq fun i hi => ?_
  have hbit := byteOf_getLsbD (length_expand p) (j := 7 - i) (by omega)
  rw [List.getD_eq_getElem _ _ (by simp; omega), expand_getElem p _ (by omega)] at hbit
  rwa [show 7 - (7 - i) = i by omega] at hbit

theorem expand_byteOf {b : Bits} (hb : b.length = 8) : expand (byteOf b) = b := by
  refine List.ext_getElem (by simp [hb]) fun j _ hj => ?_
  rw [expand_getElem _ j (hb ▸ hj), byteOf_getLsbD hb (hb ▸ hj), List.getD_eq_getElem _ _ hj]

/-! ### Steps by the next turn (R49, 60_exceptions.md R156) -/

theorem step_of_execute {s t : State} {w : Word} {i : Instr} (hn : s.nextTurn = .execute w t) (hd : decode w = .ok i) :
    step s = exec i t := by simp [step, hn, hd]

theorem step_of_idle {s t : State} (hn : s.nextTurn = .idle t) : step s = .next t := by simp [step, hn]

theorem step_of_edge {s : State} {e : Edge} {ts : List Turn} (h : s.turns = .edge e :: ts) :
    step s = clockEdge e { s with turns := ts } := by simp [step, State.nextTurn_edge h]

/-! ### The command port (R50) -/

/-- A host that keeps its offered word is one that the edge does not refuse (70_reset_and_hazards.md R168). -/
theorem State.offerKept_iff {s : State} {e : Edge} :
    s.offerKept e = true ↔ ∀ w, s.cmdOffer = some w → e.cmdValid = true ∧ e.cmdData = w := by
  unfold State.offerKept
  cases s.cmdOffer <;> simp

theorem clockEdge_of_kept {s : State} {e : Edge} (hr : e.rst = false) (hk : s.offerKept e = true) :
    clockEdge e s = .next ((s.commandPort e).outputPort e) := by simp [clockEdge, hr, hk]

/-- With `rst` low the command port accepts the word when valid and ready are high, and else remembers an offer. -/
theorem State.commandPort_eq {s : State} {e : Edge} (hr : e.rst = false) : s.commandPort e =
    { s with
      cmdq := if e.cmdValid && e.cmdReady then s.cmdq ++ [e.cmdData] else s.cmdq
      cmdOffer := if e.cmdValid && !e.cmdReady then some e.cmdData else none } := by
  cases hv : e.cmdValid <;> cases hd : e.cmdReady <;>
    simp [State.commandPort, Edge.cmdTransfer, Edge.cmdReadyPin, hr, hv, hd]

/-! ### The output port (R47, R50) -/

theorem State.outputPort_of_transfer {s : State} {e : Edge} (h : s.outTransfer e = true) : s.outputPort e =
    { s with sent := s.sent ++ s.outq.take 1, outq := s.outq.drop 1, outHeld := false } := if_pos h

theorem State.outputPort_of_not_transfer {s : State} {e : Edge} (h : s.outTransfer e = false) : s.outputPort e =
    { s with outHeld := s.outValidPin e } := if_neg (Bool.eq_false_iff.mp h)

/-- With `rst` low the front word, once offered, is handed over when the host is ready, and else held. -/
theorem State.outputPort_offered {s : State} {e : Edge} {w : OutWord} {rest : List OutWord} (hr : e.rst = false)
    (hq : s.outq = w :: rest) (hv : (e.outValid || s.outHeld) = true) : s.outputPort e =
    if e.outReady then { s with sent := s.sent ++ [w], outq := rest, outHeld := false } else { s with outHeld := true } := by
  have hpin : s.outValidPin e = true := by simp [State.outValidPin, hr, hq, hv]
  cases hready : e.outReady with
  | true =>
    rw [State.outputPort_of_transfer (by simp [State.outTransfer, hready, hpin])]
    simp [hq]
  | false =>
    rw [State.outputPort_of_not_transfer (by simp [State.outTransfer, hready]), hpin]
    rfl

/-- With no word, or none offered, nothing is handed over and nothing held. -/
theorem State.outputPort_quiet {s : State} {e : Edge} (h : s.outq = [] ∨ (e.outValid || s.outHeld) = false) :
    s.outputPort e = { s with outHeld := false } := by
  have hpin : s.outValidPin e = false := by rcases h with h | h <;> simp [State.outValidPin, h]
  rw [State.outputPort_of_not_transfer (by simp [State.outTransfer, hpin]), hpin]

/-- At an edge the two ports act side by side: neither reads what the other writes. -/
theorem State.ports_eq {s : State} {e : Edge} (hr : e.rst = false) : (s.commandPort e).outputPort e =
    { s with
      cmdq := if e.cmdValid && e.cmdReady then s.cmdq ++ [e.cmdData] else s.cmdq
      cmdOffer := if e.cmdValid && !e.cmdReady then some e.cmdData else none
      sent := (s.outputPort e).sent
      outq := (s.outputPort e).outq
      outHeld := (s.outputPort e).outHeld } := by
  rw [State.commandPort_eq hr]
  cases h : s.outTransfer e with
  | true =>
    rw [State.outputPort_of_transfer h]
    exact State.outputPort_of_transfer h
  | false =>
    rw [State.outputPort_of_not_transfer h]
    exact State.outputPort_of_not_transfer h

/-- A transfer moves a word inside the output sequence (R47). -/
@[simp] theorem State.outputPort_output (s : State) (e : Edge) : (s.outputPort e).output = s.output := by
  cases h : s.outTransfer e with
  | true => rw [State.outputPort_of_transfer h, State.output, List.append_assoc, List.take_append_drop, State.output]
  | false => rw [State.outputPort_of_not_transfer h, State.output, State.output]

@[simp] theorem State.commandPort_output (s : State) (e : Edge) : (s.commandPort e).output = s.output := by
  unfold State.commandPort
  split <;> rfl

/-- The reset pin drops the words not yet transferred (70_reset_and_hazards.md R160). -/
@[simp] theorem State.pinReset_output (s : State) : s.pinReset.output = s.sent := by simp [State.output, State.reset]

/-- A command only appends to the output sequence (R47). -/
theorem StreamKept.output {s u : State} (h : StreamKept s u) : ∃ ws, u.output = s.output ++ ws := by
  obtain ⟨-, -, -, hsent, -, ws, hq⟩ := h
  exact ⟨ws, by rw [State.output, hsent, hq, State.output, List.append_assoc]⟩

theorem illegalWord_streamKept {w : Word} {e : Illegal} {s t : State} (h : illegalWord w e s = .next t) :
    StreamKept s t := by
  obtain ⟨u, r, hu, rfl⟩ := illegalWord_effect h
  exact hu.streamKept

/-! ### The obligations -/

/-- Settles O9: a command or an illegal word only emits, and an edge moves words inside the sequence, but for the reset pin. -/
theorem outputSequenceOnlyGrows : Obligations.OutputSequenceOnlyGrows := by
  intro s t h
  rcases step_cases s with ⟨e, ts, ht, h'⟩ | ⟨ts, -, -, h'⟩ | ⟨ts, w, ws, i, -, -, -, h'⟩ | ⟨ts, w, ws, e, -, -, -, h'⟩ <;>
    rw [h'] at h
  · rcases clockEdge_cases e { s with turns := ts } with ⟨hr, he⟩ | ⟨-, -, he⟩ | ⟨-, -, he⟩ <;> rw [he] at h <;> cases h
    · exact .inr ⟨e, ts, ht, hr, State.pinReset_output _⟩
    · refine .inl ⟨[], ?_⟩
      rw [State.outputPort_output, State.commandPort_output, List.append_nil]
      rfl
  · cases h
    exact .inl ⟨[], by simp [State.output]⟩
  · exact .inl (exec_streamKept h).output
  · exact .inl (illegalWord_streamKept h).output

/-- Settles O51: the number of a bit string has the string's bits as its digits, the last bit first. -/
theorem byteOrderIsMsbFirst : Obligations.ByteOrderIsMsbFirst :=
  ⟨byteOf_expand, fun _ => expand_byteOf, fun _ _ hb hj => byteOf_getLsbD hb hj⟩

/-- Settles O7: the next turn with none listed is that of `.run`, and an empty command queue makes it idle. -/
theorem stepRunsTheDecodedCommand : Obligations.StepRunsTheDecodedCommand := by
  refine ⟨fun s w ws i hq hd => ⟨Instr.wellFormed_eq_true i, fun ht => ?_, fun ts ht => ?_⟩, fun s hq ht => ?_,
    fun s ts hq ht => ?_⟩
  · exact step_of_execute ((State.nextTurn_nil ht).trans (State.takeCommand_cons hq)) hd
  · exact step_of_execute ((State.nextTurn_run ht).trans (State.takeCommand_cons hq)) hd
  · exact step_of_idle ((State.nextTurn_nil ht).trans (State.takeCommand_nil hq))
  · exact step_of_idle ((State.nextTurn_run ht).trans (State.takeCommand_nil hq))

/-- Settles O11: with `rst` low and the offer kept, the edge is what the two ports do side by side. -/
theorem edgeTransfersNeedValidAndReady : Obligations.EdgeTransfersNeedValidAndReady := by
  intro s e ts ht hr hkept
  have hstep := (step_of_edge ht).trans (clockEdge_of_kept hr (State.offerKept_iff.mpr hkept))
  rw [State.ports_eq hr] at hstep
  refine ⟨_, hstep, rfl, rfl, fun w rest hq hv => ?_, fun hquiet => ?_, rfl⟩
  · rw [State.outputPort_offered (s := { s with turns := ts }) hr hq hv]
    split <;> exact ⟨rfl, rfl, rfl⟩
  · rw [State.outputPort_quiet (s := { s with turns := ts }) hquiet]
    exact ⟨rfl, rfl, rfl⟩

end Sys2Proof.Machine
end

section
/-!
PROOFS, 30_encoding.md. The encoding of commands: a word is its opcode and its argument, a format reserves the argument's bits
above its operands, and the decoder undoes the encoder (R63 to R73); the words of assembler lines (R75).
-/

namespace Sys2Proof

/-! ### The two parts of a word (R63) -/

theorem opcField_append_immField (w : Word) : opcField w ++ immField w = w := BitVec.extractLsb'_append_extractLsb'

theorem word_ext_iff {v w : Word} : v = w ↔ opcField v = opcField w ∧ immField v = immField w := by
  refine ⟨fun h => ⟨congrArg opcField h, congrArg immField h⟩, fun ⟨hopc, harg⟩ => ?_⟩
  rw [← opcField_append_immField v, hopc, harg, opcField_append_immField]

theorem opcField_and (v w : Word) : opcField (v &&& w) = opcField v &&& opcField w := BitVec.extractLsb'_and

theorem immField_and (v w : Word) : immField (v &&& w) = immField v &&& immField w := BitVec.extractLsb'_and

/-! ### The reserved bits (R64 to R69, R73) -/

/-- How many of the argument's bits a format's operands take; the bits above them are reserved. -/
def Format.argWidth : Format → Nat
  | .Z => 0
  | .B => 8
  | .N => 9
  | .C => 11
  | .F | .M => 24

theorem Format.reserved_eq (f : Format) : f.reserved = (BitVec.allOnes 24 >>> f.argWidth <<< f.argWidth).setWidth 32 := by
  cases f <;> rfl

theorem Format.getLsbD_reserved (f : Format) (j : Nat) :
    f.reserved.getLsbD j = (decide (f.argWidth ≤ j) && decide (j < 24)) := by
  rw [Format.reserved_eq, Bool.eq_iff_iff]
  simp only [BitVec.getLsbD_setWidth, BitVec.getLsbD_shiftLeft, BitVec.getLsbD_ushiftRight, BitVec.getLsbD_allOnes,
    Bool.and_eq_true, Bool.not_eq_true', decide_eq_true_eq, decide_eq_false_iff_not]
  omega

/-- A word meets a format when each bit that the format reserves is 0. -/
theorem Format.and_reserved_eq_zero_iff {f : Format} {w : Word} :
    w &&& f.reserved = 0#32 ↔ ∀ j, f.argWidth ≤ j → j < 24 → w.getLsbD j = false := by
  refine ⟨fun h j hlo hhi => ?_, fun h => BitVec.eq_of_getLsbD_eq fun j _ => ?_⟩
  · have hbit := congrArg (·.getLsbD j) h
    simpa [Format.getLsbD_reserved, hlo, hhi] using hbit
  · have hreserved : f.reserved.getLsbD j = true → w.getLsbD j = false := by
      simpa [Format.getLsbD_reserved] using h j
    cases hj : f.reserved.getLsbD j <;> simp [hj, hreserved]

/-- `word & mask = match` says that the opcode is the row's and the reserved bits are 0 (R71). -/
theorem and_mask_eq_pattern_iff {op : Opcode} {w : Word} :
    w &&& op.mask = op.pattern ↔ opcField w = op.byte ∧ w &&& op.format.reserved = 0#32 := by
  have hmask : opcField op.mask = BitVec.allOnes 8 ∧ immField op.mask = immField op.format.reserved := by
    cases op <;> exact ⟨rfl, rfl⟩
  have hpattern : opcField op.pattern = op.byte ∧ immField op.pattern = 0#24 := by cases op <;> exact ⟨rfl, rfl⟩
  have hreserved : opcField op.format.reserved = 0#8 := by cases op <;> rfl
  have hzero : opcField 0#32 = 0#8 ∧ immField 0#32 = 0#24 := ⟨rfl, rfl⟩
  simp only [word_ext_iff, opcField_and, immField_and, hmask, hpattern, hreserved, hzero, BitVec.and_allOnes,
    BitVec.and_zero, true_and]

/-! ### Operands in their fields (R64 to R70) -/

/-- A command read from a word has the word's argument, but for the reserved bits. -/
theorem arg_withOperands (op : Opcode) (w : Word) :
    (op.withOperands w).arg = (w.extractLsb' 0 op.format.argWidth).setWidth 24 := by
  cases op with
  | desByte | encSym | decBegin | decByte | rdReg | rdFreq | rdClen | rdNode => rfl
  | mark => exact (BitVec.setWidth_eq _).symm
  | freqAdd => exact (BitVec.extractLsb'_append_extractLsb'_eq_extractLsb' rfl).trans (BitVec.setWidth_eq _).symm
  | rdCode => exact congrArg (BitVec.setWidth 24) (BitVec.extractLsb'_append_extractLsb'_eq_extractLsb' (x := w) rfl)
  | _ => exact congrArg (BitVec.setWidth 24) (BitVec.of_length_zero (x := w.extractLsb' 0 0)).symm

/-- Without a 1 in a reserved bit the argument is its operands' bits. -/
theorem setWidth_extract_eq_immField {f : Format} {w : Word} (h : w &&& f.reserved = 0#32) :
    (w.extractLsb' 0 f.argWidth).setWidth 24 = immField w := by
  refine BitVec.eq_of_getLsbD_eq fun j hj => ?_
  have hreserved : f.argWidth ≤ j → w.getLsbD j = false := fun hlo => Format.and_reserved_eq_zero_iff.mp h j hlo hj
  by_cases hlo : f.argWidth ≤ j
  · simp [immField, hj, hreserved hlo]
  · simp [immField, hj, not_le.mp hlo]

/-- An operand at the low end of the argument is read back whole. -/
theorem extract_setWidth {k : Nat} (x : BitVec k) (hk : k ≤ 24) : (x.setWidth 24).extractLsb' 0 k = x :=
  (BitVec.extractLsb'_setWidth_of_le (by omega)).trans BitVec.extractLsb'_eq_self

/-- The operands read from a command's own word are its operands. -/
@[simp] theorem withOperands_encode (i : Instr) : i.opcode.withOperands (encode i) = i := by
  have hbyte : byteField (encode i) = i.arg.extractLsb' 0 8 := extract_encode i 0 8 (by omega)
  cases i with
  | mark imm => exact congrArg Instr.mark BitVec.extractLsb'_append_eq_right
  | freqAdd s n =>
    have hcount : countField (encode (.freqAdd s n)) = n :=
      (extract_encode _ 8 16 (by omega)).trans BitVec.extractLsb'_append_eq_left
    exact congrArg₂ Instr.freqAdd (hbyte.trans BitVec.extractLsb'_append_eq_right) hcount
  | rdNode idx => exact congrArg Instr.rdNode ((extract_encode _ 0 9 (by omega)).trans (extract_setWidth idx (by omega)))
  | rdCode s k =>
    have hk : kField (encode (.rdCode s k)) = k :=
      (extract_encode _ 8 3 (by omega)).trans
        ((BitVec.extractLsb'_setWidth_of_le (by omega)).trans BitVec.extractLsb'_append_eq_left)
    have hs : ((k ++ s).setWidth 24).extractLsb' 0 8 = s :=
      (BitVec.extractLsb'_setWidth_of_le (by omega)).trans BitVec.extractLsb'_append_eq_right
    exact congrArg₂ Instr.rdCode (hbyte.trans hs) hk
  | desByte x | encSym x | decBegin x | decByte x | rdReg x | rdFreq x | rdClen x =>
    exact congrArg _ (hbyte.trans (extract_setWidth x (by omega)))
  | _ => rfl

/-! ### Decoding (R71 to R73) -/

open Laws in
/-- Every command's word meets its row of the opcode table. -/
theorem encode_and_mask (i : Instr) : encode i &&& i.opcode.mask = i.opcode.pattern := by
  cases i with
  | nop => exact MeetsRow.nop
  | reset => exact MeetsRow.reset
  | clrErr => exact MeetsRow.clrErr
  | abort => exact MeetsRow.abort
  | mark imm => exact MeetsRow.mark imm
  | freqClr => exact MeetsRow.freqClr
  | freqAdd s n => exact MeetsRow.freqAdd s n
  | build => exact MeetsRow.build
  | derive => exact MeetsRow.derive
  | ser => exact MeetsRow.ser
  | desBegin => exact MeetsRow.desBegin
  | desByte b => exact MeetsRow.desByte b
  | desEnd => exact MeetsRow.desEnd
  | encBegin => exact MeetsRow.encBegin
  | encSym s => exact MeetsRow.encSym s
  | encEnd => exact MeetsRow.encEnd
  | decBegin pad => exact MeetsRow.decBegin pad
  | decByte b => exact MeetsRow.decByte b
  | decEnd => exact MeetsRow.decEnd
  | rdReg r => exact MeetsRow.rdReg r
  | rdFreq s => exact MeetsRow.rdFreq s
  | rdNode idx => exact MeetsRow.rdNode idx
  | rdClen s => exact MeetsRow.rdClen s
  | rdCode s k => exact MeetsRow.rdCode s k

/-- A word that meets an opcode's row is a command of that opcode. -/
theorem decode_of_meets {op : Opcode} {w : Word} (h : w &&& op.mask = op.pattern) : decode w = .ok (op.withOperands w) := by
  obtain ⟨hopc, hreserved⟩ := and_mask_eq_pattern_iff.mp h
  simp [decode, hopc, hreserved]

@[simp] theorem decode_encode (i : Instr) : decode (encode i) = .ok i := by
  rw [decode_of_meets (encode_and_mask i), withOperands_encode]

theorem encode_of_decode {w : Word} {i : Instr} (h : decode w = .ok i) : encode i = w := by
  rcases decode_cases w with ⟨-, hd⟩ | ⟨op, -, -, hd⟩ | ⟨op, hopc, hreserved, hd⟩ <;> rw [hd] at h <;> cases h
  calc encode (op.withOperands w)
      = op.byte ++ (w.extractLsb' 0 op.format.argWidth).setWidth 24 := by
        rw [encode, opcode_withOperands, arg_withOperands]
    _ = opcField w ++ immField w := by rw [byte_of_opcodeOfByte hopc, setWidth_extract_eq_immField hreserved]
    _ = w := opcField_append_immField w

theorem opcodeOfByte_eq_none_iff {b : Byte} : opcodeOfByte b = none ↔ ∀ op : Opcode, op.byte ≠ b := by
  refine ⟨fun h op hb => ?_, fun h => Option.eq_none_iff_forall_ne_some.mpr fun op hb => h op (byte_of_opcodeOfByte hb)⟩
  simp [← hb] at h

theorem decode_of_unknown {w : Word} (h : ∀ op : Opcode, op.byte ≠ opcField w) : decode w = .error .unknownOpcode := by
  simp [decode, opcodeOfByte_eq_none_iff.mpr h]

theorem decode_of_reserved {w : Word} {op : Opcode} {j : Nat} (hopc : opcField w = op.byte)
    (hlo : op.format.argWidth ≤ j) (hhi : j < 24) (hj : w.getLsbD j = true) : decode w = .error (.reservedBits op) := by
  have hreserved : w &&& op.format.reserved ≠ 0#32 := fun h => by
    simp [Format.and_reserved_eq_zero_iff.mp h j hlo hhi] at hj
  simp [decode, hopc, hreserved]

/-! ### Lines (R75) -/

/-- A command's line is its mnemonic and operands that make its argument. -/
theorem Instr.line_eq (i : Instr) :
    ∃ operands, i.line = .command i.opcode operands ∧ i.opcode.format.argOf operands = i.arg := by
  cases i with
  | mark imm => exact ⟨_, rfl, BitVec.ofNat_toNat 24 imm⟩
  | freqAdd s n => exact ⟨_, rfl, by simp [Instr.opcode, Opcode.format, Format.argOf, Instr.arg]⟩
  | rdCode s k => exact ⟨_, rfl, by simp [Instr.opcode, Opcode.format, Format.argOf, Instr.arg]⟩
  | desByte x | encSym x | decBegin x | decByte x | rdReg x | rdFreq x | rdClen x | rdNode x =>
    exact ⟨_, rfl, BitVec.ofNat_toNat 24 x⟩
  | _ => exact ⟨_, rfl, rfl⟩

theorem assemble_line (i : Instr) : assemble i.line = some (encode i) := by
  obtain ⟨operands, hline, harg⟩ := i.line_eq
  have hwf : i.line.wellFormed = true := i.wellFormed_eq_true
  rw [hline] at hwf ⊢
  simp [assemble, hwf, harg, encode]

theorem operandsFit_iff {vs ns : List Nat} : operandsFit vs ns = true ↔ List.Forall₂ (· < ·) vs ns := by
  induction vs generalizing ns with
  | nil => cases ns <;> simp [operandsFit]
  | cons v vs ih => cases ns <;> simp [operandsFit, ih]

/-- The assembler refuses operands of which one does not fit its field. -/
theorem assemble_eq_none {op : Opcode} {operands : List Nat}
    (h : ¬ List.Forall₂ (· < ·) operands op.operandSizes) : assemble (.command op operands) = none := by
  rw [← operandsFit_iff] at h
  simp [assemble, AsmLine.wellFormed, h]

theorem operandSizes_of_format_B {op : Opcode} (h : op.format = .B) : op.operandSizes = [256] := by
  cases op with
  | desByte | encSym | decBegin | decByte | rdReg | rdFreq | rdClen => rfl
  | _ => cases h

end Sys2Proof

namespace Sys2Proof.Machine

/-! ### A step of an illegal word (R72, R73) -/

theorem step_of_illegal {s u : State} {w : Word} {e : Illegal} (hn : s.nextTurn = .execute w u) (hd : decode w = .error e) :
    step s = illegalWord w e u := by simp [step, hn, hd]

/-- Recording an error's result word is raising it. -/
theorem raises_record {s u : State} (opc : Byte) (c : Cause) (herr : u.err = s.err) :
    Raises opc c s (u.record (errResult opc c)) :=
  ⟨rfl, by rw [State.record_err, codeOf_errResult, herr, State.record_last]⟩

/-! ### The obligations -/

/-- Settles O2: a word is its opcode and its argument, and the decoder reads each operand from the bits the encoder puts it in. -/
theorem decodeAndEncodeAgree : Obligations.DecodeAndEncodeAgree :=
  ⟨fun i => ⟨i.wellFormed_eq_true, decode_encode i⟩, fun _ _ => encode_of_decode⟩

/-- Settles O3: a decoded word is a command's own word, which meets its row. -/
theorem wordSpellsByMaskAndMatch : Obligations.WordSpellsByMaskAndMatch := by
  refine fun w op => ⟨?_, fun h => ⟨_, decode_of_meets h, opcode_withOperands op w⟩⟩
  rintro ⟨i, hd, rfl⟩
  rw [← encode_of_decode hd]
  exact encode_and_mask i

/-- Settles O4: a line's operands are refused exactly when one is not below its field's size. -/
theorem assemblerAgreesWithEncoder : Obligations.AssemblerAgreesWithEncoder := by
  refine ⟨assemble_line, fun op b hf hb => ?_, fun s n h => ?_, fun idx h => ?_, fun s k h => ?_, fun imm h => ?_⟩ <;>
    refine assemble_eq_none ?_
  · rw [operandSizes_of_format_B hf, List.forall₂_cons]
    omega
  all_goals
    simp only [Opcode.operandSizes, List.forall₂_cons]
    omega

/-- Settles O5: the opcode bytes are the 24 that the rule's ranges leave out, and recording a result writes LAST and ERR alone. -/
theorem unknownOpcodeIsIllegal : Obligations.UnknownOpcodeIsIllegal := by
  refine ⟨fun b => ?_, by decide +kernel, fun s u w hn hopc => ?_⟩
  · rw [← opcodeOfByte_eq_none_iff]
    revert b
    decide +kernel
  · have hstep := step_of_illegal hn (decode_of_unknown hopc)
    rw [illegalWord_next] at hstep
    exact ⟨_, hstep, raises_record _ _ rfl, rfl⟩

/-- Settles O6: a read opcode's zero responses are emitted before the result word is recorded. -/
theorem reservedBitsAreIllegal : Obligations.ReservedBitsAreIllegal := by
  intro s u w op j hn hopc hlo hhi hj
  have hwidth : op.format.argWidth ≤ j := by
    revert hlo
    cases op.format <;> exact id
  have hstep := step_of_illegal hn (decode_of_reserved hopc hwidth hhi hj)
  rw [illegalWord_next, hopc] at hstep
  refine ⟨_, hstep, raises_record _ _ rfl, ?_, rfl⟩
  rw [Emits, State.record_outq, State.respondZeros_outq]
  cases op <;> rfl

/-- Settles O1: each word is evaluated. -/
theorem specWordsDecode : Obligations.SpecWordsDecode := by
  unfold Obligations.SpecWordsDecode
  decide

end Sys2Proof.Machine
end

section
/-!
PROOFS, 40_frequency.md. A write to `FREQ` changes one entry of the sum and of the number of non-zero entries (R80); what
FREQ_CLR and FREQ_ADD do to the counts (R77, R78); and that the canonical table is determined by its counts (R79).
-/

namespace Sys2Proof.Machine

/-! ### A table in canonical form is its entries -/

section
variable {α : Type} {d : α} {size : Nat} {t u : List (Nat × α)}

/-- A table in canonical form lists an entry exactly when the index holds it and it is no reset value. -/
theorem TableWf.mem_iff (h : TableWf d size t) {p : Nat × α} : p ∈ t ↔ p.2 ≠ d ∧ tableGet d t p.1 = p.2 := by
  refine ⟨fun hp => ⟨(h.2 p hp).2, tableGet_of_mem d t h.1 hp⟩, fun ⟨hd, hget⟩ => ?_⟩
  have hmem := tableGet_mem d t p.1 (hget.symm ▸ hd)
  rwa [hget] at hmem

/-- Two tables in canonical form with the same entries are one table. -/
theorem TableWf.ext (ht : TableWf d size t) (hu : TableWf d size u)
    (h : ∀ k < size, tableGet d t k = tableGet d u k) : t = u := by
  have : Std.Irrefl fun a b : Nat × α => a.1 < b.1 := ⟨fun a => Nat.lt_irrefl a.1⟩
  have : Std.Antisymm fun a b : Nat × α => a.1 < b.1 := ⟨fun _ _ hab hba => absurd hab (Nat.lt_asymm hba)⟩
  refine ht.1.eq_of_mem_iff hu.1 fun p => ⟨fun hp => ?_, fun hp => ?_⟩
  · exact hu.mem_iff.mpr (h p.1 (ht.2 p hp).1 ▸ ht.mem_iff.mp hp)
  · exact ht.mem_iff.mpr (h p.1 (hu.2 p hp).1 ▸ hu.mem_iff.mp hp)

/-- A write changes a sum over all entries by the weight of the one entry it writes. -/
theorem sum_tableGet_put [DecidableEq α] (weight : α → Nat) (h : TableWf d size t) {k : Nat} (hk : k < size) (v : α) :
    ∑ n ∈ Finset.range size, weight (tableGet d (tablePut d t k v) n) + weight (tableGet d t k) =
      ∑ n ∈ Finset.range size, weight (tableGet d t n) + weight v := by
  have hk : k ∈ Finset.range size := Finset.mem_range.mpr hk
  have hrest : ∑ n ∈ (Finset.range size).erase k, weight (tableGet d (tablePut d t k v) n) =
      ∑ n ∈ (Finset.range size).erase k, weight (tableGet d t n) :=
    Finset.sum_congr rfl fun n hn => by rw [tableGet_put_other d t k n v h.1 (Finset.ne_of_mem_erase hn)]
  rw [← Finset.sum_erase_add _ _ hk, ← Finset.sum_erase_add _ _ hk, hrest, tableGet_put_same d t k v h.1]
  omega

end

theorem InvFreqTable.setFreq {s : State} (h : InvFreqTable s) (sym : Byte) (v : Word) : InvFreqTable (s.setFreq sym v) :=
  State.setFreq_wf s sym v h

/-- Equal counts are equal tables. -/
theorem InvFreqTable.ext {s t : State} (hs : InvFreqTable s) (ht : InvFreqTable t)
    (h : ∀ sym, s.freqAt sym = t.freqAt sym) : s.freq = t.freq := by
  refine TableWf.ext hs ht fun k hk => ?_
  have hat := h (BitVec.ofNat 8 k)
  rwa [State.freqAt, State.freqAt, BitVec.toNat_ofNat, Nat.mod_eq_of_lt (show k < 2 ^ 8 from hk)] at hat

/-! ### The sum and the number of the counts (R80) -/

theorem freqSum_eq_sum (freq : List (Nat × Word)) :
    freqSum freq = ∑ n ∈ Finset.range Config.nsym, (tableGet 0#32 freq n).toNat := rfl

theorem freqCount_eq_sum (freq : List (Nat × Word)) :
    freqCount freq = ∑ n ∈ Finset.range Config.nsym, if tableGet 0#32 freq n ≠ 0#32 then 1 else 0 := by
  rw [← Finset.card_filter, freqCount, presentSymbols]
  exact congrArg List.length (List.filter_congr fun n _ => by simp [bne, beq_eq_decide])

theorem freqCount_le (freq : List (Nat × Word)) : freqCount freq ≤ 256 :=
  (List.length_filter_le _ _).trans (by simp [Config.nsym])

theorem freqAt_le_freqSum (s : State) (sym : Byte) : (s.freqAt sym).toNat ≤ freqSum s.freq := by
  rw [freqSum_eq_sum]
  exact Finset.single_le_sum (f := fun n => (tableGet 0#32 s.freq n).toNat) (fun _ _ => Nat.zero_le _)
    (Finset.mem_range.mpr sym.isLt)

theorem freqSum_setFreq {s : State} (h : InvFreqTable s) (sym : Byte) (v : Word) :
    freqSum (s.setFreq sym v).freq + (s.freqAt sym).toNat = freqSum s.freq + v.toNat :=
  sum_tableGet_put BitVec.toNat h sym.isLt v

theorem freqCount_setFreq {s : State} (h : InvFreqTable s) (sym : Byte) (v : Word) :
    freqCount (s.setFreq sym v).freq + (if s.freqAt sym ≠ 0#32 then 1 else 0) =
      freqCount s.freq + if v ≠ 0#32 then 1 else 0 := by
  rw [freqCount_eq_sum, freqCount_eq_sum]
  exact sum_tableGet_put (fun x => if x ≠ 0#32 then 1 else 0) h sym.isLt v

/-! ### Counting more occurrences (R78) -/

section
variable {s : State} {sym : Byte} {n : BitVec 16}

theorem State.count_frame (s : State) (sym : Byte) (n : BitVec 16) : s.count sym n =
    { s with freq := (s.count sym n).freq, total := (s.count sym n).total, distinct := (s.count sym n).distinct } := rfl

theorem State.count_freq (s : State) (sym : Byte) (n : BitVec 16) :
    (s.count sym n).freq = (s.setFreq sym (s.freqAt sym + n.setWidth 32)).freq := rfl

@[simp] theorem State.count_total (s : State) (sym : Byte) (n : BitVec 16) :
    (s.count sym n).total = s.total + n.setWidth 32 := rfl

theorem State.count_distinct (s : State) (sym : Byte) (n : BitVec 16) : (s.count sym n).distinct =
    if n ≠ 0#16 ∧ s.freqAt sym = 0#32 then s.distinct + 1#9 else s.distinct := rfl

theorem InvFreqTable.count (h : InvFreqTable s) (sym : Byte) (n : BitVec 16) : InvFreqTable (s.count sym n) :=
  h.setFreq sym _

theorem freqAt_count_same (h : InvFreqTable s) : (s.count sym n).freqAt sym = s.freqAt sym + n.setWidth 32 :=
  s.freqAt_setFreq_same sym _ h

theorem freqAt_count_other (h : InvFreqTable s) {sym' : Byte} (hne : sym' ≠ sym) :
    (s.count sym n).freqAt sym' = s.freqAt sym' :=
  s.freqAt_setFreq_other sym sym' _ h hne

/-- Counting adds one word to the symbol's count and none to the others, so the order of two countings is no matter. -/
theorem freqAt_count (h : InvFreqTable s) (x : Byte) :
    (s.count sym n).freqAt x = s.freqAt x + if x = sym then n.setWidth 32 else 0#32 := by
  split
  · next hx => rw [hx, freqAt_count_same h]
  · next hx => rw [freqAt_count_other h hx, BitVec.add_zero]

/-- An increment of 0 changes nothing (R78). -/
theorem State.count_zero (h : InvFreqTable s) : s.count sym 0#16 = s := by
  have hfreq : (s.count sym 0#16).freq = s.freq := (h.count sym 0#16).ext h fun x => by simp [freqAt_count h]
  rw [State.count_frame, hfreq, State.count_total, State.count_distinct]
  simp

theorem toNat_count_total (sym : Byte) (hn : s.total.toNat + n.toNat ≤ 4294967295) :
    (s.count sym n).total.toNat = s.total.toNat + n.toNat := by
  rw [State.count_total, BitVec.toNat_add, BitVec.toNat_setWidth]
  omega

theorem toNat_count_distinct (hc : InvCounts s) : (s.count sym n).distinct.toNat =
    s.distinct.toNat + if n ≠ 0#16 ∧ s.freqAt sym = 0#32 then 1 else 0 := by
  have := freqCount_le s.freq
  obtain ⟨-, hdistinct⟩ := hc
  rw [State.count_distinct]
  split
  · rw [BitVec.toNat_add, BitVec.toNat_ofNat]
    omega
  · rfl

/-- No count wraps, since none exceeds TOTAL (R78, R80). -/
theorem toNat_freqAt_add (hc : InvCounts s) (hn : s.total.toNat + n.toNat ≤ 4294967295) :
    (s.freqAt sym + n.setWidth 32).toNat = (s.freqAt sym).toNat + n.toNat := by
  have := freqAt_le_freqSum s sym
  obtain ⟨htotal, -⟩ := hc
  rw [BitVec.toNat_add, BitVec.toNat_setWidth]
  omega

/-- A count with an exact increment is 0 only if both are. -/
theorem freqAt_add_eq_zero (hc : InvCounts s) (hn : s.total.toNat + n.toNat ≤ 4294967295) :
    s.freqAt sym + n.setWidth 32 = 0#32 ↔ s.freqAt sym = 0#32 ∧ n = 0#16 := by
  simp only [← BitVec.toNat_inj, toNat_freqAt_add hc hn, BitVec.toNat_ofNat]
  omega

theorem InvCounts.count (ht : InvFreqTable s) (hc : InvCounts s) (hn : s.total.toNat + n.toNat ≤ 4294967295) :
    InvCounts (s.count sym n) := by
  have hsum := freqSum_setFreq ht sym (s.freqAt sym + n.setWidth 32)
  have hcount := freqCount_setFreq ht sym (s.freqAt sym + n.setWidth 32)
  have ⟨htotal, hdistinct⟩ := hc
  rw [toNat_freqAt_add hc hn] at hsum
  simp only [ne_eq, freqAt_add_eq_zero hc hn] at hcount
  refine ⟨?_, ?_⟩
  · rw [toNat_count_total sym hn, State.count_freq, htotal]
    omega
  · rw [toNat_count_distinct hc, State.count_freq, hdistinct]
    by_cases hf : s.freqAt sym = 0#32 <;> simpa [hf] using hcount.symm

end

/-! ### Every step (R80) -/

theorem framed_invFreqTable : Framed InvFreqTable := by
  rintro s _ ⟨_, _, _, _, _, _, _, _, rfl⟩ h
  exact h

theorem framed_invCounts : Framed InvCounts := by
  rintro s _ ⟨_, _, _, _, _, _, _, _, rfl⟩ h
  exact h

theorem invCounts_empty {s : State} (hf : s.freq = []) (ht : s.total = 0#32) (hd : s.distinct = 0#9) : InvCounts s := by
  rw [InvCounts, hf, ht, hd]
  exact ⟨freqSum_nil.symm, freqCount_nil.symm⟩

/-- RESET, FREQ_CLR and FREQ_ADD write the counts; every other command leaves them alone. -/
theorem Effect.keeps_invCounts {s u : State} (h : Effect s u) (ht : InvFreqTable s) (hs : InvCounts s) : InvCounts u := by
  cases h with
  | reset => exact invCounts_empty rfl rfl rfl
  | abort =>
    rw [State.abortSession_frame]
    exact hs
  | freqClr _ => exact invCounts_empty rfl rfl rfl
  | freqAdd sym n _ hn => exact hs.count ht hn
  | decByte b p _ _ hb =>
    obtain ⟨_, _, _, rfl⟩ := BitFrame.of_ok hb
    exact hs
  | decByteFails b p _ _ hb =>
    obtain ⟨_, _, _, rfl⟩ := BitFrame.of_raised hb
    exact hs
  | _ => exact hs

/-! ### The two commands -/

/-- The state with an empty frequency table (R77). -/
def State.clearFreq (s : State) : State := { s with freq := [], total := 0#32, distinct := 0#9 }

/-- Clearing an empty table changes nothing (R77). -/
theorem State.clearFreq_of_empty {s : State} (ht : InvFreqTable s) (hc : InvCounts s) (h : ∀ sym, s.freqAt sym = 0#32) :
    s.clearFreq = s := by
  have hfreq : s.freq = [] := ht.ext (t := State.reset) (tableWf_nil _ _) h
  obtain ⟨htotal, hdistinct⟩ := hc
  rw [hfreq, freqSum_nil] at htotal
  rw [hfreq, freqCount_nil] at hdistinct
  have htotal : s.total = 0#32 := BitVec.eq_of_toNat_eq htotal
  have hdistinct : s.distinct = 0#9 := BitVec.eq_of_toNat_eq hdistinct
  rw [State.clearFreq, ← hfreq, ← htotal, ← hdistinct]

theorem State.record_okResult (s : State) (opc : Byte) : s.record (okResult opc) = { s with last := okResult opc } := by
  simp [State.record]

theorem exec_freqClr (s : State) : exec .freqClr s = command .freqClr s fun s => .ok s.clearFreq := rfl

theorem exec_freqAdd (sym : Byte) (n : BitVec 16) (s : State) : exec (.freqAdd sym n) s = command .freqAdd s fun s =>
    if s.total.toNat + n.toNat > Config.totalMax then .raised (.freqOverflow sym) s else .ok (s.count sym n) := rfl

theorem exec_freqClr_idle {s : State} (hm : s.mode = .idle) :
    exec .freqClr s = .next { s.clearFreq with last := okResult 0x10#8 } := by
  have ha : admitted .freqClr s.mode = true := beq_iff_eq.mpr hm
  rw [exec_freqClr, command_ok (u := s.clearFreq) ha rfl, State.record_okResult]
  rfl

theorem exec_freqAdd_idle {s : State} (sym : Byte) {n : BitVec 16} (hm : s.mode = .idle)
    (hn : s.total.toNat + n.toNat ≤ 4294967295) :
    exec (.freqAdd sym n) s = .next { s.count sym n with last := okResult 0x11#8 } := by
  have ha : admitted .freqAdd s.mode = true := beq_iff_eq.mpr hm
  rw [exec_freqAdd, command_ok ha (if_neg (Nat.not_lt_of_le hn)), State.record_okResult]
  rfl

/-- Two FREQ_ADD commands with no overflow: the counts are kept, and each count is its old one and the increments for its
symbol. -/
theorem freqAdd_twice {s t u : State} {a b : Byte} {m n : BitVec 16} (hm : s.mode = .idle) (hs : InvFreqTable s)
    (hc : InvCounts s) (hle : s.total.toNat + m.toNat + n.toNat ≤ 4294967295)
    (ht : exec (.freqAdd a m) s = .next t) (hu : exec (.freqAdd b n) t = .next u) :
    InvFreqTable u ∧ InvCounts u ∧ ∀ x, u.freqAt x =
      s.freqAt x + (if x = a then m.setWidth 32 else 0#32) + if x = b then n.setWidth 32 else 0#32 := by
  have hm1 : s.total.toNat + m.toNat ≤ 4294967295 := by omega
  rw [exec_freqAdd_idle a hm hm1] at ht
  cases ht
  have hc1 : InvCounts { s.count a m with last := okResult 0x11#8 } := hc.count hs hm1
  have hs1 : InvFreqTable { s.count a m with last := okResult 0x11#8 } := hs.count a m
  have hn1 : (s.count a m).total.toNat + n.toNat ≤ 4294967295 := by rwa [toNat_count_total a hm1]
  rw [exec_freqAdd_idle (s := { s.count a m with last := okResult 0x11#8 }) b hm hn1] at hu
  cases hu
  exact ⟨hs1.count b n, hc1.count hs1 hn1, fun x =>
    (freqAt_count hs1 x).trans (congrArg (· + _) (freqAt_count hs x))⟩

/-! ### The obligations -/

/-- Settles O21: FREQ_ADD changes one entry, and TOTAL and DISTINCT with it; its check keeps the sum exact. -/
theorem stepKeepsCounts : Obligations.StepKeepsCounts := fun _ _ ht hs h =>
  step_keeps (framed_invFreqTable.and framed_invCounts) framed_invCounts (fun _ => And.right)
    (invCounts_empty rfl rfl rfl) (fun _ _ he hs => he.keeps_invCounts hs.1 hs.2) ⟨ht, hs⟩ h

/-- Settles O30: the increment is exact since no count exceeds TOTAL, and DISTINCT is at most 256. -/
theorem freqAddCounts : Obligations.FreqAddCounts := by
  intro s sym n hm ht hc hn
  refine ⟨_, exec_freqAdd_idle sym hm hn, ⟨rfl, rfl⟩, ?_, fun _ => freqAt_count_other ht, toNat_count_total sym hn,
    toNat_count_distinct hc, ?_, rfl⟩
  · exact (congrArg BitVec.toNat (freqAt_count_same ht)).trans (toNat_freqAt_add hc hn)
  · rintro rfl
    rw [State.count_zero ht]

/-- Settles O32: each count is its old one and both increments, whichever comes first; a table is its counts, and TOTAL and
DISTINCT are the table's. -/
theorem freqAddsCommute : Obligations.FreqAddsCommute := by
  intro s t₁ t₂ u₁ u₂ a b m n hm hs hc hle ht₁ ht₂ hu₁ hu₂
  obtain ⟨htable, ⟨htotal, hdistinct⟩, hat⟩ := freqAdd_twice hm hs hc hle ht₁ ht₂
  obtain ⟨hutable, ⟨hutotal, hudistinct⟩, huat⟩ := freqAdd_twice hm hs hc (by omega) hu₁ hu₂
  have hfreq : t₂.freq = u₂.freq := htable.ext hutable fun x => by rw [hat, huat, add_right_comm]
  refine ⟨hfreq, BitVec.eq_of_toNat_eq ?_, BitVec.eq_of_toNat_eq ?_⟩
  · rw [htotal, hutotal, hfreq]
  · rw [hdistinct, hudistinct, hfreq]

/-- Settles O29: by the table of no entries, which is the only one with no count; in every other mode the mode check
raises. -/
theorem freqClrEmptiesTheTable : Obligations.FreqClrEmptiesTheTable := by
  refine ⟨rfl, fun s hm => ?_, fun s hm => ?_⟩
  · refine ⟨_, exec_freqClr_idle hm, ⟨rfl, rfl⟩, fun _ => rfl, rfl, rfl, rfl, fun ht hc h => ?_⟩
    rw [State.clearFreq_of_empty ht hc h]
  · have ha : admitted .freqClr s.mode = false := beq_eq_false_iff_ne.mpr hm
    rw [exec_freqClr, command_sequence ha]
    exact ⟨_, rfl, raises_record _ _ rfl, rfl⟩

/-- Settles O31: the overflow check comes before any write. -/
theorem freqAddRefusesOverflow : Obligations.FreqAddRefusesOverflow := by
  intro s sym n hm hn
  have ha : admitted .freqAdd s.mode = true := beq_iff_eq.mpr hm
  rw [exec_freqAdd, command_raised ha (if_pos hn)]
  exact ⟨_, rfl, raises_record _ _ rfl, rfl⟩

end Sys2Proof.Machine
end

section
/-!
PROOFS, 41_tree_builder.md. The node order is total, so a merge joins the two least of the active set (R81, R84); which indices
are active at each merge, and what their frequencies sum to (R84, R86); what BUILD leaves (R83, R85, R87, R88).
-/

namespace Sys2Proof.Machine

/-! ### The node order (R81) -/

/-- What the node order compares: frequency first, then index. -/
def QueueEntry.key (x : QueueEntry) : Nat ×ₗ Nat := toLex (x.freq.toNat, x.index.toNat)

/-- What the node order compares of the entry at an index of a node table. -/
def nodeKey (nodes : List (Nat × Node)) (j : Nat) : Nat ×ₗ Nat := toLex ((tableGet Node.cleared nodes j).freq.toNat, j)

theorem QueueEntry.precedes_iff {x y : QueueEntry} : x.precedes y = true ↔ x.key < y.key := by
  simp [QueueEntry.precedes, QueueEntry.key, Prod.Lex.toLex_lt_toLex, BitVec.lt_def, BitVec.toNat_inj]

theorem nodeBefore_iff {nodes : List (Nat × Node)} {i j : Nat} :
    NodeBefore nodes i j ↔ nodeKey nodes i < nodeKey nodes j := by
  simp [NodeBefore, nodeKey, Prod.Lex.toLex_lt_toLex, BitVec.toNat_inj]

/-- The least element is not above any other. -/
theorem leastOf_le (x : QueueEntry) (xs : List QueueEntry) : ∀ e ∈ x :: xs, (leastOf x xs).key ≤ e.key := by
  induction xs generalizing x with
  | nil => simp [leastOf]
  | cons y ys ih =>
    rw [leastOf]
    split
    · next hyx =>
      have hleast := ih y
      rw [QueueEntry.precedes_iff] at hyx
      simp only [List.forall_mem_cons] at hleast ⊢
      exact ⟨hleast.1.trans hyx.le, hleast⟩
    · next hyx =>
      have hleast := ih x
      rw [QueueEntry.precedes_iff, not_lt] at hyx
      simp only [List.forall_mem_cons] at hleast ⊢
      exact ⟨hleast.1, hleast.1.trans hyx, hleast.2⟩

/-! ### One merge (R84) -/

theorem extractLeast_some {A rest : List QueueEntry} {a : QueueEntry} (h : extractLeast A = some (a, rest)) :
    A.Perm (a :: rest) ∧ ∀ e ∈ A, a.key ≤ e.key := by
  cases A with
  | nil => cases h
  | cons x xs =>
    cases h
    exact ⟨List.perm_cons_erase (leastOf_mem x xs), leastOf_le x xs⟩

/-- `a` is the least element of the active set `A`, `b` the least of the others, and `rest` what stays of `A`. -/
structure TwoLeast (A : List QueueEntry) (a b : QueueEntry) (rest : List QueueEntry) : Prop where
  perm : A.Perm (a :: b :: rest)
  first : ∀ e ∈ A, a.key ≤ e.key
  second : ∀ e ∈ b :: rest, b.key ≤ e.key

section
variable {A rest : List QueueEntry} {a b : QueueEntry}

theorem TwoLeast.mem_first (h : TwoLeast A a b rest) : a ∈ A := h.perm.symm.subset (by simp)

theorem TwoLeast.mem_second (h : TwoLeast A a b rest) : b ∈ A := h.perm.symm.subset (by simp)

theorem TwoLeast.second_le (h : TwoLeast A a b rest) {e : QueueEntry} (he : e ∈ A) (hne : e ≠ a) : b.key ≤ e.key :=
  h.second e ((List.mem_cons.mp (h.perm.subset he)).resolve_left hne)

end

/-- The merger after it joined `a` and `b`. -/
def Merger.join (m : Merger) (a b : QueueEntry) (rest : List QueueEntry) : Merger :=
  { nodes := m.nodes ++ [joinNode a b]
    active := rest ++ [⟨BitVec.ofNat 9 m.nodes.length, a.freq + b.freq⟩] }

/-- What a turn of the merge loop can do. -/
theorem mergeOnce_cases (m : Merger) : (m.active.length < 2 ∧ mergeOnce m = m) ∨
    ∃ a b rest, TwoLeast m.active a b rest ∧ mergeOnce m = m.join a b rest := by
  rcases Nat.lt_or_ge m.active.length 2 with hlt | hge
  · refine .inl ⟨hlt, ?_⟩
    match hA : m.active, hlt with
    | [], _ => simp [mergeOnce, hA, extractLeast]
    | [x], _ => simp [mergeOnce, hA, extractLeast, leastOf]
  · obtain ⟨a, b, rest, rest', ha, hb, hm, -⟩ := mergeOnce_of_two hge
    obtain ⟨hpa, hla⟩ := extractLeast_some ha
    obtain ⟨hpb, hlb⟩ := extractLeast_some hb
    exact .inr ⟨a, b, rest', ⟨hpa.trans (hpb.cons a), hla, fun e he => hlb e (hpb.symm.subset he)⟩, hm⟩

/-! ### Reading the table made of a longer list -/

section
variable {l L : List Node} {i : Nat} {x : Node}

theorem lookup_of_prefix (h : l <+: L) (hx : l[i]? = some x) : L[i]? = some x := by
  obtain ⟨hi, rfl⟩ := List.getElem?_eq_some_iff.mp hx
  exact List.prefix_iff_getElem?.mp h i hi

theorem tableGet_of_prefix (h : l <+: L) (hx : l[i]? = some x) : tableGet Node.cleared (tableOfList L) i = x := by
  simp [lookup_of_prefix h hx]

end

/-! ### The merge loop (R84) -/

/-- What the merge of these leaves keeps, besides `Merging`: the leaves stand first, internal nodes follow, and an active
element carries the frequency of its entry. -/
structure MergeOf (leaves : List Node) (m : Merger) : Prop extends Merging m where
  joined : ∃ js, m.nodes = leaves ++ js ∧ ∀ x ∈ js, x.leaf = false
  freqs : ∀ e ∈ m.active, ∃ x, m.nodes[e.index.toNat]? = some x ∧ x.freq = e.freq

theorem MergeOf.mergeOnce {leaves : List Node} {m : Merger} (h : MergeOf leaves m) : MergeOf leaves (mergeOnce m) := by
  rcases mergeOnce_cases m with ⟨-, hm⟩ | ⟨a, b, rest, hl, hm⟩
  · rwa [hm]
  refine ⟨h.toMerging.mergeOnce, ?_, ?_⟩
  · obtain ⟨js, hjs, hint⟩ := h.joined
    refine ⟨js ++ [joinNode a b], by simp [hm, Merger.join, hjs], ?_⟩
    simp only [List.forall_mem_append, List.forall_mem_singleton]
    exact ⟨hint, rfl⟩
  · have hnew : m.nodes.length % 512 = m.nodes.length := by
      have hroom := h.room
      have hlen := hl.perm.length_eq
      simp only [List.length_cons] at hlen
      omega
    simp only [hm, Merger.join, List.forall_mem_append, List.forall_mem_singleton]
    refine ⟨fun e he => ?_, joinNode a b, by simp [hnew], rfl⟩
    obtain ⟨x, hx, hf⟩ := h.freqs e (hl.perm.symm.subset (by simp [he]))
    exact ⟨x, lookup_of_prefix (List.prefix_append _ _) hx, hf⟩

theorem mergeOf_start (freq : List (Nat × Word)) : MergeOf (leafNodes freq) (startMerge (leafNodes freq)) where
  toMerging := .start (length_leafNodes_le freq) (leafNodes_entriesOk freq) fun _ => leaf_of_mem_leafNodes
  joined := ⟨[], by simp⟩
  freqs := by
    simp only [startMerge, List.forall_mem_map]
    rintro ⟨x, i⟩ hx
    rw [List.mk_mem_zipIdx_iff_getElem?] at hx
    obtain ⟨hi, -⟩ := List.getElem?_eq_some_iff.mp hx
    have hi : i < 256 := hi.trans_le (length_leafNodes_le freq)
    exact ⟨x, by rwa [BitVec.toNat_ofNat, Nat.mod_eq_of_lt (by omega)], rfl⟩

theorem mergeTimes_add (k l : Nat) (m : Merger) : mergeTimes (k + l) m = mergeTimes l (mergeTimes k m) := by
  induction k generalizing m with
  | zero => simp [mergeTimes]
  | succ k ih =>
    rw [Nat.add_right_comm]
    exact ih (mergeOnce m)

/-- The merger of these counts after `c` merges. -/
def mergeStage (freq : List (Nat × Word)) (c : Nat) : Merger := mergeTimes c (startMerge (leafNodes freq))

theorem mergeStage_succ (freq : List (Nat × Word)) (c : Nat) : mergeStage freq (c + 1) = mergeOnce (mergeStage freq c) :=
  mergeTimes_add c 1 _

theorem mergeOf_stage (freq : List (Nat × Word)) (c : Nat) : MergeOf (leafNodes freq) (mergeStage freq c) := by
  induction c with
  | zero => exact mergeOf_start freq
  | succ c ih => exact mergeStage_succ freq c ▸ ih.mergeOnce

/-- The nodes that a build leaves, in index order. -/
def builtNodes (freq : List (Nat × Word)) : List Node := (mergeAll (leafNodes freq)).nodes

theorem leafNodes_prefix (freq : List (Nat × Word)) : leafNodes freq <+: builtNodes freq :=
  mergeTimes_prefix _ (startMerge (leafNodes freq))

theorem length_builtNodes {freq : List (Nat × Word)} (h : leafNodes freq ≠ []) :
    (builtNodes freq).length = 2 * (leafNodes freq).length - 1 :=
  (mergeAll_lengths h).1

section
variable {freq : List (Nat × Word)} {c : Nat} (hc : c < (leafNodes freq).length)
include hc

theorem length_mergeStage_nodes : (mergeStage freq c).nodes.length = (leafNodes freq).length + c :=
  (mergeTimes_lengths c (startMerge (leafNodes freq)) (by rwa [startMerge_length])).1

theorem length_mergeStage_active : (mergeStage freq c).active.length = (leafNodes freq).length - c := by
  rw [← startMerge_length (leafNodes freq)]
  exact (mergeTimes_lengths c (startMerge (leafNodes freq)) (by rwa [startMerge_length])).2

theorem mergeStage_prefix : (mergeStage freq c).nodes <+: builtNodes freq := by
  have hn : (leafNodes freq).length - 1 = c + ((leafNodes freq).length - 1 - c) := by omega
  rw [builtNodes, mergeAll, hn, mergeTimes_add]
  exact mergeTimes_prefix _ _

end

/-- The c-th merge joins the two least active elements, and makes the entry after those made so far. -/
theorem exists_merge {freq : List (Nat × Word)} {c : Nat} (hc : c + 1 < (leafNodes freq).length) :
    ∃ a b rest, TwoLeast (mergeStage freq c).active a b rest ∧
      tableGet Node.cleared (tableOfList (builtNodes freq)) ((leafNodes freq).length + c) = joinNode a b := by
  have hc' : c < (leafNodes freq).length := by omega
  have hactive := length_mergeStage_active hc'
  rcases mergeOnce_cases (mergeStage freq c) with ⟨hlt, -⟩ | ⟨a, b, rest, hl, hm⟩
  · omega
  refine ⟨a, b, rest, hl, tableGet_of_prefix (mergeStage_prefix hc) ?_⟩
  rw [mergeStage_succ, hm, ← length_mergeStage_nodes hc', Merger.join, List.getElem?_concat_length]

/-- An entry of a build that is no leaf is made by a merge. -/
theorem exists_merge_of_internal {freq : List (Nat × Word)} (h : leafNodes freq ≠ []) {j : Nat}
    (hj : j < (builtNodes freq).length) (hl : (tableGet Node.cleared (tableOfList (builtNodes freq)) j).leaf = false) :
    ∃ c, c + 1 < (leafNodes freq).length ∧ j = (leafNodes freq).length + c := by
  rw [length_builtNodes h] at hj
  rcases Nat.lt_or_ge j (leafNodes freq).length with hlt | hge
  · rw [tableGet_of_prefix (leafNodes_prefix freq) (List.getElem?_eq_getElem hlt),
      leaf_of_mem_leafNodes (List.getElem_mem hlt)] at hl
    cases hl
  · exact ⟨j - (leafNodes freq).length, by omega, by omega⟩

/-! ### The active set (R84) -/

section
variable {m : Merger} (h : Merging m)
include h

/-- In a merge each index made so far is active exactly when no entry names it as a child. -/
theorem Merging.mem_pending_iff {j : Nat} : j ∈ m.pending.map BitVec.toNat ↔
    j < m.nodes.length ∧ j ∉ (m.nodes.flatMap Node.links).map BitVec.toNat := by
  have hnodup := h.once.symm.nodup List.nodup_range
  have hmem : j ∈ (m.pending ++ m.nodes.flatMap Node.links).map BitVec.toNat ↔ j < m.nodes.length :=
    h.once.mem_iff.trans List.mem_range
  rw [List.map_append] at hnodup hmem
  rw [List.mem_append] at hmem
  have hdisjoint := List.disjoint_of_nodup_append hnodup (a := j)
  tauto

theorem Merging.pending_nodup : m.pending.Nodup := by
  have hnodup := h.once.symm.nodup List.nodup_range
  rw [List.map_append] at hnodup
  exact hnodup.of_append_left.of_map _

theorem Merging.index_ne {a b : QueueEntry} {rest : List QueueEntry} (hl : TwoLeast m.active a b rest) :
    a.index ≠ b.index := by
  have hnodup := (hl.perm.map QueueEntry.index).nodup h.pending_nodup
  simp only [List.map_cons, List.nodup_cons, List.mem_cons] at hnodup
  tauto

/-- No entry names the last index made as a child, so it is active. -/
theorem Merging.last_active {k : Nat} (hk : m.nodes.length = k + 1) : ∃ e ∈ m.active, e.index.toNat = k := by
  have hpend : k ∈ m.pending.map BitVec.toNat := by
    rw [h.mem_pending_iff, hk]
    refine ⟨k.lt_succ_self, fun hlink => ?_⟩
    obtain ⟨i, hi, rfl⟩ := List.mem_map.mp hlink
    obtain ⟨x, hx, hi⟩ := List.mem_flatMap.mp hi
    obtain ⟨p, hp⟩ := List.mem_iff_getElem?.mp hx
    have hip := h.below p x hp i hi
    obtain ⟨hp, -⟩ := List.getElem?_eq_some_iff.mp hp
    omega
  simpa [Merger.pending] using hpend

end

/-- The children that leaves and the nodes joined of them name are those of the joined nodes. -/
theorem mem_links_joined {leaves js : List Node} (hleaf : ∀ x ∈ leaves, x.leaf = true) (hint : ∀ x ∈ js, x.leaf = false)
    {j : Nat} : j ∈ ((leaves ++ js).flatMap Node.links).map BitVec.toNat ↔
      ∃ x ∈ js, x.left.toNat = j ∨ x.right.toNat = j := by
  have hnone : leaves.flatMap Node.links = [] := List.flatMap_eq_nil_iff.mpr fun x hx => Node.links_of_leaf (hleaf x hx)
  have hlinks : js.flatMap Node.links = js.flatMap fun x => [x.left, x.right] :=
    List.flatMap_congr fun x hx => Node.links_of_internal (hint x hx)
  rw [List.flatMap_append, hnone, List.nil_append, hlinks]
  simp [List.map_flatMap, eq_comm]

/-- The entries at the indices after the leaves are the joined nodes. -/
theorem forall_joined_iff {leaves js L : List Node} (h : leaves ++ js <+: L) (P : Node → Prop) :
    (∀ c < js.length, P (tableGet Node.cleared (tableOfList L) (leaves.length + c))) ↔ ∀ x ∈ js, P x := by
  rw [List.forall_mem_iff_forall_getElem]
  refine forall₂_congr fun c hc => ?_
  have hx : (leaves ++ js)[leaves.length + c]? = some js[c] := by simp [hc]
  rw [tableGet_of_prefix h hx]

section
variable {freq : List (Nat × Word)} {c : Nat} (hc : c < (leafNodes freq).length)
include hc

/-- The indices that the statement calls active when the c-th merge begins are those that the merger holds. -/
theorem activeAt_iff {j : Nat} : ActiveAt (tableOfList (builtNodes freq)) (leafNodes freq).length c j ↔
    ∃ e ∈ (mergeStage freq c).active, e.index.toNat = j := by
  have hm := mergeOf_stage freq c
  have hlen := length_mergeStage_nodes hc
  have hprefix := mergeStage_prefix hc
  obtain ⟨js, hnodes, hint⟩ := hm.joined
  have hpend : (∃ e ∈ (mergeStage freq c).active, e.index.toNat = j) ↔
      j ∈ (mergeStage freq c).pending.map BitVec.toNat := by
    simp [Merger.pending]
  rw [hpend, hm.mem_pending_iff, hlen, hnodes, mem_links_joined (fun _ => leaf_of_mem_leafNodes) hint]
  rw [hnodes] at hlen hprefix
  have hjs : js.length = c := by simpa using hlen
  have hkept := forall_joined_iff hprefix fun x => x.left.toNat ≠ j ∧ x.right.toNat ≠ j
  rw [hjs] at hkept
  rw [ActiveAt, hkept]
  push Not
  rfl

variable {d e : QueueEntry} (he : e ∈ (mergeStage freq c).active)
include he

/-- An active element carries the frequency of its entry of the node table that the build leaves. -/
theorem nodeIn_built_freq : (nodeIn (tableOfList (builtNodes freq)) e.index).freq = e.freq := by
  obtain ⟨x, hx, hf⟩ := (mergeOf_stage freq c).freqs e he
  rw [nodeIn, tableGet_of_prefix (mergeStage_prefix hc) hx, hf]

theorem nodeKey_built : nodeKey (tableOfList (builtNodes freq)) e.index.toNat = e.key := by
  rw [nodeKey, ← nodeIn_eq, nodeIn_built_freq hc he, QueueEntry.key]

theorem nodeBefore_of_key_le (hd : d ∈ (mergeStage freq c).active) (hle : d.key ≤ e.key)
    (hne : e.index.toNat ≠ d.index.toNat) :
    NodeBefore (tableOfList (builtNodes freq)) d.index.toNat e.index.toNat := by
  rw [nodeBefore_iff, nodeKey_built hc hd, nodeKey_built hc he]
  exact hle.lt_of_ne fun h => hne (congrArg (fun k => (ofLex k).2) h).symm

end

/-- A build ends with one active element, the root, at the last index. -/
theorem exists_root {freq : List (Nat × Word)} (h : leafNodes freq ≠ []) :
    ∃ r, (mergeStage freq ((leafNodes freq).length - 1)).active = [r] ∧ (mergeAll (leafNodes freq)).root = r.index ∧
      r.index.toNat = 2 * (leafNodes freq).length - 2 := by
  have hpos := List.length_pos_of_ne_nil h
  obtain ⟨r, hr⟩ : ∃ r, (mergeStage freq ((leafNodes freq).length - 1)).active = [r] :=
    List.length_eq_one_iff.mp (mergeAll_lengths h).2
  have hlen := length_mergeStage_nodes (freq := freq) (c := (leafNodes freq).length - 1) (by omega)
  obtain ⟨e, he, hlast⟩ := (mergeOf_stage freq ((leafNodes freq).length - 1)).last_active
    (k := 2 * (leafNodes freq).length - 2) (by omega)
  rw [hr, List.mem_singleton] at he
  subst he
  have hroot : (mergeStage freq ((leafNodes freq).length - 1)).root = e.index := by rw [Merger.root, hr]
  exact ⟨e, hr, hroot, hlast⟩

/-! ### The leaves (R83) -/

/-- The leaf of a present symbol. -/
def leafNode (freq : List (Nat × Word)) (n : Nat) : Node :=
  ⟨true, true, tableGet 0#32 freq n, BitVec.ofNat 8 n, Config.null, Config.null⟩

theorem leafNodes_eq_map (freq : List (Nat × Word)) : leafNodes freq = (presentSymbols freq).map (leafNode freq) := by
  rw [presentSymbols, ← List.filterMap_eq_map, List.filterMap_filter]
  refine List.filterMap_congr fun n _ => ?_
  simp [leafNode]

theorem length_leafNodes (freq : List (Nat × Word)) : (leafNodes freq).length = freqCount freq := by
  rw [leafNodes_eq_map, List.length_map, freqCount]

theorem freqAt_ofNat (s : State) {n : Nat} (hn : n < Config.nsym) :
    s.freqAt (BitVec.ofNat 8 n) = tableGet 0#32 s.freq n := by
  rw [State.freqAt, BitVec.toNat_ofNat, Nat.mod_eq_of_lt (show n < 2 ^ 8 from hn)]

/-- The leaves are a function of the counts (R88). -/
theorem leafNodes_congr {s s' : State} (h : ∀ sym, s.freqAt sym = s'.freqAt sym) :
    leafNodes s.freq = leafNodes s'.freq := by
  refine List.filterMap_congr fun n hn => ?_
  rw [← freqAt_ofNat s (List.mem_range.mp hn), h, freqAt_ofNat s' (List.mem_range.mp hn)]

/-- A symbol with no count has no leaf, and adds nothing to the sum of the counts. -/
theorem sum_leafNodes (freq : List (Nat × Word)) : ((leafNodes freq).map fun x => x.freq.toNat).sum = freqSum freq := by
  rw [leafNodes, freqSum]
  induction List.range Config.nsym with
  | nil => rfl
  | cons n l ih => by_cases hf : tableGet 0#32 freq n = 0#32 <;> simp [hf, ih]

/-! ### The frequencies of the active set (R86) -/

/-- The exact sum of the frequencies of the active set. -/
def Merger.weight (m : Merger) : Nat := (m.active.map fun e => e.freq.toNat).sum

section
variable {m : Merger} {a b : QueueEntry} {rest : List QueueEntry}

theorem TwoLeast.weight_eq (h : TwoLeast m.active a b rest) :
    m.weight = a.freq.toNat + b.freq.toNat + (rest.map fun e => e.freq.toNat).sum := by
  rw [Merger.weight, (h.perm.map _).sum_eq]
  simp [Nat.add_assoc]

/-- A merge does not overflow when the sum over the active set does not. -/
theorem TwoLeast.toNat_add (h : TwoLeast m.active a b rest) (hw : m.weight < 4294967296) :
    (a.freq + b.freq).toNat = a.freq.toNat + b.freq.toNat := by
  have := h.weight_eq
  rw [BitVec.toNat_add]
  omega

theorem weight_mergeOnce (hw : m.weight < 4294967296) : (mergeOnce m).weight = m.weight := by
  rcases mergeOnce_cases m with ⟨-, hm⟩ | ⟨a, b, rest, hl, hm⟩
  · rw [hm]
  · rw [hm, hl.weight_eq, ← hl.toNat_add hw]
    simp [Merger.weight, Merger.join, Nat.add_comm]

end

theorem weight_startMerge (leaves : List Node) : (startMerge leaves).weight = (leaves.map fun x => x.freq.toNat).sum := by
  conv_rhs => rw [← List.zipIdx_map_fst 0 leaves]
  simp only [Merger.weight, startMerge, List.map_map]
  rfl

/-- The active set sums to all the counts, however many merges were made. -/
theorem weight_mergeStage {freq : List (Nat × Word)} (h : freqSum freq < 4294967296) (c : Nat) :
    (mergeStage freq c).weight = freqSum freq := by
  induction c with
  | zero => exact (weight_startMerge _).trans (sum_leafNodes freq)
  | succ c ih => rw [mergeStage_succ, weight_mergeOnce (ih ▸ h), ih]

/-! ### The command (R85) -/

/-- The state that BUILD leaves before its result word is recorded. -/
def State.built (s : State) : State :=
  s.clearCodes.setTree (tableOfList (builtNodes s.freq)) (mergeAll (leafNodes s.freq)).root
    (BitVec.ofNat 10 (builtNodes s.freq).length)

@[simp] theorem State.built_nodes (s : State) : s.built.nodes = tableOfList (builtNodes s.freq) := rfl
@[simp] theorem State.built_root (s : State) : s.built.root = (mergeAll (leafNodes s.freq)).root := rfl

theorem State.toNat_built_nodeCount {s : State} (h : leafNodes s.freq ≠ []) :
    s.built.nodeCount.toNat = (builtNodes s.freq).length := by
  have hle : (builtNodes s.freq).length ≤ 511 := length_mergeAll_le h
  show (BitVec.ofNat 10 _).toNat = _
  rw [BitVec.toNat_ofNat]
  omega

/-- With no symbol present the merge makes no node and no root. -/
theorem State.built_of_empty {s : State} (h : leafNodes s.freq = []) :
    s.built = s.clearCodes.setTree [] Config.null 0#10 := by
  rw [State.built, builtNodes, h]
  rfl

theorem exec_build (s : State) : exec .build s = command .build s fun s =>
    if leafNodes s.freq = [] then .raised .emptyInput (s.clearCodes.setTree [] Config.null 0#10) else .ok s.built := rfl

theorem exec_build_empty {s : State} (hm : s.mode = .idle) (h : leafNodes s.freq = []) :
    exec .build s = .next (s.built.record (errResult 0x20#8 .emptyInput)) := by
  have ha : admitted .build s.mode = true := beq_iff_eq.mpr hm
  rw [exec_build, command_raised ha (if_pos h), State.built_of_empty h]
  rfl

theorem exec_build_ok {s : State} (hm : s.mode = .idle) (h : leafNodes s.freq ≠ []) :
    exec .build s = .next { s.built with last := okResult 0x20#8 } := by
  have ha : admitted .build s.mode = true := beq_iff_eq.mpr hm
  rw [exec_build, command_ok ha (if_neg h), State.record_okResult]
  rfl

/-- What BUILD does in IDLE mode. -/
theorem exec_build_next {s t : State} (hm : s.mode = .idle) (h : exec .build s = .next t) : ∃ r, t = s.built.record r := by
  by_cases hl : leafNodes s.freq = []
  · rw [exec_build_empty hm hl] at h
    cases h
    exact ⟨_, rfl⟩
  · rw [exec_build_ok hm hl] at h
    cases h
    exact ⟨_, (State.record_okResult _ _).symm⟩

/-! ### The obligations -/

/-- Settles O35: the merger holds exactly the active indices, each with its entry's frequency, and takes the two least. -/
theorem buildMergesTheTwoLeast : Obligations.BuildMergesTheTwoLeast := by
  intro s t n c hm hn hc h
  obtain ⟨r, rfl⟩ := exec_build_next hm h
  rw [← length_leafNodes] at hn
  subst hn
  have hc' : c < (leafNodes s.freq).length := by omega
  obtain ⟨a, b, rest, hl, hx⟩ := exists_merge hc
  have ha := hl.mem_first
  have hb := hl.mem_second
  simp only [State.record_nodes, State.built_nodes, hx, joinNode, activeAt_iff hc', nodeIn_built_freq hc' ha,
    nodeIn_built_freq hc' hb, true_and]
  refine ⟨⟨a, ha, rfl⟩, ⟨b, hb, rfl⟩, (mergeOf_stage s.freq c).index_ne hl, ?_, ?_⟩
  · rintro _ ⟨e, he, rfl⟩ hea
    exact nodeBefore_of_key_le hc' he ha (hl.first e he) hea
  · rintro _ ⟨e, he, rfl⟩ hea heb
    exact nodeBefore_of_key_le hc' he hb (hl.second_le he fun h => hea (h ▸ rfl)) heb

/-- Settles O34: the leaves are the present symbols' in order, each merge adds one internal node, and no entry names the last
node as a child. -/
theorem buildPlacesLeavesThenInternalNodes : Obligations.BuildPlacesLeavesThenInternalNodes := by
  intro s n hm hn h0
  rw [← length_leafNodes] at hn
  subst hn
  have hl : leafNodes s.freq ≠ [] := by simpa using h0
  have hlen := length_builtNodes hl
  refine ⟨_, exec_build_ok hm hl, ⟨rfl, rfl⟩, rfl, (State.toNat_built_nodeCount hl).trans hlen, ?_, rfl, fun _ => rfl, ?_, ?_,
    ?_, rfl⟩
  · obtain ⟨r, -, hroot, hlast⟩ := exists_root hl
    rw [State.built_root, hroot, hlast]
  · intro j m hj
    have hx : (leafNodes s.freq)[j]? = some (leafNode s.freq m) := by simp [leafNodes_eq_map, hj]
    have hm : m < Config.nsym := List.mem_range.mp (List.mem_filter.mp (List.mem_of_getElem? hj)).1
    rw [freqAt_ofNat s hm]
    exact tableGet_of_prefix (leafNodes_prefix s.freq) hx
  · intro j hle hj
    obtain ⟨c, rfl⟩ := Nat.exists_eq_add_of_le hle
    obtain ⟨a, b, rest, -, hx⟩ := exists_merge (freq := s.freq) (c := c) (by omega)
    rw [State.built_nodes, hx]
    exact ⟨rfl, rfl, rfl⟩
  · intro j hj
    simp [hlen, hj]

/-- Settles O36: every sum is part of the sum over the active set, which stays TOTAL; the root is all of it at the end. -/
theorem buildSumsFrequencies : Obligations.BuildSumsFrequencies := by
  intro s t hm ⟨htotal, _⟩ hn h
  obtain ⟨r, rfl⟩ := exec_build_next hm h
  have hl : leafNodes s.freq ≠ [] := by simpa [← length_leafNodes] using hn
  have hpos := List.length_pos_of_ne_nil hl
  have hlt : freqSum s.freq < 4294967296 := htotal ▸ s.total.isLt
  have hw := weight_mergeStage hlt
  simp only [State.record_nodes, State.record_root, State.record_nodeCount, State.built_nodes, State.built_root,
    State.toNat_built_nodeCount hl]
  refine ⟨?_, fun j hj hleaf => ?_⟩
  · obtain ⟨r, hr, hroot, -⟩ := exists_root hl
    have hone := hw ((leafNodes s.freq).length - 1)
    rw [Merger.weight, hr, List.map_singleton, List.sum_singleton] at hone
    rw [hroot, nodeIn_built_freq (c := (leafNodes s.freq).length - 1) (by omega) (by simp [hr])]
    exact BitVec.eq_of_toNat_eq (hone.trans htotal.symm)
  · obtain ⟨c, hc, rfl⟩ := exists_merge_of_internal hl hj hleaf
    have hc' : c < (leafNodes s.freq).length := by omega
    obtain ⟨a, b, rest, hl, hx⟩ := exists_merge hc
    simp only [hx, joinNode, nodeIn_built_freq hc' hl.mem_first, nodeIn_built_freq hc' hl.mem_second]
    exact hl.toNat_add (hw c ▸ hlt)

/-- Settles O37: BUILD reads the counts only to place the leaves. -/
theorem buildIsAFunctionOfTheCounts : Obligations.BuildIsAFunctionOfTheCounts := by
  intro s s' t t' hm hm' hcounts h h'
  obtain ⟨r, rfl⟩ := exec_build_next hm h
  obtain ⟨r', rfl⟩ := exec_build_next hm' h'
  simp [State.built, builtNodes, leafNodes_congr hcounts]

/-- Settles O33: with the counts of the reset state there is no leaf. -/
theorem buildOfNothingIsTheEmptyTree : Obligations.BuildOfNothingIsTheEmptyTree := by
  intro s hm hcounts
  have hl : leafNodes s.freq = [] := by
    rw [leafNodes_congr (s' := State.reset) hcounts, ← List.length_eq_zero_iff, length_leafNodes]
    exact freqCount_nil
  refine ⟨_, exec_build_empty hm hl, raises_record _ _ rfl, ?_⟩
  rw [State.built_of_empty hl]
  exact ⟨rfl, rfl, rfl, rfl, fun _ => rfl, fun _ => rfl, rfl⟩

end Sys2Proof.Machine
end

section
/-!
PROOFS, 42_code_deriver.md. Paths, which nodes they leave and how long they are (R90, R94); the leaves of a tree in the order
of the walk, and what entering their codes one after the other does (R92); so what DERIVE leaves (R90, R91, R93).
-/

namespace Sys2Proof.Machine

/-! ### Paths and the nodes they leave (R90) -/

section
variable {nodes : List (Nat × Node)} {root i j : NodeIx} {p q : Bits}

theorem pathTo_nil_iff : PathTo nodes root i [] ↔ i = root := by
  refine ⟨fun h => ?_, fun h => h ▸ .root⟩
  rcases pathTo_cases h with ⟨hi, -⟩ | ⟨_, _, _, -, -, -, h⟩
  · exact hi
  · simp at h

theorem pathTo_concat_iff {bit : Bool} : PathTo nodes root i (p ++ [bit]) ↔
    ∃ j, PathTo nodes root j p ∧ (nodeIn nodes j).leaf = false ∧ i = (nodeIn nodes j).step bit := by
  refine ⟨fun h => ?_, fun ⟨j, hj, hl, hi⟩ => hi ▸ hj.step hl bit⟩
  rcases pathTo_cases h with ⟨-, h⟩ | ⟨j, _, _, hj, hl, hi, h⟩
  · simp at h
  · obtain ⟨rfl, rfl⟩ := List.append_singleton_inj.mp h
    exact ⟨j, hj, hl, hi⟩

/-- A path leads to one node. -/
theorem PathTo.node_unique (hi : PathTo nodes root i p) (hj : PathTo nodes root j p) : i = j := by
  induction p using List.reverseRecOn generalizing i j with
  | nil => rw [pathTo_nil_iff.mp hi, pathTo_nil_iff.mp hj]
  | append_singleton p bit ih =>
    obtain ⟨i', hi', -, rfl⟩ := pathTo_concat_iff.mp hi
    obtain ⟨j', hj', -, rfl⟩ := pathTo_concat_iff.mp hj
    rw [ih hi' hj']

/-- A path that goes on leaves an internal node. -/
theorem PathTo.exists_internal {bit : Bool} (h : PathTo nodes root j (p ++ bit :: q)) :
    ∃ i, PathTo nodes root i p ∧ (nodeIn nodes i).leaf = false := by
  induction q using List.reverseRecOn generalizing j with
  | nil =>
    obtain ⟨i, hi, hl, -⟩ := pathTo_concat_iff.mp h
    exact ⟨i, hi, hl⟩
  | append_singleton q c ih =>
    rw [← List.cons_append, ← List.append_assoc] at h
    obtain ⟨j', hj', -, -⟩ := pathTo_concat_iff.mp h
    exact ih hj'

/-- No other path goes on from the path of a leaf (R94). -/
theorem PathTo.eq_of_leaf_prefix (hi : PathTo nodes root i p) (hl : (nodeIn nodes i).leaf = true)
    (hj : PathTo nodes root j q) (h : p <+: q) : i = j := by
  obtain ⟨_ | ⟨bit, r⟩, rfl⟩ := h
  · exact hi.node_unique (by simpa using hj)
  · obtain ⟨i', hi', hl'⟩ := hj.exists_internal
    rw [← hi.node_unique hi', hl] at hl'
    cases hl'

end

/-! ### The length of a path (R94) -/

/-- The indices of the internal entries among the first k. -/
def internals (nodes : List (Nat × Node)) (k : Nat) : Finset Nat :=
  (Finset.range k).filter fun n => (tableGet Node.cleared nodes n).leaf = false

theorem length_childLinks (nodes : List (Nat × Node)) (k : Nat) :
    (childLinks nodes k).length = 2 * (internals nodes k).card := by
  have hlinks (n : Nat) : (tableGet Node.cleared nodes n).links.length =
      if (tableGet Node.cleared nodes n).leaf = false then 2 else 0 := by
    cases hl : (tableGet Node.cleared nodes n).leaf <;> simp [Node.links, hl]
  rw [childLinks_eq, List.length_flatMap, internals, Finset.card_filter, Finset.mul_sum]
  simp only [hlinks, mul_ite, mul_one, mul_zero]
  rfl

section
variable {nodes : List (Nat × Node)} {root : NodeIx} {k : Nat} (ht : TreeOk nodes root k)
include ht

/-- A tree has at most 255 internal entries: the root and the two children of each are different entries (R94). -/
theorem TreeOk.card_internals_le (hk : k ≠ 0) : (internals nodes k).card ≤ 255 := by
  have hin : (root :: childLinks nodes k).map BitVec.toNat ⊆ List.range k := by
    intro n hn
    obtain ⟨i, hi, rfl⟩ := List.mem_map.mp hn
    rw [List.mem_range]
    rcases List.mem_cons.mp hi with rfl | hi
    · exact ht.rootIn hk
    · obtain ⟨m, hm, hi⟩ := List.mem_flatMap.mp (childLinks_eq nodes k ▸ hi)
      obtain ⟨hl, bit, rfl⟩ := Node.mem_links.mp hi
      have hchild := ht.internal m (List.mem_range.mp hm) hl
      cases bit with
      | false => exact hchild.1
      | true => exact hchild.2
  have hnodup := ht.oneParent.map fun (_ _ : NodeIx) => BitVec.eq_of_toNat_eq
  have hle := (hnodup.subperm hin).length_le
  have hbound := ht.bound
  simp only [List.length_map, List.length_cons, length_childLinks, List.length_range, Config.nodeCap] at hle hbound
  omega

/-- The internal entries that a path leaves are as many as its edges: they differ, since each ranks below the next. -/
theorem PathTo.length_le_internals (hk : k ≠ 0) {i : NodeIx} {p : Bits} (h : PathTo nodes root i p) :
    p.length ≤ (internals nodes k).card := by
  obtain ⟨rank, hrank⟩ := ht.exists_rank
  suffices ∃ A ⊆ internals nodes k, A.card = p.length ∧ ∀ a ∈ A, rank a < rank i.toNat by
    obtain ⟨A, hA, hcard, -⟩ := this
    exact hcard ▸ Finset.card_le_card hA
  induction p using List.reverseRecOn generalizing i with
  | nil => exact ⟨∅, by simp⟩
  | append_singleton p bit ih =>
    obtain ⟨j, hj, hl, rfl⟩ := pathTo_concat_iff.mp h
    obtain ⟨A, hA, hcard, hbelow⟩ := ih hj
    have hin := hj.inside ht hk
    have hup := hrank j hin hl bit
    have hnew : j.toNat ∉ A := fun ha => Nat.lt_irrefl _ (hbelow _ ha)
    refine ⟨insert j.toNat A, Finset.insert_subset ?_ hA, ?_, Finset.forall_mem_insert _ _ _ |>.mpr ⟨hup, fun a ha => ?_⟩⟩
    · exact Finset.mem_filter.mpr ⟨Finset.mem_range.mpr hin, hl⟩
    · simp [hnew, hcard]
    · exact (hbelow a ha).trans hup

theorem PathTo.length_le (hk : k ≠ 0) {i : NodeIx} {p : Bits} (h : PathTo nodes root i p) : p.length ≤ 255 :=
  (h.length_le_internals ht hk).trans (ht.card_internals_le hk)

/-- A path leads to no NULL. -/
theorem PathTo.ne_null (hk : k ≠ 0) {i : NodeIx} {p : Bits} (h : PathTo nodes root i p) : i ≠ Config.null := by
  rintro rfl
  exact absurd ((h.inside ht hk).trans_le ht.bound) (by decide)

/-- Where there is a leaf the tree is not empty. -/
theorem TreeOk.ne_zero_of_leaf {i : NodeIx} {x : Byte} (h : LeafOf nodes i x) : k ≠ 0 := by
  rintro rfl
  have hl := h.1
  rw [nodeIn_eq, ht.unused _ (Nat.zero_le _)] at hl
  cases hl

end

/-! ### The order of the walk (R92) -/

theorem WalkedBefore.lt {p q : Bits} (h : WalkedBefore p q) : p < q := by
  obtain ⟨r, p', q', rfl, rfl⟩ := h
  exact List.append_left_lt (List.cons_lt_cons_iff.mpr (.inl (by decide)))

/-- The leaves at and below node i at path p, in the order of the walk, each with its path. The first argument bounds the
nodes on a path, as in `walk`. -/
def leavesBelow (nodes : List (Nat × Node)) : Nat → NodeIx → Bits → List (NodeIx × Bits)
  | 0, _, _ => []
  | n + 1, i, p =>
    if (nodeIn nodes i).leaf then [(i, p)]
    else leavesBelow nodes n (nodeIn nodes i).left (p ++ [false]) ++ leavesBelow nodes n (nodeIn nodes i).right (p ++ [true])

theorem leavesBelow_leaf {nodes : List (Nat × Node)} {i : NodeIx} (h : (nodeIn nodes i).leaf = true) (n : Nat) (p : Bits) :
    leavesBelow nodes (n + 1) i p = [(i, p)] := by simp [leavesBelow, h]

theorem leavesBelow_internal {nodes : List (Nat × Node)} {i : NodeIx} (h : (nodeIn nodes i).leaf = false) (n : Nat) (p : Bits) :
    leavesBelow nodes (n + 1) i p = leavesBelow nodes n ((nodeIn nodes i).step false) (p ++ [false]) ++
      leavesBelow nodes n ((nodeIn nodes i).step true) (p ++ [true]) := by simp [leavesBelow, h, Node.step]

section
variable {nodes : List (Nat × Node)} {root : NodeIx}

theorem prefix_of_mem_leavesBelow {n : Nat} {i j : NodeIx} {p q : Bits} (h : (j, q) ∈ leavesBelow nodes n i p) : p <+: q := by
  induction n generalizing i p with
  | zero => cases h
  | succ n ih =>
    cases hl : (nodeIn nodes i).leaf with
    | true =>
      rw [leavesBelow_leaf hl, List.mem_singleton] at h
      cases h
      exact List.prefix_rfl
    | false =>
      rw [leavesBelow_internal hl, List.mem_append] at h
      rcases h with h | h <;> exact (List.prefix_append p _).trans (ih h)

/-- The leaves of the left child come before those of the right child. -/
theorem pairwise_leavesBelow (n : Nat) (i : NodeIx) (p : Bits) :
    (leavesBelow nodes n i p).Pairwise fun a b => WalkedBefore a.2 b.2 := by
  induction n generalizing i p with
  | zero => exact .nil
  | succ n ih =>
    cases hl : (nodeIn nodes i).leaf with
    | true => simp [leavesBelow_leaf hl]
    | false =>
      rw [leavesBelow_internal hl]
      refine List.pairwise_append.mpr ⟨ih _ _, ih _ _, fun a ha b hb => ?_⟩
      obtain ⟨p', hp⟩ := prefix_of_mem_leavesBelow ha
      obtain ⟨q', hq⟩ := prefix_of_mem_leavesBelow hb
      exact ⟨p, p', q', by simp [← hp], by simp [← hq]⟩

/-- Only leaves reached from the root are listed. -/
theorem PathTo.of_mem_leavesBelow {n : Nat} {i j : NodeIx} {p q : Bits} (hp : PathTo nodes root i p)
    (h : (j, q) ∈ leavesBelow nodes n i p) : PathTo nodes root j q ∧ (nodeIn nodes j).leaf = true := by
  induction n generalizing i p with
  | zero => cases h
  | succ n ih =>
    cases hl : (nodeIn nodes i).leaf with
    | true =>
      rw [leavesBelow_leaf hl, List.mem_singleton] at h
      cases h
      exact ⟨hp, hl⟩
    | false =>
      rw [leavesBelow_internal hl, List.mem_append] at h
      exact h.elim (ih (hp.step hl false)) (ih (hp.step hl true))

/-- A leaf below node i is listed when the bound exceeds the edges to it. -/
theorem mem_leavesBelow {n : Nat} {i j : NodeIx} {p r : Bits} (hp : PathTo nodes root i p)
    (hq : PathTo nodes root j (p ++ r)) (hj : (nodeIn nodes j).leaf = true) (hn : r.length < n) :
    (j, p ++ r) ∈ leavesBelow nodes n i p := by
  induction r generalizing n i p with
  | nil =>
    obtain ⟨n, rfl⟩ := Nat.exists_eq_add_one_of_ne_zero (Nat.ne_zero_of_lt hn)
    rw [List.append_nil] at hq ⊢
    obtain rfl := hp.node_unique hq
    simp [leavesBelow_leaf hj]
  | cons bit r ih =>
    obtain ⟨n, rfl⟩ := Nat.exists_eq_add_one_of_ne_zero (Nat.ne_zero_of_lt hn)
    obtain ⟨i', hi', hl⟩ := hq.exists_internal
    obtain rfl := hp.node_unique hi'
    rw [List.append_cons] at hq ⊢
    have hmem := ih (hp.step hl bit) hq (Nat.lt_of_succ_lt_succ hn)
    rw [leavesBelow_internal hl, List.mem_append]
    cases bit with
    | false => exact .inl hmem
    | true => exact .inr hmem

end

/-! ### Entering the codes of leaves (R92, R93) -/

/-- The symbol of a leaf. -/
def leafSym (nodes : List (Nat × Node)) (l : NodeIx × Bits) : Byte := (nodeIn nodes l.1).sym

/-- `walk` at a leaf, with the code of R90 and R91: enter it, or raise where the symbol has one. -/
def enterLeaf (nodes : List (Nat × Node)) (T : CodeMap) (l : NodeIx × Bits) : Except WalkStop CodeMap :=
  match T.lookup (leafSym nodes l) with
  | some _ => .error (.dup (leafSym nodes l))
  | none => .ok ((leafSym nodes l, pathCode l.2) :: T)

/-- The map of leaves with different symbols, the last entered first. -/
def codesOf (nodes : List (Nat × Node)) (ls : List (NodeIx × Bits)) : CodeMap :=
  (ls.map fun l => (leafSym nodes l, pathCode l.2)).reverse

section
variable {nodes : List (Nat × Node)} {l : NodeIx × Bits} {ls rest : List (NodeIx × Bits)} {x : Byte}

theorem lookup_codesOf_eq_none : (codesOf nodes ls).lookup x = none ↔ x ∉ ls.map (leafSym nodes) := by
  simp only [List.lookup_eq_none_iff, codesOf, List.mem_reverse, List.forall_mem_map, bne_iff_ne]
  simp only [List.mem_map, not_exists, not_and]
  exact forall₂_congr fun _ _ => ne_comm

theorem exists_of_lookup_codesOf {c : Bits} (h : (codesOf nodes ls).lookup x = some c) :
    ∃ l ∈ ls, leafSym nodes l = x ∧ pathCode l.2 = c := by
  obtain ⟨_, _, he, -⟩ := List.lookup_eq_some_iff.mp h
  have hmem : (x, c) ∈ codesOf nodes ls := by simp [he]
  simpa [codesOf] using hmem

theorem enterLeaf_new (h : leafSym nodes l ∉ ls.map (leafSym nodes)) :
    enterLeaf nodes (codesOf nodes ls) l = .ok (codesOf nodes (ls ++ [l])) := by
  rw [enterLeaf, lookup_codesOf_eq_none.mpr h]
  simp [codesOf]

theorem enterLeaf_dup (h : leafSym nodes l ∈ ls.map (leafSym nodes)) :
    enterLeaf nodes (codesOf nodes ls) l = .error (.dup (leafSym nodes l)) := by
  obtain ⟨c, hc⟩ := Option.ne_none_iff_exists'.mp (mt lookup_codesOf_eq_none.mp (not_not.mpr h))
  rw [enterLeaf, hc]

/-- Leaves with different symbols are all entered. -/
theorem enterLeaves_distinct (h : (ls.map (leafSym nodes)).Nodup) :
    ls.foldlM (enterLeaf nodes) [] = .ok (codesOf nodes ls) := by
  induction ls using List.reverseRecOn with
  | nil => rfl
  | append_singleton ls l ih =>
    rw [List.map_append, List.map_singleton, ← List.concat_eq_append, List.nodup_concat] at h
    rw [List.foldlM_append, ih h.2]
    exact (bind_pure _).trans (enterLeaf_new h.1)

/-- The first leaf whose symbol an earlier one carries ends the walk (R93). -/
theorem enterLeaves_dup (h : (ls.map (leafSym nodes)).Nodup) (hl : leafSym nodes l ∈ ls.map (leafSym nodes)) :
    (ls ++ l :: rest).foldlM (enterLeaf nodes) [] = .error (.dup (leafSym nodes l)) := by
  rw [List.foldlM_append, enterLeaves_distinct h]
  show enterLeaf nodes (codesOf nodes ls) l >>= (rest.foldlM (enterLeaf nodes) ·) = _
  rw [enterLeaf_dup hl]
  rfl

end

/-- Where the values of a list repeat, there is a first element whose value an earlier one has. -/
theorem exists_first_dup {α β : Type} {f : α → β} {l : List α} (h : ¬(l.map f).Nodup) :
    ∃ pre a post, l = pre ++ a :: post ∧ (pre.map f).Nodup ∧ f a ∈ pre.map f := by
  induction l using List.reverseRecOn with
  | nil => simp at h
  | append_singleton l a ih =>
    by_cases hl : (l.map f).Nodup
    · refine ⟨l, a, [], rfl, hl, ?_⟩
      by_contra ha
      exact h (by simpa using List.Nodup.concat ha hl)
    · obtain ⟨pre, b, post, rfl, hpre, hb⟩ := ih hl
      exact ⟨pre, b, post ++ [a], by simp, hpre, hb⟩

/-! ### The walk of a tree (R92) -/

/-- All leaves of the tree at a root, in the order of the walk. -/
def treeLeaves (nodes : List (Nat × Node)) (root : NodeIx) : List (NodeIx × Bits) :=
  leavesBelow nodes (Config.maxCodeLen + 1) root []

theorem pairwise_treeLeaves (nodes : List (Nat × Node)) (root : NodeIx) :
    (treeLeaves nodes root).Pairwise fun a b => WalkedBefore a.2 b.2 := pairwise_leavesBelow _ _ _

section
variable {nodes : List (Nat × Node)} {i : NodeIx} (hi : i ≠ Config.null)
include hi

theorem walk_leaf (hl : (nodeIn nodes i).leaf = true) (n : Nat) {p : Bits} (hp : p ≠ []) (T : CodeMap) :
    walk nodes (n + 1) i p T = enterLeaf nodes T (i, p) := by
  have hc : pathCode p = p := if_neg hp
  cases hx : T.lookup (nodeIn nodes i).sym <;> simp [walk, nodeAt?_eq_some hi, hl, enterLeaf, leafSym, hx, hc]

theorem walk_internal (hl : (nodeIn nodes i).leaf = false) (n : Nat) (p : Bits) (T : CodeMap) :
    walk nodes (n + 1) i p T = walk nodes n ((nodeIn nodes i).step false) (p ++ [false]) T >>=
      walk nodes n ((nodeIn nodes i).step true) (p ++ [true]) := by
  simp only [walk, nodeAt?_eq_some hi, hl, Node.step, Bool.false_eq_true, if_false, if_true]
  cases walk nodes n (nodeIn nodes i).left (p ++ [false]) T <;> rfl

end

section
variable {nodes : List (Nat × Node)} {root : NodeIx} {k : Nat} (ht : TreeOk nodes root k)
include ht

/-- From a node with a path the walk enters the leaves below it, left to right. -/
theorem walk_eq_foldlM (hk : k ≠ 0) {n : Nat} {i : NodeIx} {p : Bits} (hp : PathTo nodes root i p) (hn : p.length + n = 256)
    (hcode : (nodeIn nodes i).leaf = true → p ≠ []) (T : CodeMap) :
    walk nodes n i p T = (leavesBelow nodes n i p).foldlM (enterLeaf nodes) T := by
  induction n generalizing i p T with
  | zero =>
    have := hp.length_le ht hk
    omega
  | succ n ih =>
    have hi := hp.ne_null ht hk
    cases hl : (nodeIn nodes i).leaf with
    | true => rw [leavesBelow_leaf hl, walk_leaf hi hl n (hcode hl), List.foldlM_cons]; exact (bind_pure _).symm
    | false =>
      have hchild (bit : Bool) := ih (hp.step hl bit) (by simp; omega) fun _ => by simp
      rw [leavesBelow_internal hl, List.foldlM_append, walk_internal hi hl, hchild false]
      exact bind_congr (hchild true)

/-- In a tree the map of codes is that of all its leaves, the one-leaf tree included. -/
theorem codeMap_eq_foldlM (hk : k ≠ 0) : codeMap nodes root = (treeLeaves nodes root).foldlM (enterLeaf nodes) [] := by
  have hroot := nodeAt?_eq_some (nodes := nodes) (PathTo.root.ne_null ht hk)
  rw [codeMap, hroot]
  cases hl : (nodeIn nodes root).leaf with
  | true => simp [treeLeaves, leavesBelow_leaf hl, enterLeaf, leafSym, pathCode, hl]
  | false => simpa [hl, treeLeaves] using walk_eq_foldlM ht hk (n := Config.maxCodeLen + 1) .root rfl (by simp [hl]) []

theorem mem_treeLeaves (hk : k ≠ 0) {i : NodeIx} {p : Bits} :
    (i, p) ∈ treeLeaves nodes root ↔ PathTo nodes root i p ∧ (nodeIn nodes i).leaf = true :=
  ⟨PathTo.root.of_mem_leavesBelow, fun ⟨hp, hl⟩ =>
    mem_leavesBelow (r := p) .root hp hl (Nat.lt_succ_of_le (hp.length_le ht hk))⟩

/-- The leaves carry different symbols when the list of them has no symbol twice. -/
theorem nodup_leafSyms_iff (hk : k ≠ 0) :
    ((treeLeaves nodes root).map (leafSym nodes)).Nodup ↔ DistinctSymbols nodes root := by
  refine ⟨fun h i j p q x hi hj hli hlj => ?_, fun h => ?_⟩
  · have hmem := (mem_treeLeaves ht hk).mpr ⟨hi, hli.1⟩
    have hmem' := (mem_treeLeaves ht hk).mpr ⟨hj, hlj.1⟩
    exact congrArg Prod.fst (List.inj_on_of_nodup_map h hmem hmem' (hli.2.trans hlj.2.symm))
  · refine List.pairwise_map.mpr ((pairwise_treeLeaves nodes root).imp_of_mem fun {a b} ha hb hbefore hsym => ?_)
    obtain ⟨hpa, hla⟩ := (mem_treeLeaves ht hk).mp ha
    obtain ⟨hpb, hlb⟩ := (mem_treeLeaves ht hk).mp hb
    have hab := h _ _ _ _ _ hpa hpb ⟨hla, hsym⟩ ⟨hlb, rfl⟩
    exact hbefore.lt.ne (hpa.unique ht hk (hab ▸ hpb))

end

/-! ### The code table of a tree (R90, R91, R93) -/

theorem deriveCodes_empty (nodes : List (Nat × Node)) : deriveCodes nodes Config.null = .ok [] := by simp [deriveCodes]

section
variable {nodes : List (Nat × Node)} {root : NodeIx} {k : Nat} (ht : TreeOk nodes root k)
include ht

theorem deriveCodes_of_codeMap (hk : k ≠ 0) {T : CodeMap} (h : codeMap nodes root = .ok T) :
    deriveCodes nodes root = .ok (codeTable T) := by
  simp [deriveCodes, PathTo.root.ne_null ht hk, h]

theorem deriveCodes_of_codeMap_error (hk : k ≠ 0) {e : WalkStop} (h : codeMap nodes root = .error e) :
    deriveCodes nodes root = .error e := by
  simp [deriveCodes, PathTo.root.ne_null ht hk, h]

theorem exists_deriveCodes_of_distinct (h : DistinctSymbols nodes root) : ∃ codes, deriveCodes nodes root = .ok codes := by
  by_cases hk : k = 0
  · rw [ht.empty.mpr hk]
    exact ⟨_, deriveCodes_empty nodes⟩
  · exact ⟨_, deriveCodes_of_codeMap ht hk
      ((codeMap_eq_foldlM ht hk).trans (enterLeaves_distinct ((nodup_leafSyms_iff ht hk).mpr h)))⟩

section
variable (hk : k ≠ 0) {pre post : List (NodeIx × Bits)} {j : NodeIx} {q : Bits}
  (hsplit : treeLeaves nodes root = pre ++ (j, q) :: post)
include hk hsplit

/-- A leaf walked before one of the list of leaves stands before it in the list. -/
theorem mem_of_walkedBefore {i : NodeIx} {p : Bits} (hp : PathTo nodes root i p) (hl : (nodeIn nodes i).leaf = true)
    (h : WalkedBefore p q) : (i, p) ∈ pre := by
  have hmem := hsplit ▸ (mem_treeLeaves ht hk).mpr ⟨hp, hl⟩
  obtain ⟨-, hafter, -⟩ := List.pairwise_append.mp (hsplit ▸ pairwise_treeLeaves nodes root)
  rw [List.mem_append, List.mem_cons] at hmem
  rcases hmem with hmem | hmem | hmem
  · exact hmem
  · cases hmem
    exact absurd h.lt (lt_irrefl _)
  · exact absurd h.lt (lt_asymm ((List.pairwise_cons.mp hafter).1 _ hmem).lt)

/-- A listed leaf whose symbol an earlier one carries is a second leaf (R93). -/
theorem secondLeafOf_of_dup (hdup : leafSym nodes (j, q) ∈ pre.map (leafSym nodes)) :
    SecondLeafOf nodes root j q (leafSym nodes (j, q)) := by
  obtain ⟨⟨i, p⟩, hip, hsym⟩ := List.mem_map.mp hdup
  obtain ⟨hi, hli⟩ := (mem_treeLeaves ht hk).mp (hsplit ▸ List.mem_append_left _ hip)
  obtain ⟨hj, hlj⟩ := (mem_treeLeaves ht hk).mp (hsplit ▸ List.mem_append_right pre List.mem_cons_self)
  obtain ⟨-, -, hacross⟩ := List.pairwise_append.mp (hsplit ▸ pairwise_treeLeaves nodes root)
  have hbefore : WalkedBefore p q := hacross _ hip _ List.mem_cons_self
  refine ⟨hj, ⟨hlj, rfl⟩, i, p, ?_, hi, ⟨hli, hsym⟩, hbefore⟩
  rintro rfl
  exact hbefore.lt.ne (hi.unique ht hk hj)

/-- No second leaf is walked before a listed leaf when the leaves listed before it carry different symbols. -/
theorem not_walkedBefore_of_nodup (hpre : (pre.map (leafSym nodes)).Nodup) {j' : NodeIx} {q' : Bits} {x : Byte}
    (h : SecondLeafOf nodes root j' q' x) : ¬WalkedBefore q' q := by
  intro hbefore
  obtain ⟨hj, ⟨hlj, hxj⟩, i, p, -, hi, ⟨hli, hxi⟩, hip⟩ := h
  obtain ⟨a, b, rfl⟩ := List.append_of_mem (mem_of_walkedBefore ht hk hsplit hj hlj hbefore)
  rw [List.append_assoc] at hsplit
  have hin := mem_of_walkedBefore ht hk hsplit hi hli hip
  rw [List.map_append, List.map_cons] at hpre
  exact (List.nodup_middle.mp hpre).notMem
    (List.mem_append_left _ (List.mem_map.mpr ⟨_, hin, hxi.trans hxj.symm⟩))

end

/-- Where two leaves carry one symbol, the walk ends at the first second leaf (R93). -/
theorem exists_deriveCodes_dup (h : ¬DistinctSymbols nodes root) :
    ∃ x j q, deriveCodes nodes root = .error (.dup x) ∧ SecondLeafOf nodes root j q x ∧
      ∀ j' q' x', SecondLeafOf nodes root j' q' x' → ¬WalkedBefore q' q := by
  have hk : k ≠ 0 := by
    rintro rfl
    exact h fun _ _ _ _ _ _ _ hl _ => absurd rfl (ht.ne_zero_of_leaf hl)
  obtain ⟨pre, ⟨j, q⟩, post, hsplit, hpre, hdup⟩ := exists_first_dup (mt (nodup_leafSyms_iff ht hk).mp h)
  have herr := (codeMap_eq_foldlM ht hk).trans (hsplit ▸ enterLeaves_dup hpre hdup)
  exact ⟨_, j, q, deriveCodes_of_codeMap_error ht hk herr, secondLeafOf_of_dup ht hk hsplit hdup,
    fun _ _ _ => not_walkedBefore_of_nodup ht hk hsplit hpre⟩

/-- Codes are derived of different symbols alone. -/
theorem distinct_of_deriveCodes {codes : List (Nat × CodeEntry)} (h : deriveCodes nodes root = .ok codes) :
    DistinctSymbols nodes root := by
  by_contra hd
  obtain ⟨x, _, _, herr, -⟩ := exists_deriveCodes_dup ht hd
  rw [h] at herr
  cases herr

/-- The entry of a symbol in a derived table: the code of a leaf that carries it, or none where no leaf does. -/
theorem tableGet_deriveCodes {codes : List (Nat × CodeEntry)} (h : deriveCodes nodes root = .ok codes) (x : Byte) :
    (∃ i p, PathTo nodes root i p ∧ LeafOf nodes i x ∧
      tableGet CodeEntry.cleared codes x.toNat = CodeEntry.ofBits (pathCode p)) ∨
    ((∀ i p, PathTo nodes root i p → ¬LeafOf nodes i x) ∧
      tableGet CodeEntry.cleared codes x.toNat = CodeEntry.cleared) := by
  by_cases hk : k = 0
  · rw [ht.empty.mpr hk, deriveCodes_empty] at h
    cases h
    exact .inr ⟨fun _ _ _ hl => ht.ne_zero_of_leaf hl hk, rfl⟩
  · have hmap := (codeMap_eq_foldlM ht hk).trans
      (enterLeaves_distinct ((nodup_leafSyms_iff ht hk).mpr (distinct_of_deriveCodes ht h)))
    rw [deriveCodes_of_codeMap ht hk hmap] at h
    cases h
    rw [codeTable, tableGet_ofSymbols]
    cases hx : (codesOf nodes (treeLeaves nodes root)).lookup x with
    | some c =>
      obtain ⟨⟨i, p⟩, hip, hsym, rfl⟩ := exists_of_lookup_codesOf hx
      obtain ⟨hp, hl⟩ := (mem_treeLeaves ht hk).mp hip
      exact .inl ⟨i, p, hp, ⟨hl, hsym⟩, rfl⟩
    | none =>
      refine .inr ⟨fun i p hp hl => lookup_codesOf_eq_none.mp hx ?_, rfl⟩
      exact List.mem_map.mpr ⟨(i, p), (mem_treeLeaves ht hk).mpr ⟨hp, hl.1⟩, hl.2⟩

/-- The entry of a symbol that a leaf carries (R90, R91). -/
theorem tableGet_deriveCodes_leaf {codes : List (Nat × CodeEntry)} (h : deriveCodes nodes root = .ok codes) {i : NodeIx}
    {p : Bits} {x : Byte} (hp : PathTo nodes root i p) (hl : LeafOf nodes i x) :
    tableGet CodeEntry.cleared codes x.toNat = CodeEntry.ofBits (pathCode p) := by
  rcases tableGet_deriveCodes ht h x with ⟨j, q, hq, hlj, hx⟩ | ⟨hnone, -⟩
  · obtain rfl := distinct_of_deriveCodes ht h i j p q x hp hq hl hlj
    rw [hx, hp.unique ht (ht.ne_zero_of_leaf hl) hq]
  · exact absurd hl (hnone i p hp)

theorem PathTo.length_pathCode_le (hk : k ≠ 0) {i : NodeIx} {p : Bits} (h : PathTo nodes root i p) :
    (pathCode p).length ≤ 255 := by
  unfold pathCode
  split
  · decide
  · exact h.length_le ht hk

end

theorem pathCode_ne_nil (p : Bits) : pathCode p ≠ [] := by
  unfold pathCode
  split
  · simp
  · assumption

/-- The code of one leaf does not begin the code of another (R94); the empty path begins every path, but is the only one of its
tree that ends at a leaf. -/
theorem PathTo.eq_of_pathCode_prefix {nodes : List (Nat × Node)} {root i j : NodeIx} {p q : Bits} (hi : PathTo nodes root i p)
    (hj : PathTo nodes root j q) (hli : (nodeIn nodes i).leaf = true) (hlj : (nodeIn nodes j).leaf = true)
    (h : pathCode p <+: pathCode q) : i = j := by
  by_cases hp : p = []
  · exact hi.eq_of_leaf_prefix hli hj (hp ▸ List.nil_prefix)
  by_cases hq : q = []
  · exact (hj.eq_of_leaf_prefix hlj hi (hq ▸ List.nil_prefix)).symm
  · rw [pathCode, pathCode, if_neg hp, if_neg hq] at h
    exact hi.eq_of_leaf_prefix hli hj h

/-! ### The command (R92, R93) -/

section
variable {s : State} (hm : s.mode = .idle) (hv : s.treeValid = true)
include hm hv

theorem exec_derive_ok {codes : List (Nat × CodeEntry)} (h : deriveCodes s.nodes s.root = .ok codes) :
    exec .derive s = .next { s with codes := codes, codesValid := true, last := okResult 0x21#8 } := by
  have ha : admitted .derive s.mode = true := beq_iff_eq.mpr hm
  rw [exec, execDerive, command_ok (u := { s.clearCodes with codes := codes, codesValid := true }) ha (by simp [hv, h]),
    State.record_okResult]
  rfl

theorem exec_derive_dup {x : Byte} (h : deriveCodes s.nodes s.root = .error (.dup x)) :
    exec .derive s = .next (s.clearCodes.record (errResult 0x21#8 (.dupSymbol x))) := by
  have ha : admitted .derive s.mode = true := beq_iff_eq.mpr hm
  rw [exec, execDerive, command_raised (u := s.clearCodes) (c := .dupSymbol x) ha (by simp [hv, h])]
  rfl

end

/-! ### The obligations -/

/-- Settles O38: a path has at most 255 edges, so the walk reaches every leaf and an entry holds its code; no leaf's symbol
has a code yet, and each symbol's entry is the code of its one leaf. -/
theorem deriveGivesEachLeafItsPath : Obligations.DeriveGivesEachLeafItsPath := by
  intro s hm hv ht hd
  have ht := invTree_valid hv ht
  obtain ⟨codes, hcodes⟩ := exists_deriveCodes_of_distinct ht hd
  refine ⟨_, exec_derive_ok hm hv hcodes, ⟨rfl, rfl⟩, rfl, fun i p x hp hl => ?_, fun x hnone => ?_, rfl⟩
  · have hle := hp.length_pathCode_le ht (ht.ne_zero_of_leaf hl)
    simp only [State.codeAt, tableGet_deriveCodes_leaf ht hcodes hp hl]
    refine ⟨rfl, CodeEntry.ofBits_len hle, CodeEntry.code_ofBits hle, fun j hj => ?_⟩
    rw [CodeEntry.ofBits_getLsbD hle, List.getD_eq_default _ _ hj]
  · rcases tableGet_deriveCodes ht hcodes x with ⟨i, p, hp, hl, -⟩ | ⟨-, hx⟩
    · exact absurd hl (hnone i p hp)
    · exact hx

/-- Settles O39: the leaves stand in the list in the order of the walk, and the first of them whose symbol an earlier one
carries ends the walk. -/
theorem deriveRefusesDuplicateSymbols : Obligations.DeriveRefusesDuplicateSymbols := by
  intro s hm hv ht hd
  obtain ⟨x, j, q, herr, hsecond, hfirst⟩ := exists_deriveCodes_dup (invTree_valid hv ht) hd
  exact ⟨_, x, j, q, exec_derive_dup hm hv herr, raises_record _ _ rfl, hsecond, hfirst, fun _ => rfl, rfl, rfl⟩

/-- Settles O40: a valid code is the path of a leaf, which no path to another node goes on from. -/
theorem codesArePrefixFree : Obligations.CodesArePrefixFree := by
  intro s ht hc hv x y hx
  obtain ⟨htree, hcodes⟩ : s.treeValid = true ∧ deriveCodes s.nodes s.root = .ok s.codes := by simpa [InvCodes, hv] using hc
  have ht := invTree_valid htree ht
  have hvalid {z : Byte} (hz : (s.codeAt z).valid = true) :
      ∃ i p, PathTo s.nodes s.root i p ∧ LeafOf s.nodes i z ∧ (s.codeAt z).code = pathCode p := by
    rcases tableGet_deriveCodes ht hcodes z with ⟨i, p, hp, hl, he⟩ | ⟨-, he⟩
    · have hle := hp.length_pathCode_le ht (ht.ne_zero_of_leaf hl)
      exact ⟨i, p, hp, hl, by rw [State.codeAt, he, CodeEntry.code_ofBits hle]⟩
    · rw [State.codeAt, he] at hz
      cases hz
  obtain ⟨i, p, hp, hl, hxc⟩ := hvalid hx
  refine ⟨hxc ▸ pathCode_ne_nil p, CodeEntry.length_code _, fun hy hne h => hne ?_⟩
  obtain ⟨j, q, hq, hlj, hyc⟩ := hvalid hy
  rw [hxc, hyc] at h
  obtain rfl := hp.eq_of_pathCode_prefix hq hl.1 hlj.1 h
  exact hl.2.symm.trans hlj.2

end Sys2Proof.Machine
end

section
/-!
PROOFS, 43_tree_codec.md sections 1 and 3. The bytes of a record (R97 to R100) and what the scanner makes of them (R103 to R105),
in both directions.
-/

namespace Sys2Proof.Machine

/-! ### Numerals (R97, R103) -/

theorem isDigit_iff {b : Byte} : isDigit b = true ↔ 0x30 ≤ b.toNat ∧ b.toNat ≤ 0x39 := by simp [isDigit]

/-- The digit of a number below 10. -/
theorem toNat_digit {v : Nat} (h : v < 10) : (BitVec.ofNat 8 (0x30 + v)).toNat = 0x30 + v := by
  rw [BitVec.toNat_ofNat]
  omega

theorem isDigit_digit {v : Nat} (h : v < 10) : isDigit (BitVec.ofNat 8 (0x30 + v)) = true := by
  rw [isDigit_iff, toNat_digit h]
  omega

/-- A digit is the digit of its value. -/
theorem digit_toNat {b : Byte} (h : isDigit b = true) : BitVec.ofNat 8 (0x30 + (b.toNat - 0x30)) = b := by
  rw [Nat.add_sub_cancel' (isDigit_iff.mp h).1]
  simp

theorem numeral_concat (run : List Byte) (b : Byte) : numeral (run ++ [b]) = 10 * numeral run + (b.toNat - 0x30) := by
  simp [numeral]

theorem length_digitsOf_le (n v : Nat) : (digitsOf n v).length ≤ n := by
  induction n generalizing v with
  | zero => simp [digitsOf]
  | succ n ih =>
    have := ih (v / 10)
    rw [digitsOf]
    split
    · simp
    · rw [List.length_append, List.length_singleton]
      omega

theorem isDigit_of_mem_digitsOf {n v : Nat} {b : Byte} (h : b ∈ digitsOf n v) : isDigit b = true := by
  induction n generalizing v with
  | zero => cases h
  | succ n ih =>
    rw [digitsOf] at h
    split at h
    · next hv => exact List.mem_singleton.mp h ▸ isDigit_digit hv
    · rcases List.mem_append.mp h with h | h
      · exact ih h
      · exact List.mem_singleton.mp h ▸ isDigit_digit (Nat.mod_lt _ (by omega))

/-- The digits of a number that has at most n of them are a numeral of it. -/
theorem numeral_digitsOf {n v : Nat} (h : v < 10 ^ n) : numeral (digitsOf n v) = v := by
  induction n generalizing v with
  | zero => simp [digitsOf, numeral, show v = 0 by simpa using h]
  | succ n ih =>
    rw [digitsOf]
    split
    · next hv =>
      have := toNat_digit hv
      simp [numeral, this]
    · have hd : v / 10 < 10 ^ n := Nat.div_lt_of_lt_mul (by rwa [Nat.pow_succ'] at h)
      rw [numeral_concat, ih hd, toNat_digit (Nat.mod_lt _ (by omega))]
      omega

theorem digitsOf_ne_nil (n v : Nat) : digitsOf (n + 1) v ≠ [] := by
  rw [digitsOf]
  split <;> simp

/-- A run of two or more digits that begins with a `0`. -/
def ZeroLed (run : List Byte) : Prop := ∃ d rest, run = 0x30#8 :: d :: rest ∧ isDigit d = true

theorem numeral_pos {run : List Byte} (hne : run ≠ []) (hd : ∀ b ∈ run, isDigit b = true) (h0 : run.head? ≠ some 0x30#8) :
    0 < numeral run := by
  induction run using List.reverseRecOn with
  | nil => exact absurd rfl hne
  | append_singleton run b ih =>
    rw [numeral_concat]
    cases run with
    | nil =>
      have hb := isDigit_iff.mp (hd b (by simp))
      have : b.toNat ≠ 0x30 := fun e => h0 (by simp [show b = 0x30#8 from BitVec.eq_of_toNat_eq e])
      simp [numeral]
      omega
    | cons a run =>
      have := ih (by simp) (fun b hb => hd b (by simp at hb ⊢; tauto)) (by simpa using h0)
      omega

/-- A run of digits with no leading zero is the numeral R97 writes of its value. -/
theorem digitsOf_numeral {n : Nat} {run : List Byte} (hn : n ≠ 0) (hne : run ≠ []) (hd : ∀ b ∈ run, isDigit b = true)
    (hz : ¬ZeroLed run) (hv : numeral run < 10 ^ n) : digitsOf n (numeral run) = run := by
  induction run using List.reverseRecOn generalizing n with
  | nil => exact absurd rfl hne
  | append_singleton run b ih =>
    obtain ⟨n, rfl⟩ := Nat.exists_eq_add_one_of_ne_zero hn
    obtain ⟨hd, hb⟩ : (∀ b ∈ run, isDigit b = true) ∧ isDigit b = true := by
      simpa [or_imp, forall_and] using hd
    have hb9 := (isDigit_iff.mp hb).2
    rw [numeral_concat] at hv ⊢
    cases run with
    | nil => simp [digitsOf, numeral, show b.toNat - 0x30 < 10 by omega, digit_toNat hb]
    | cons a run =>
      have hpos : 0 < numeral (a :: run) := by
        refine numeral_pos (by simp) hd fun e => hz ?_
        obtain rfl : a = 0x30#8 := by simpa using e
        cases run with
        | nil => exact ⟨b, [], rfl, hb⟩
        | cons d run => exact ⟨d, run ++ [b], rfl, hd d (by simp)⟩
      have hlt : numeral (a :: run) < 10 ^ n := by rw [Nat.pow_succ'] at hv; omega
      have hn : n ≠ 0 := by rintro rfl; simp at hlt; omega
      have hz : ¬ZeroLed (a :: run) := fun ⟨d, rest, e, hdd⟩ => hz ⟨d, rest ++ [b], by simp [e], hdd⟩
      rw [digitsOf, if_neg (by omega), show (10 * numeral (a :: run) + (b.toNat - 0x30)) / 10 = numeral (a :: run) by omega,
        show (10 * numeral (a :: run) + (b.toNat - 0x30)) % 10 = b.toNat - 0x30 by omega, digit_toNat hb,
        ih hn (by simp) hd hz hlt]

theorem isDigit_of_mem_decimal {v : Word} {b : Byte} (h : b ∈ decimal v) : isDigit b = true := isDigit_of_mem_digitsOf h

theorem decimal_ne_nil (v : Word) : decimal v ≠ [] := digitsOf_ne_nil 9 _

theorem length_decimal_le (v : Word) : (decimal v).length ≤ 10 := length_digitsOf_le 10 _

@[simp] theorem numeral_decimal (v : Word) : numeral (decimal v) = v.toNat :=
  numeral_digitsOf (v.isLt.trans (by decide))

/-- A byte that is no digit stands in no numeral. -/
theorem not_mem_decimal {b : Byte} (h : isDigit b = false) (v : Word) : b ∉ decimal v := fun hb => by
  simp [isDigit_of_mem_decimal hb] at h

/-! ### The classification of a run (R103) -/

theorem classify_newline {run : List Byte} (h : chLF ∈ run) : classify run = .error .rawNewline := by simp [classify, h]

theorem classify_nil : classify [] = .error .badSeparator := rfl

@[simp] theorem classify_sentinel : classify sentinel = .ok .sent := rfl

theorem classify_digits {run : List Byte} (hne : run ≠ []) (hd : ∀ b ∈ run, isDigit b = true) :
    classify run = if numeral run ≤ Config.totalMax then .ok (.num (BitVec.ofNat 32 (numeral run))) else .error .freqRange := by
  have hlf : chLF ∉ run := fun h => absurd (hd _ h) (by decide)
  have hs : run ≠ sentinel := fun h => absurd (hd 0x2D#8 (by simp [h, sentinel])) (by decide)
  simp [classify, hlf, hne, hs, List.all_eq_true.mpr hd]

theorem classify_badToken {run : List Byte} (hlf : chLF ∉ run) (hne : run ≠ []) (hs : run ≠ sentinel)
    (hd : ∃ b ∈ run, isDigit b = false) : classify run = .error .badToken := by
  have hall : run.all isDigit = false := by simpa using hd
  simp [classify, hlf, hne, hs, hall]

@[simp] theorem classify_decimal (v : Word) : classify (decimal v) = .ok (.num v) := by
  rw [classify_digits (decimal_ne_nil v) fun _ => isDigit_of_mem_decimal, numeral_decimal,
    if_pos (show v.toNat ≤ Config.totalMax from Nat.le_of_lt_succ v.isLt)]
  simp

/-- The record of a numeric token that stands alone. -/
def NumTok.record : NumTok → Record
  | .sent => .sentinel
  | .num v => .internal v

/-- A classified run is what R100 writes of its token, but for a leading zero. -/
theorem bytes_of_classify {run : List Byte} {t : NumTok} (h : classify run = .ok t) (hz : ¬ZeroLed run) :
    run = t.record.bytes := by
  unfold classify at h
  split at h
  · cases h
  split at h
  · cases h
  next hne =>
  split at h
  · next hs =>
    cases h
    exact hs
  split at h
  · next hd =>
    split at h
    · next hv =>
      cases h
      rw [Config.totalMax] at hv
      show run = decimal _
      rw [decimal, BitVec.toNat_ofNat, Nat.mod_eq_of_lt (by omega)]
      exact (digitsOf_numeral (by decide) (by simpa using hne) (List.all_eq_true.mp hd) hz (by omega)).symm
    · cases h
  · cases h

/-! ### What a token does (R104) -/

/-- A token adds its record to those that the end of the stream would add, or it is the second sentinel after a number. -/
theorem ScanState.token_cases (st : ScanState) (t : NumTok) :
    (∃ added st', st.token t = .next added st' ∧ added ++ st'.atEnd = st.atEnd ++ [t.record]) ∨
    (∃ f, st = .afterNumS f ∧ t = .sent ∧ st.token t = .symbol f) := by
  cases st with
  | ready => cases t <;> exact .inl ⟨_, _, rfl, rfl⟩
  | afterNum f => cases t <;> exact .inl ⟨_, _, rfl, rfl⟩
  | afterNumS f =>
    cases t with
    | sent => exact .inr ⟨f, rfl, rfl, rfl⟩
    | num v => exact .inl ⟨_, _, rfl, rfl⟩

section
variable {run : List Byte} {t : NumTok} (hr : chSP ∉ run) (st : ScanState) (R : List Record) (rest : List Byte)
include hr

theorem scanLoop_run : scanLoop st R run = Scanner.finish ⟨.number st run, R⟩ := by
  simpa [scanLoop] using scanFrom_number_run st [] run R hr []

theorem scanLoop_run_sp : scanLoop st R (run ++ chSP :: rest) = scanFrom ⟨.number st run, R⟩ (chSP :: rest) :=
  scanFrom_number_run st [] run R hr _

theorem scanLoop_error {d : TreeDefect} (hc : classify run = .error d) :
    scanLoop st R run = .error d ∧ scanLoop st R (run ++ chSP :: rest) = .error d := by
  rw [scanLoop_run hr, scanLoop_run_sp hr, scanFrom_number_sp]
  simp [Scanner.finish, hc]

theorem scanLoop_next (hc : classify run = .ok t) {added : List Record} {st' : ScanState} (ht : st.token t = .next added st') :
    scanLoop st R run = .ok (R ++ added ++ st'.atEnd) ∧
      scanLoop st R (run ++ chSP :: rest) = scanLoop st' (R ++ added) rest := by
  rw [scanLoop_run hr, scanLoop_run_sp hr, scanFrom_number_sp]
  simp [Scanner.finish, hc, ht, scanLoop]

theorem scanLoop_symbol (hc : classify run = .ok t) {f : Word} (ht : st.token t = .symbol f) :
    scanLoop st R run = .error .endMidRecord ∧ scanLoop st R (run ++ chSP :: rest) = scanSymbol f R rest := by
  rw [scanLoop_run hr, scanLoop_run_sp hr, scanFrom_number_sp]
  simp [Scanner.finish, hc, ht, scanSymbol]

end

/-! ### The symbol phase (R105) -/

section
variable (f : Word) (R : List Record) (rest : List Byte)

@[simp] theorem scanSymbol_nil : scanSymbol f R [] = .error .endMidRecord := rfl

@[simp] theorem scanSymbol_newline : scanSymbol f R (chLF :: rest) = .error .rawNewline := rfl

@[simp] theorem scanSymbol_escape :
    scanSymbol f R (chBackslash :: chN :: rest) = scanAfterSymbol (R ++ [Record.leaf f chLF]) rest := rfl

@[simp] theorem scanAfterSymbol_nil : scanAfterSymbol R [] = .ok R := rfl

@[simp] theorem scanAfterSymbol_sp : scanAfterSymbol R (chSP :: rest) = scanLoop .ready R rest := rfl

theorem scanAfterSymbol_bad {c : Byte} (hc : c ≠ chSP) : scanAfterSymbol R (c :: rest) = .error .badSymbol := by
  simp [scanAfterSymbol, scanFrom_cons, Scanner.byte, hc]

/-- A `\` that begins no escape is the symbol: the byte after it is met as after any other symbol. -/
theorem scanSymbol_backslash (h : rest.head? ≠ some chN) :
    scanSymbol f R (chBackslash :: rest) = scanAfterSymbol (R ++ [Record.leaf f chBackslash]) rest := by
  cases rest with
  | nil => rfl
  | cons c rest =>
    have hc : c ≠ chN := by simpa using h
    by_cases hs : c = chSP
    · subst hs
      rfl
    · have hescape : scanSymbol f R (chBackslash :: c :: rest) = scanFrom ⟨.escape f, R⟩ (c :: rest) := rfl
      rw [hescape, scanAfterSymbol_bad _ _ hs]
      simp [scanFrom_cons, Scanner.byte, hc, hs]

theorem scanSymbol_raw {c : Byte} (hlf : c ≠ chLF) (hesc : ¬(c = chBackslash ∧ rest.head? = some chN)) :
    scanSymbol f R (c :: rest) = scanAfterSymbol (R ++ [Record.leaf f c]) rest := by
  by_cases hb : c = chBackslash
  · subst hb
    exact scanSymbol_backslash f R rest fun h => hesc ⟨rfl, h⟩
  · simp [scanSymbol, scanFrom_cons, Scanner.byte, hlf, hb, scanAfterSymbol]

theorem symbolToken_newline : symbolToken chLF = [chBackslash, chN] := rfl

theorem symbolToken_raw {s : Byte} (h : s ≠ chLF) : symbolToken s = [s] := if_neg h

/-- The scanner reads a symbol token back, whatever its symbol. -/
theorem scanSymbol_symbolToken (s : Byte) (h : rest.head? ≠ some chN) :
    scanSymbol f R (symbolToken s ++ rest) = scanAfterSymbol (R ++ [Record.leaf f s]) rest := by
  by_cases hs : s = chLF
  · subst hs
    rfl
  · rw [symbolToken_raw hs]
    exact scanSymbol_raw f R rest hs fun hesc => h hesc.2

end

/-! ### Reading records back (R100, R104) -/

theorem sp_not_mem_decimal (v : Word) : chSP ∉ decimal v := not_mem_decimal (by decide) v

theorem sp_not_mem_sentinel : chSP ∉ sentinel := by decide

section
variable (st : ScanState) (R : List Record) (v : Word) (rest : List Byte)

/-- A numeral ends what was pending, and is pending itself. -/
theorem scanLoop_decimal : scanLoop st R (decimal v) = .ok (R ++ st.atEnd ++ [.internal v]) ∧
    scanLoop st R (decimal v ++ chSP :: rest) = scanLoop (.afterNum v) (R ++ st.atEnd) rest := by
  have ht : st.token (.num v) = .next st.atEnd (.afterNum v) := by cases st <;> rfl
  exact scanLoop_next (sp_not_mem_decimal v) st R rest (classify_decimal v) ht

theorem scanLoop_leaf (s : Byte) (h : rest.head? ≠ some chN) : scanLoop st R ((Record.leaf v s).bytes ++ rest) =
    scanAfterSymbol (R ++ st.atEnd ++ [.leaf v s]) rest := by
  have hfirst (rest) : scanLoop (.afterNum v) (R ++ st.atEnd) (sentinel ++ chSP :: rest) =
      scanLoop (.afterNumS v) (R ++ st.atEnd ++ []) rest :=
    (scanLoop_next sp_not_mem_sentinel _ _ rest classify_sentinel rfl).2
  have hsecond (rest) : scanLoop (.afterNumS v) (R ++ st.atEnd) (sentinel ++ chSP :: rest) = scanSymbol v (R ++ st.atEnd) rest :=
    (scanLoop_symbol sp_not_mem_sentinel _ _ rest classify_sentinel rfl).2
  have hbytes : (Record.leaf v s).bytes ++ rest =
      decimal v ++ chSP :: (sentinel ++ chSP :: (sentinel ++ chSP :: (symbolToken s ++ rest))) := by simp [Record.bytes]
  rw [hbytes, (scanLoop_decimal st R v _).2, hfirst, List.append_nil, hsecond,
    scanSymbol_symbolToken _ _ _ _ h]

end

theorem joinRecords_cons {rs : List Record} (h : rs ≠ []) (r : Record) :
    joinRecords (r :: rs) = r.bytes ++ chSP :: joinRecords rs := by
  cases rs with
  | nil => exact absurd rfl h
  | cons r' rs => simp [joinRecords]

/-- From any state the scanner ends what is pending and reads node records back. -/
theorem scanLoop_joinRecords {rs : List Record} (hne : rs ≠ []) (hs : .sentinel ∉ rs) (st : ScanState) (R : List Record) :
    scanLoop st R (joinRecords rs) = .ok (R ++ st.atEnd ++ rs) := by
  induction rs generalizing st R with
  | nil => exact absurd rfl hne
  | cons r rs ih =>
    obtain ⟨hr, hsrs⟩ : .sentinel ≠ r ∧ .sentinel ∉ rs := by simpa using hs
    by_cases hrs : rs = []
    · subst hrs
      cases r with
      | sentinel => exact absurd rfl hr
      | internal v => exact (scanLoop_decimal st R v []).1
      | leaf v s => simpa [joinRecords] using scanLoop_leaf st R v [] s (by simp)
    · rw [joinRecords_cons hrs]
      cases r with
      | sentinel => exact absurd rfl hr
      | internal v =>
        refine (scanLoop_decimal st R v _).2.trans ((ih hrs hsrs _ _).trans ?_)
        simp [ScanState.atEnd]
      | leaf v s =>
        rw [scanLoop_leaf st R v _ s (by simp [chSP, chN]), scanAfterSymbol_sp, ih hrs hsrs]
        simp [ScanState.atEnd]

theorem Record.bytes_ne_nil (r : Record) : r.bytes ≠ [] := by
  cases r <;> simp [Record.bytes, Machine.sentinel, decimal_ne_nil]

theorem joinRecords_ne_nil {rs : List Record} (h : rs ≠ []) : joinRecords rs ≠ [] := by
  cases rs with
  | nil => exact absurd rfl h
  | cons r rs => cases rs <;> simp [joinRecords, Record.bytes_ne_nil]

theorem scan_eq_scanLoop {B : List Byte} (h : B ≠ []) : scan B = scanLoop .ready [] B := by
  simp [scan, h, scanLoop, Scanner.start]

/-! ### Writing records back (R111) -/

/-- Records, each with the SP that ends it. -/
def spacedRecords (R : List Record) : List Byte := R.flatMap fun r => r.bytes ++ [chSP]

theorem spacedRecords_concat (R : List Record) (r : Record) :
    spacedRecords (R ++ [r]) = spacedRecords R ++ r.bytes ++ [chSP] := by
  simp [spacedRecords]

theorem joinRecords_append_sp {R : List Record} (h : R ≠ []) : joinRecords R ++ [chSP] = spacedRecords R := by
  induction R with
  | nil => exact absurd rfl h
  | cons r R ih =>
    by_cases hR : R = []
    · simp [hR, joinRecords, spacedRecords]
    · rw [joinRecords_cons hR, List.append_assoc, List.cons_append, ih hR]
      simp [spacedRecords]

theorem joinRecords_of_spaced {R : List Record} {A : List Byte} (h : A ++ [chSP] = spacedRecords R) : joinRecords R = A := by
  have hne : R ≠ [] := by
    rintro rfl
    simp [spacedRecords] at h
  exact List.append_cancel_right ((joinRecords_append_sp hne).trans h.symm)

/-- A numeral with a leading zero after a SP, or at the start. -/
theorem leadingZero_of_zeroLed {R : List Record} {run : List Byte} (h : ZeroLed run) (post : List Byte) :
    LeadingZero (spacedRecords R ++ run ++ post) := by
  obtain ⟨d, rest, rfl, hd⟩ := h
  refine ⟨(spacedRecords R).length, d, by simp, by simp, hd, ?_⟩
  cases R using List.reverseRecOn with
  | nil => exact .inl rfl
  | append_singleton R r => exact .inr (by simp [spacedRecords_concat])

/-- The scanner stands where it does after the bytes A: they are what R100 writes of the records so far and of what is
pending. -/
def Scanner.Read (z : Scanner) (A : List Byte) : Prop :=
  match z.cursor with
  | .number st run => A = spacedRecords (z.records ++ st.atEnd) ++ run
  | .symbol f => A = spacedRecords (z.records ++ [.internal f, .sentinel, .sentinel])
  | .escape f => A = spacedRecords (z.records ++ [.internal f, .sentinel, .sentinel]) ++ [chBackslash]
  | .symbolDone => A ++ [chSP] = spacedRecords z.records

/-- What the scanner has read before a symbol, and the symbol's token, are the leaf's record. -/
theorem spacedRecords_leaf (R : List Record) (f : Word) (s : Byte) :
    spacedRecords (R ++ [Record.internal f, .sentinel, .sentinel]) ++ symbolToken s ++ [chSP] =
      spacedRecords (R ++ [.leaf f s]) := by
  simp [spacedRecords, Record.bytes]

theorem Scanner.Read.byte {z z' : Scanner} {A : List Byte} {b : Byte} (h : z.Read A) (hb : z.byte b = .ok z')
    (post : List Byte) (hz : ¬LeadingZero (A ++ b :: post)) : z'.Read (A ++ [b]) := by
  obtain ⟨cursor, R⟩ := z
  cases cursor with
  | number st run =>
    obtain rfl : A = spacedRecords (R ++ st.atEnd) ++ run := h
    by_cases hsp : b = chSP
    · subst hsp
      cases hc : classify run with
      | error d => simp [Scanner.byte, hc] at hb
      | ok t =>
        have hrun := bytes_of_classify hc fun h => hz (leadingZero_of_zeroLed h _)
        have hread : spacedRecords (R ++ st.atEnd) ++ run ++ [chSP] = spacedRecords (R ++ (st.atEnd ++ [t.record])) := by
          rw [← List.append_assoc R, spacedRecords_concat, ← hrun]
        rcases st.token_cases t with ⟨added, st', ht, hadded⟩ | ⟨f, rfl, rfl, ht⟩
        · simp only [Scanner.byte, hc, ht, if_true, Except.ok.injEq] at hb
          subst hb
          simpa [Scanner.Read, hadded] using hread
        · simp only [Scanner.byte, hc, ht, if_true, Except.ok.injEq] at hb
          subst hb
          exact hread
    · simp only [Scanner.byte, hsp, if_false, Except.ok.injEq] at hb
      subst hb
      simp [Scanner.Read]
  | symbol f =>
    obtain rfl : A = spacedRecords (R ++ [Record.internal f, .sentinel, .sentinel]) := h
    by_cases hlf : b = chLF
    · simp [Scanner.byte, hlf] at hb
    by_cases hbs : b = chBackslash
    · subst hbs
      cases hb
      rfl
    · simp only [Scanner.byte, hlf, hbs, if_false, Except.ok.injEq] at hb
      subst hb
      have hleaf := spacedRecords_leaf R f b
      rwa [symbolToken_raw hlf] at hleaf
  | escape f =>
    obtain rfl : A = spacedRecords (R ++ [Record.internal f, .sentinel, .sentinel]) ++ [chBackslash] := h
    by_cases hn : b = chN
    · subst hn
      cases hb
      simpa [Scanner.Read, symbolToken_newline] using spacedRecords_leaf R f chLF
    by_cases hsp : b = chSP
    · subst hsp
      cases hb
      have hraw : symbolToken chBackslash = [chBackslash] := rfl
      simpa [Scanner.Read, ScanState.atEnd, hraw] using spacedRecords_leaf R f chBackslash
    · simp [Scanner.byte, hn, hsp] at hb
  | symbolDone =>
    by_cases hsp : b = chSP
    · subst hsp
      cases hb
      simpa [Scanner.Read, ScanState.atEnd] using h
    · simp [Scanner.byte, hsp] at hb

theorem Scanner.Read.run {z z' : Scanner} {A B : List Byte} (h : z.Read A) (hB : z.run B = .ok z')
    (hz : ¬LeadingZero (A ++ B)) : z'.Read (A ++ B) := by
  induction B generalizing z A with
  | nil =>
    cases hB
    simpa using h
  | cons b B ih =>
    simp only [Scanner.run] at hB
    cases hb : z.byte b with
    | error d => simp [hb] at hB
    | ok z₁ =>
      have hread := ih (h.byte hb B hz) (by simpa [hb] using hB) (by simpa using hz)
      simpa using hread

theorem Scanner.Read.finish {z : Scanner} {A : List Byte} {R : List Record} (h : z.Read A) (hR : z.finish = .ok R)
    (hz : ¬LeadingZero A) : joinRecords R = A := by
  apply joinRecords_of_spaced
  obtain ⟨cursor, R'⟩ := z
  cases cursor with
  | number st run =>
    obtain rfl : A = spacedRecords (R' ++ st.atEnd) ++ run := h
    cases hc : classify run with
    | error d => simp [Scanner.finish, hc] at hR
    | ok t =>
      have hrun := bytes_of_classify hc fun h => hz (by simpa using leadingZero_of_zeroLed h [])
      rcases st.token_cases t with ⟨added, st', ht, hadded⟩ | ⟨f, rfl, rfl, ht⟩
      · simp only [Scanner.finish, hc, ht, Except.ok.injEq] at hR
        rw [← hR, List.append_assoc R', hadded, ← List.append_assoc R', spacedRecords_concat, ← hrun]
      · simp [Scanner.finish, hc, ht] at hR
  | symbol f => cases hR
  | escape f =>
    obtain rfl : A = spacedRecords (R' ++ [Record.internal f, .sentinel, .sentinel]) ++ [chBackslash] := h
    cases hR
    exact spacedRecords_leaf R' f chBackslash
  | symbolDone =>
    cases hR
    exact h

/-- What the scanner accepts with no leading zero is what R100 writes of the records. -/
theorem joinRecords_of_scan {B : List Byte} {R : List Record} (h : scan B = .ok R) (hz : ¬LeadingZero B) :
    joinRecords R = B := by
  by_cases hB : B = []
  · subst hB
    cases h
    rfl
  · rw [scan_eq_scanLoop hB, scanLoop, scanFrom] at h
    cases hrun : Scanner.run ⟨.number .ready [], []⟩ B with
    | error d => simp [hrun] at h
    | ok z =>
      have hread : z.Read ([] ++ B) := Scanner.Read.run (by rfl) hrun hz
      exact hread.finish (by simpa [hrun] using h) hz

end Sys2Proof.Machine
end

section
/-!
PROOFS, 43_tree_codec.md sections 2 and 4. The records of a tree in level order: the reconstruction numbers its entries in that
order (R106), so the serializer visits them in it (R101); and a tree is determined by its records (R111).
-/

namespace Sys2Proof.Machine

/-! ### The record of an entry (R101, R106) -/

/-- The record the serializer writes of an entry. -/
def Node.record (x : Node) : Record := if x.leaf then .leaf x.freq x.sym else .internal x.freq

theorem Record.record_of_node? {r : Record} {x : Node} (h : r.node? = some x) : x.record = r := by
  cases r <;> cases h <;> rfl

@[simp] theorem Node.record_attach (x : Node) (side : Side) (i : NodeIx) : (x.attach side i).record = x.record := by
  cases side <;> rfl

/-- Attaching a new entry changes no earlier entry's record. -/
theorem map_record_attachNew (l : List Node) (p : Nat) (side : Side) (x : Node) :
    (attachNew l p side x).map Node.record = l.map Node.record ++ [x.record] := by
  have hold : (l.modify p fun y => y.attach side (BitVec.ofNat 9 l.length)).map Node.record = l.map Node.record := by
    refine List.ext_getElem? fun n => ?_
    simp only [List.getElem?_map, List.getElem?_modify]
    cases l[n]? with
    | none => rfl
    | some y => by_cases hp : p = n <;> simp [hp]
  rw [attachNew, List.map_append, hold, List.map_singleton]

/-- A record of an internal node. -/
def Record.isInternal : Record → Bool
  | .internal _ => true
  | .sentinel | .leaf _ _ => false

theorem Record.leaf_of_node? {r : Record} {x : Node} (h : r.node? = some x) : x.leaf = !r.isInternal := by
  cases r <;> cases h <;> rfl

theorem Record.node?_eq_none {r : Record} : r.node? = none ↔ r = .sentinel := by cases r <;> simp [Record.node?]

theorem leavesOpen_iff {rs : List Record} : LeavesOpen rs ↔ rs.length < 2 * rs.countP Record.isInternal + 1 := by
  rw [List.countP_eq_length_filter]
  exact Iff.rfl

/-! ### Attaching records one after the other (R106) -/

/-- The store after the first record. -/
def Rebuild.first (x : Node) : Rebuild := ⟨[x], if x.leaf then [] else [0], .left⟩

/-- The end of the reconstruction: no child is missing. -/
def Rebuild.close (z : Rebuild) : Except TreeDefect (List Node) :=
  if z.queue.isEmpty then .ok z.nodes else .error .missingChild

/-- The records `rs` are attached with no error, and the store is then `z`. -/
inductive Attached : List Record → Rebuild → Prop where
  | first {r : Record} {x : Node} : r.node? = some x → Attached [r] (Rebuild.first x)
  | next {rs : List Record} {r : Record} {z z' : Rebuild} : Attached rs z → z.record r = .ok z' → Attached (rs ++ [r]) z'

theorem Attached.run {rs rest : List Record} {z z' : Rebuild} (h : Attached rs z) (hr : z.run rest = .ok z') :
    Attached (rs ++ rest) z' := by
  induction rest generalizing rs z with
  | nil =>
    cases hr
    simpa using h
  | cons r rest ih =>
    rw [Rebuild.run] at hr
    cases hz : z.record r with
    | error d => simp [hz] at hr
    | ok z₁ => simpa using ih (h.next hz) (by simpa [hz] using hr)

/-- The reconstruction goes on from the records attached. -/
theorem Attached.rebuild_append {rs : List Record} {z : Rebuild} (h : Attached rs z) (rest : List Record) :
    rebuild (rs ++ rest) = z.run rest >>= Rebuild.close := by
  induction h generalizing rest with
  | first hx =>
    simp only [List.singleton_append, rebuild, hx, Rebuild.first]
    cases Rebuild.run _ rest <;> rfl
  | next _ hr ih => rw [List.append_assoc, List.singleton_append, ih, Rebuild.run, hr]

theorem Attached.rebuild_eq {rs : List Record} {z : Rebuild} (h : Attached rs z) : rebuild rs = z.close :=
  (congrArg rebuild (List.append_nil rs).symm).trans (h.rebuild_append [])

theorem Attached.rebuild_error {rs : List Record} {z : Rebuild} (h : Attached rs z) {r : Record} {d : TreeDefect}
    (hr : z.record r = .error d) (rest : List Record) : rebuild (rs ++ r :: rest) = .error d := by
  rw [h.rebuild_append, Rebuild.run, hr]
  rfl

theorem rebuild_sentinel (rs : List Record) :
    rebuild (.sentinel :: rs) = if ∀ r ∈ rs, r = .sentinel then .ok [] else .error .leftover := by
  simp [rebuild, Record.node?]

theorem Rebuild.record_leftover {z : Rebuild} (hq : z.queue = []) (r : Record) : z.record r = .error .leftover := by
  simp [Rebuild.record, hq]

section
variable {z : Rebuild} (hq : z.queue ≠ [])
include hq

theorem Rebuild.record_sentinel : z.record .sentinel = .error .sentinelChild := by
  obtain ⟨p, q, hq⟩ := List.exists_cons_of_ne_nil hq
  simp [Rebuild.record, hq, Record.node?]

theorem Rebuild.record_full {r : Record} (hr : r ≠ .sentinel) (hfull : z.nodes.length = Config.nodeCap) :
    z.record r = .error .tooManyNodes := by
  obtain ⟨p, q, hq⟩ := List.exists_cons_of_ne_nil hq
  obtain ⟨x, hx⟩ := Option.ne_none_iff_exists'.mp (mt Record.node?_eq_none.mp hr)
  simp [Rebuild.record, hq, hx, hfull]

end

/-- A record list accepted as a tree with a node is one whose records are attached with no child missing at the end. -/
theorem exists_attached {R : List Record} {nodes : List Node} (h : rebuild R = .ok nodes) (hne : nodes ≠ []) :
    ∃ z, Attached R z ∧ z.queue = [] ∧ z.nodes = nodes := by
  cases R with
  | nil =>
    cases h
    exact absurd rfl hne
  | cons r rs =>
    cases hr : r.node? with
    | none =>
      simp only [rebuild, hr] at h
      split at h <;> cases h
      exact absurd rfl hne
    | some x =>
      have hfirst := Attached.first hr
      have hall : (Rebuild.first x).run rs >>= Rebuild.close = .ok nodes := (hfirst.rebuild_append rs).symm.trans h
      cases hz : (Rebuild.first x).run rs with
      | error d =>
        rw [hz] at hall
        cases hall
      | ok z =>
        have hclose : z.close = .ok nodes := by rwa [hz] at hall
        unfold Rebuild.close at hclose
        split at hclose
        · next hq => exact ⟨z, hfirst.run hz, List.isEmpty_iff.mp hq, by simpa using hclose⟩
        · cases hclose

theorem Attached.rebuilding {rs : List Record} {z : Rebuild} (h : Attached rs z) : Rebuilding z := by
  induction h with
  | first hx => exact Rebuilding.start hx
  | next _ hr ih => exact ih.record hr

/-- The entries are the records' own, in their order. -/
theorem Attached.map_record {rs : List Record} {z : Rebuild} (h : Attached rs z) : z.nodes.map Node.record = rs := by
  induction h with
  | first hx => simp [Rebuild.first, Record.record_of_node? hx]
  | next _ hr ih =>
    obtain ⟨p, q, x, -, hx, -, hn, -, -⟩ := Rebuild.record_ok hr
    rw [hn, map_record_attachNew, ih, Record.record_of_node? hx]

theorem Attached.length_nodes {rs : List Record} {z : Rebuild} (h : Attached rs z) : z.nodes.length = rs.length := by
  rw [← h.map_record, List.length_map]

/-- The child positions still open: two for each entry in Q, but for its front where the left one is filled. -/
theorem Attached.count_open {rs : List Record} {z : Rebuild} (h : Attached rs z) :
    (z.side = .right → z.queue ≠ []) ∧
    rs.length + 2 * z.queue.length = 2 * rs.countP Record.isInternal + 1 + if z.side = .right then 1 else 0 := by
  induction h with
  | @first r x hx =>
    have hl := Record.leaf_of_node? hx
    cases hi : r.isInternal <;> simp [Rebuild.first, hl, hi]
  | @next rs r z z' _ hr ih =>
    obtain ⟨p, q, x, hq, hx, -, -, hq', hs'⟩ := Rebuild.record_ok hr
    obtain ⟨-, hcount⟩ := ih
    have hnew : (if x.leaf then [] else [z.nodes.length]).length = [r].countP Record.isInternal := by
      rw [Record.leaf_of_node? hx]
      cases hi : r.isInternal <;> simp [hi]
    rw [hq', hs', List.countP_append, List.length_append, List.length_append, hnew]
    cases hs : z.side with
    | left =>
      simp [hs, hq] at hcount ⊢
      omega
    | right =>
      simp [hs, hq] at hcount ⊢
      omega

/-- Q is empty exactly when no child position is open. -/
theorem Attached.queue_eq_nil_iff {rs : List Record} {z : Rebuild} (h : Attached rs z) : z.queue = [] ↔ ¬LeavesOpen rs := by
  obtain ⟨hright, hcount⟩ := h.count_open
  rw [leavesOpen_iff]
  refine ⟨fun hq => ?_, fun hopen => List.eq_nil_of_length_eq_zero ?_⟩
  · have hside : z.side ≠ .right := fun hs => hright hs hq
    simp only [hq, List.length_nil, hside, if_false] at hcount
    omega
  · split at hcount <;> omega

theorem Attached.queue_ne_nil {rs : List Record} {z : Rebuild} (h : Attached rs z) (ho : LeavesOpen rs) : z.queue ≠ [] :=
  fun hq => h.queue_eq_nil_iff.mp hq ho

theorem Attached.rebuild_open {rs : List Record} {z : Rebuild} (h : Attached rs z) (ho : LeavesOpen rs) :
    rebuild rs = .error .missingChild := by
  simp [h.rebuild_eq, Rebuild.close, h.queue_ne_nil ho]

theorem Attached.rebuild_closed {rs : List Record} {z : Rebuild} (h : Attached rs z) (hc : ¬LeavesOpen rs) :
    rebuild rs = .ok z.nodes := by
  simp [h.rebuild_eq, Rebuild.close, h.queue_eq_nil_iff.mpr hc]

/-- Node records are attached as long as a child position is open for each of them. -/
theorem exists_attached_of_open {rs : List Record} (hne : rs ≠ []) (hs : .sentinel ∉ rs) (hlen : rs.length ≤ 511)
    (hopen : ∀ n, 0 < n → n < rs.length → LeavesOpen (rs.take n)) : ∃ z, Attached rs z := by
  induction rs using List.reverseRecOn with
  | nil => exact absurd rfl hne
  | append_singleton rs r ih =>
    obtain ⟨hsrs, hr⟩ : .sentinel ∉ rs ∧ .sentinel ≠ r := by simpa using hs
    rw [List.length_append, List.length_singleton] at hlen hopen
    by_cases hrs : rs = []
    · subst hrs
      obtain ⟨x, hx⟩ := Option.ne_none_iff_exists'.mp (mt Record.node?_eq_none.mp hr.symm)
      exact ⟨_, .first hx⟩
    · have hpre (n : Nat) (hn : 0 < n) (hlt : n < rs.length) : LeavesOpen (rs.take n) := by
        simpa [List.take_append_of_le_length (Nat.le_of_lt hlt)] using hopen n hn (by omega)
      obtain ⟨z, hz⟩ := ih hrs hsrs (by omega) hpre
      have hlast : LeavesOpen rs := by
        simpa using hopen rs.length (List.length_pos_of_ne_nil hrs) (by omega)
      rcases z.record_cases r with ⟨hq, -⟩ | ⟨-, hnone, -⟩ | ⟨-, -, hfull, -⟩ | ⟨_, _, _, z', -, -, -, hok, -⟩
      · exact absurd hlast (hz.queue_eq_nil_iff.mp hq)
      · exact absurd (Record.node?_eq_none.mp hnone).symm hr
      · rw [hz.length_nodes, Config.nodeCap] at hfull
        omega
      · exact ⟨z', hz.next hok⟩

/-! ### The order of the entries (R106) -/

/-- The child attached to the first empty side comes last. -/
theorem Node.attached_attach_eq {x : Node} {side : Side} {i : NodeIx} (hl : x.leaf = false) (hs : x.child side = Config.null)
    (hright : side = .left → x.right = Config.null) (hi : i ≠ Config.null) :
    (x.attach side i).attached = x.attached ++ [i] := by
  cases side with
  | left =>
    have hleft : x.left = Config.null := hs
    simp [Node.attached, Node.links, Node.attach, hl, hleft, hright rfl, hi]
  | right =>
    have hs : x.right = Config.null := hs
    by_cases hx : x.left = Config.null <;> simp [Node.attached, Node.links, Node.attach, hl, hs, hi, hx]

/-- Where no entry after p has a child, the new child is the last of all. -/
theorem flatMap_attachNew {l : List Node} {p : Nat} {side : Side} {x y : Node} (hp : l[p]? = some y)
    (hy : (y.attach side (BitVec.ofNat 9 l.length)).attached = y.attached ++ [BitVec.ofNat 9 l.length])
    (hlater : ∀ (n : Nat) (z : Node), p < n → l[n]? = some z → z.attached = []) (hx : x.attached = []) :
    (attachNew l p side x).flatMap Node.attached = l.flatMap Node.attached ++ [BitVec.ofNat 9 l.length] := by
  obtain ⟨hpl, hget⟩ := List.getElem?_eq_some_iff.mp hp
  have hsplit : l = l.take p ++ y :: l.drop (p + 1) := by rw [← hget]; simp
  have hafter : (l.drop (p + 1)).flatMap Node.attached = [] := by
    refine List.flatMap_eq_nil_iff.mpr fun z hz => ?_
    obtain ⟨n, hn⟩ := List.mem_iff_getElem?.mp hz
    rw [List.getElem?_drop] at hn
    exact hlater _ z (by omega) hn
  have hall : l.flatMap Node.attached = (l.take p).flatMap Node.attached ++ y.attached := by
    conv_lhs => rw [hsplit]
    simp [hafter]
  simp [attachNew, List.modify_eq_take_cons_drop hpl, hget, hx, hafter, hy, hall]

/-- The entries attached so far are numbered in the order in which their parents name them, and Q rises with nothing
attached past its front. -/
structure LevelNumbered (z : Rebuild) : Prop where
  order : (0#9 :: z.nodes.flatMap Node.attached).map BitVec.toNat = List.range z.nodes.length
  rising : z.queue.Pairwise (· < ·)
  later : ∀ p ∈ z.queue.head?, ∀ (n : Nat) (x : Node), p < n → z.nodes[n]? = some x → x.attached = []

theorem LevelNumbered.first {r : Record} {x : Node} (hx : r.node? = some x) : LevelNumbered (Rebuild.first x) where
  order := by simp [Rebuild.first, Node.attached_eq_nil (Record.node?_fresh hx).2]
  rising := by rw [Rebuild.first]; split <;> simp
  later p _ n y hn hy := by
    obtain ⟨n, rfl⟩ := Nat.exists_eq_add_one_of_ne_zero (Nat.ne_zero_of_lt hn)
    simp [Rebuild.first] at hy

theorem Rebuilding.lt_length {z : Rebuild} (h : Rebuilding z) {n : Nat} (hn : n ∈ z.queue) : n < z.nodes.length := by
  obtain ⟨x, hx, -⟩ := h.inside n hn
  exact (List.getElem?_eq_some_iff.mp hx).1

/-- The front of Q takes the new child as its last. -/
theorem Rebuilding.attach_front {z : Rebuild} (h : Rebuilding z) (hlt : z.nodes.length < Config.nodeCap) {p : Nat} {q : List Nat}
    (hq : z.queue = p :: q) : ∃ y, z.nodes[p]? = some y ∧
      (y.attach z.side (BitVec.ofNat 9 z.nodes.length)).attached = y.attached ++ [BitVec.ofNat 9 z.nodes.length] := by
  obtain ⟨y, hp, hy⟩ := h.inside p (by simp [hq])
  have hnull (side : Side) (hside : p ∈ z.waiting side) : y.child side = Config.null := (h.vacant side p y hp hy).mpr hside
  have hfront : p ∈ z.waiting z.side := by cases hs : z.side <;> simp [Rebuild.waiting, hs, hq]
  have hright : p ∈ z.waiting .right := by simp [Rebuild.waiting, hq]
  exact ⟨y, hp, Node.attached_attach_eq hy (hnull _ hfront) (fun _ => hnull _ hright) (newIndex_ne_null hlt)⟩

theorem LevelNumbered.record {z z' : Rebuild} {r : Record} (h : LevelNumbered z) (hz : Rebuilding z) (hr : z.record r = .ok z') :
    LevelNumbered z' := by
  obtain ⟨p, q, x, hq, hx, hcap, hn', hq', -⟩ := Rebuild.record_ok hr
  have hfresh := (Record.node?_fresh hx).2
  have hlt : z.nodes.length < Config.nodeCap := Nat.lt_of_le_of_ne hz.bound hcap
  obtain ⟨y, hp, hattach⟩ := hz.attach_front hlt hq
  have hold (n : Nat) (hn : n ∈ if z.side = .left then p :: q else q) : n ∈ z.queue := by
    rw [hq]
    split at hn
    · exact hn
    · exact List.mem_cons_of_mem p hn
  have hnew (n : Nat) (hn : n ∈ if x.leaf then [] else [z.nodes.length]) : n = z.nodes.length := by
    split at hn
    · cases hn
    · exact List.mem_singleton.mp hn
  have hlater := h.later p (by simp [hq])
  obtain ⟨hpq, hrising⟩ := List.pairwise_cons.mp (hq ▸ h.rising)
  refine ⟨?_, ?_, ?_⟩
  · rw [hn', flatMap_attachNew hp hattach hlater (Node.attached_eq_nil hfresh), length_attachNew, List.range_succ,
      ← h.order]
    simp [toNat_newIndex hlt]
  · rw [hq']
    refine List.pairwise_append.mpr ⟨?_, by split <;> simp, fun n hn m hm => ?_⟩
    · split
      exacts [hq ▸ h.rising, hrising]
    · rw [hnew m hm]
      exact hz.lt_length (hold n hn)
  · intro p' hp' n w hn hw
    have hle : p ≤ p' := by
      have hmem := List.mem_of_mem_head? hp'
      rw [hq', List.mem_append] at hmem
      rcases hmem with hmem | hmem
      · rcases List.mem_cons.mp (hq ▸ hold p' hmem) with rfl | hmem
        · exact Nat.le_refl _
        · exact Nat.le_of_lt (hpq p' hmem)
      · rw [hnew p' hmem]
        exact Nat.le_of_lt (hz.lt_length (by simp [hq]))
    rcases attachNew_lookup (hn' ▸ hw) with ⟨-, -, hw⟩ | ⟨rfl, -, -⟩ | ⟨-, rfl⟩
    · exact hlater n w (by omega) hw
    · omega
    · exact Node.attached_eq_nil hfresh

theorem Attached.levelNumbered {rs : List Record} {z : Rebuild} (h : Attached rs z) : LevelNumbered z := by
  induction h with
  | first hx => exact .first hx
  | next h hr ih => exact ih.record h.rebuilding hr

/-- With no side left open the children attached are all the children named. -/
theorem Rebuilding.attached_eq_links {z : Rebuild} (h : Rebuilding z) (hq : z.queue = []) :
    z.nodes.flatMap Node.attached = z.nodes.flatMap Node.links := by
  refine List.flatMap_congr fun x hx => Node.attached_eq_links fun hl side hnull => ?_
  obtain ⟨n, hn⟩ := List.mem_iff_getElem?.mp hx
  have hwait := (h.vacant side n x hn hl).mp hnull
  cases side <;> simp [Rebuild.waiting, hq] at hwait

/-! ### The serializer's walk (R101) -/

theorem breadthFirst_nil (nodes : List (Nat × Node)) (n : Nat) : breadthFirst nodes n [] = .ok [] := by
  cases n <;> rfl

/-- One turn of the serializer: the front's record, and its children to the back of Q. -/
theorem breadthFirst_cons {nodes : List (Nat × Node)} {i : NodeIx} {x : Node} (h : nodeAt? nodes i = some x) (n : Nat)
    (q : List NodeIx) : breadthFirst nodes (n + 1) (i :: q) = (breadthFirst nodes n (q ++ x.links)).map (x.record :: ·) := by
  rw [breadthFirst, h]
  cases hl : x.leaf with
  | true =>
    simp only [hl, if_true, Node.links_of_leaf hl, List.append_nil, Node.record]
    cases breadthFirst nodes n q <;> rfl
  | false =>
    simp only [hl, Bool.false_eq_true, if_false, Node.links_of_internal hl, Node.record]
    cases breadthFirst nodes n (q ++ [x.left, x.right]) <;> rfl

section
variable {l : List Node} (hbound : l.length ≤ Config.nodeCap)
  (horder : (0#9 :: l.flatMap Node.links).map BitVec.toNat = List.range l.length) (habove : ChildrenAbove l)

/-- Q when the serializer has popped the first j entries of a list numbered in level order. -/
def levelQueue (l : List Node) (j : Nat) : List NodeIx := (0#9 :: (l.take j).flatMap Node.links).drop j

include horder

theorem levelQueue_length : levelQueue l l.length = [] := by
  have hlen := congrArg List.length horder
  simp only [List.length_map, List.length_range] at hlen
  rw [levelQueue, List.take_length, List.drop_eq_nil_iff, hlen]

include habove

/-- Entry j is then at the front: no entry from j on names it. -/
theorem levelQueue_of_lt {j : Nat} {x : Node} (hj : l[j]? = some x) :
    ∃ i q, levelQueue l j = i :: q ∧ i.toNat = j ∧ levelQueue l (j + 1) = q ++ x.links := by
  obtain ⟨hlt, hget⟩ := List.getElem?_eq_some_iff.mp hj
  have hsplit : 0#9 :: l.flatMap Node.links =
      (0#9 :: (l.take j).flatMap Node.links) ++ (l.drop j).flatMap Node.links := by
    rw [List.cons_append, ← List.flatMap_append, List.take_append_drop]
  rw [hsplit] at horder
  have hpre : j < (0#9 :: (l.take j).flatMap Node.links).length := by
    by_contra hle
    obtain ⟨i, hi, rfl⟩ : ∃ i ∈ (l.drop j).flatMap Node.links, i.toNat = j := by
      have hat := congrArg (·[j]?) horder
      simp only [List.map_append, List.getElem?_range hlt] at hat
      rw [List.getElem?_append_right (by simpa using hle)] at hat
      simpa using List.mem_of_getElem? hat
    obtain ⟨y, hy, hi⟩ := List.mem_flatMap.mp hi
    obtain ⟨n, hn⟩ := List.mem_iff_getElem?.mp hy
    have := habove _ y (by rwa [List.getElem?_drop] at hn) i hi
    omega
  have hij : ((0#9 :: (l.take j).flatMap Node.links)[j]).toNat = j := by
    have hat := congrArg (·[j]?) horder
    simp only [List.map_append, List.getElem?_range hlt] at hat
    rw [List.getElem?_append_left (by simpa using hpre), List.getElem?_map, List.getElem?_eq_getElem hpre] at hat
    exact Option.some.inj hat
  have hnext : 0#9 :: (l.take (j + 1)).flatMap Node.links = (0#9 :: (l.take j).flatMap Node.links) ++ x.links := by
    rw [List.take_succ_eq_append_getElem hlt, hget]
    simp
  refine ⟨_, _, List.drop_eq_getElem_cons hpre, hij, ?_⟩
  rw [levelQueue, hnext, List.drop_append_of_le_length hpre]

include hbound

/-- From there the serializer writes the records of the entries from j on. -/
theorem breadthFirst_levelQueue {n j : Nat} (hn : l.length ≤ j + n) (hj : j ≤ l.length) :
    breadthFirst (tableOfList l) n (levelQueue l j) = .ok ((l.drop j).map Node.record) := by
  induction n generalizing j with
  | zero =>
    obtain rfl : j = l.length := Nat.le_antisymm hj hn
    simp [levelQueue_length horder, breadthFirst_nil]
  | succ n ih =>
    rcases Nat.eq_or_lt_of_le hj with rfl | hlt
    · simp [levelQueue_length horder, breadthFirst_nil]
    · obtain ⟨i, q, hq, hi, hnext⟩ := levelQueue_of_lt horder habove (List.getElem?_eq_getElem hlt)
      have hnull : i ≠ Config.null := by
        rintro rfl
        exact absurd (hi ▸ hlt.trans_le hbound) (by decide)
      have hnode : nodeAt? (tableOfList l) i = some l[j] := by
        rw [nodeAt?_eq_some hnull, nodeIn_eq, hi, tableGet_ofList]
        simp [hlt]
      rw [hq, breadthFirst_cons hnode, ← hnext, ih (by omega) hlt, List.drop_eq_getElem_cons hlt]
      rfl

/-- The serializer visits the entries of such a list in their order. -/
theorem breadthFirst_ofList : breadthFirst (tableOfList l) Config.nodeCap [0#9] = .ok (l.map Node.record) :=
  breadthFirst_levelQueue hbound horder habove (by simpa using hbound) (Nat.zero_le _)

end

/-- What the reconstruction accepts as a tree with a node, the serializer writes back record for record (R111). -/
theorem breadthFirst_of_rebuild {R : List Record} {nodes : List Node} (h : rebuild R = .ok nodes) (hne : nodes ≠ []) :
    breadthFirst (tableOfList nodes) Config.nodeCap [0#9] = .ok R := by
  obtain ⟨z, hz, hq, rfl⟩ := exists_attached h hne
  have hb := hz.rebuilding
  have horder := hz.levelNumbered.order
  rw [hb.attached_eq_links hq] at horder
  rw [breadthFirst_ofList hb.bound horder hb.above, hz.map_record]

theorem serialize_of_breadthFirst {nodes : List (Nat × Node)} {root : NodeIx} {rs : List Record} (hroot : root ≠ Config.null)
    (h : breadthFirst nodes Config.nodeCap [root] = .ok rs) : serialize nodes root = .ok (joinRecords rs) := by
  simp [serialize, hroot, h]

end Sys2Proof.Machine
end

section
/-!
PROOFS, 43_tree_codec.md section 6. Trees as values: every held tree has a shape, with as many nodes as entries (10_state.md R38);
the serializer writes the shape's records in level order (R101), and no other shape has them (R111).
-/

namespace Sys2Proof.Machine

/-! ### The shape at a node -/

/-- The tree at node i is `t`. -/
inductive HasShape (nodes : List (Nat × Node)) : NodeIx → Shape → Prop where
  | leaf {i : NodeIx} {x : Node} : nodeAt? nodes i = some x → x.leaf = true → HasShape nodes i (.leaf x.freq x.sym)
  | node {i : NodeIx} {x : Node} {l r : Shape} : nodeAt? nodes i = some x → x.leaf = false → HasShape nodes x.left l →
      HasShape nodes x.right r → HasShape nodes i (.node x.freq l r)

/-- How many nodes a tree has. -/
def Shape.size : Shape → Nat
  | .leaf _ _ => 1
  | .node _ l r => 1 + (l.size + r.size)

section
variable {nodes : List (Nat × Node)}

theorem shapeAt_leaf {i : NodeIx} {x : Node} (h : nodeAt? nodes i = some x) (hl : x.leaf = true) (n : Nat) :
    shapeAt nodes (n + 1) i = some (.leaf x.freq x.sym) := by simp [shapeAt, h, hl]

theorem shapeAt_node {i : NodeIx} {x : Node} {n : Nat} {l r : Shape} (h : nodeAt? nodes i = some x) (hl : x.leaf = false)
    (hleft : shapeAt nodes n x.left = some l) (hright : shapeAt nodes n x.right = some r) :
    shapeAt nodes (n + 1) i = some (.node x.freq l r) := by simp [shapeAt, h, hl, hleft, hright]

/-- What a node that has a shape is: the root of it, whose children have the shape's branches. -/
theorem HasShape.cases {i : NodeIx} {t : Shape} (h : HasShape nodes i t) : ∃ x ts, nodeAt? nodes i = some x ∧
    List.Forall₂ (HasShape nodes) x.links ts ∧ t.size = 1 + (ts.map Shape.size).sum := by
  cases h with
  | @leaf _ x hx hl => exact ⟨x, [], hx, by rw [Node.links_of_leaf hl]; exact .nil, rfl⟩
  | @node _ x l r hx hl hleft hright =>
    exact ⟨x, [l, r], hx, by rw [Node.links_of_internal hl]; exact .cons hleft (.cons hright .nil), by simp [Shape.size]⟩

theorem HasShape.unique {i : NodeIx} {t t' : Shape} (h : HasShape nodes i t) (h' : HasShape nodes i t') : t = t' := by
  induction h generalizing t' with
  | leaf hx hl =>
    cases h' with
    | leaf hx' _ =>
      cases hx.symm.trans hx'
      rfl
    | node hx' hl' _ _ =>
      cases hx.symm.trans hx'
      simp [hl] at hl'
  | node hx hl _ _ ihleft ihright =>
    cases h' with
    | leaf hx' hl' =>
      cases hx.symm.trans hx'
      simp [hl] at hl'
    | node hx' _ hleft hright =>
      cases hx.symm.trans hx'
      rw [ihleft hleft, ihright hright]

end

section
variable {nodes : List (Nat × Node)} {root : NodeIx} {k : Nat} (ht : TreeOk nodes root k) (hk : k ≠ 0)
include ht hk

/-- A node of a held tree has a shape, which `shapeAt` finds when its bound exceeds every path on (R94). -/
theorem PathTo.exists_shape {n : Nat} {i : NodeIx} {p : Bits} (hp : PathTo nodes root i p) (hn : 256 ≤ p.length + n) :
    ∃ t, shapeAt nodes n i = some t ∧ HasShape nodes i t := by
  induction n generalizing i p with
  | zero =>
    have := hp.length_le ht hk
    omega
  | succ n ih =>
    have hx := nodeAt?_eq_some (nodes := nodes) (hp.ne_null ht hk)
    cases hl : (nodeIn nodes i).leaf with
    | true => exact ⟨_, shapeAt_leaf hx hl n, .leaf hx hl⟩
    | false =>
      obtain ⟨l, hleft, hl'⟩ := ih (hp.left hl) (by simp; omega)
      obtain ⟨r, hright, hr'⟩ := ih (hp.right hl) (by simp; omega)
      exact ⟨_, shapeAt_node hx hl hleft hright, .node hx hl hl' hr'⟩

/-- The root and the children named are the indices of the tree, each once (R38). -/
theorem TreeOk.links_perm : (root :: childLinks nodes k).Perm ((List.range k).map (BitVec.ofNat 9)) := by
  have hix {n : Nat} (hn : n < k) : (BitVec.ofNat 9 n).toNat = n := toNat_newIndex (hn.trans_le ht.bound)
  have hrange : ((List.range k).map (BitVec.ofNat 9)).Nodup :=
    List.nodup_range.map_on fun a ha b hb h => by
      rw [← hix (List.mem_range.mp ha), h, hix (List.mem_range.mp hb)]
  refine (List.perm_ext_iff_of_nodup ht.oneParent hrange).mpr fun i => ?_
  have hmem : i ∈ (List.range k).map (BitVec.ofNat 9) ↔ i.toNat < k := by
    simp only [List.mem_map, List.mem_range]
    exact ⟨fun ⟨n, hn, h⟩ => h ▸ (hix hn).symm ▸ hn, fun h => ⟨i.toNat, h, by simp⟩⟩
  rw [hmem]
  refine ⟨fun hi => ?_, fun hi => ?_⟩
  · rcases List.mem_cons.mp hi with rfl | hi
    · exact ht.rootIn hk
    · obtain ⟨n, hn, hi⟩ := List.mem_flatMap.mp (childLinks_eq nodes k ▸ hi)
      obtain ⟨hl, bit, rfl⟩ := Node.mem_links.mp hi
      have hchild := ht.internal n (List.mem_range.mp hn) hl
      cases bit with
      | false => exact hchild.1
      | true => exact hchild.2
  · by_cases hroot : i = root
    · simp [hroot]
    · obtain ⟨j, bit, hj, hl, rfl⟩ := ht.exists_parent hi hroot
      exact List.mem_cons_of_mem _ (step_mem_childLinks hj hl bit)

/-- A weight of nodes that counts one more than the children's is at the root the number of entries. -/
theorem TreeOk.weight_root (w : NodeIx → Nat)
    (hw : ∀ i : NodeIx, i.toNat < k → w i = 1 + ((nodeIn nodes i).links.map w).sum) : w root = k := by
  have hall := ((ht.links_perm hk).map w).sum_eq
  have hsum : (((List.range k).map (BitVec.ofNat 9)).map w).sum = k + ((childLinks nodes k).map w).sum := by
    have heach : ∀ n ∈ List.range k, (w ∘ BitVec.ofNat 9) n = 1 + ((tableGet Node.cleared nodes n).links.map w).sum := by
      intro n hn
      have hn := List.mem_range.mp hn
      have hix : (BitVec.ofNat 9 n).toNat = n := toNat_newIndex (hn.trans_le ht.bound)
      rw [Function.comp_apply, hw _ (by rwa [hix]), nodeIn_eq, hix]
    rw [List.map_map, List.map_congr_left heach, List.sum_map_add, childLinks_eq, List.map_flatMap, List.flatMap,
      List.sum_flatten, List.map_map]
    simp
    rfl
  simp only [List.map_cons, List.sum_cons, hsum] at hall
  omega

/-- A held tree has a shape, with as many nodes as entries. -/
theorem TreeOk.exists_shape :
    ∃ t, shapeAt nodes 512 root = some t ∧ HasShape nodes root t ∧ t.size = k := by
  have hshape (i : NodeIx) : ∃ t, ∀ t', HasShape nodes i t' → t' = t := by
    by_cases h : ∃ t, HasShape nodes i t
    · obtain ⟨t, h⟩ := h
      exact ⟨t, fun _ h' => h'.unique h⟩
    · exact ⟨.leaf 0#32 0#8, fun t' h' => absurd ⟨t', h'⟩ h⟩
  choose shape hshape using hshape
  obtain ⟨t, hat, hroot⟩ := PathTo.root.exists_shape ht hk (n := 512) (by simp)
  refine ⟨t, hat, hroot, hshape root t hroot ▸ ht.weight_root hk (fun i => (shape i).size) fun i hi => ?_⟩
  obtain ⟨p, hp⟩ := ht.exists_path hi
  obtain ⟨t, -, h⟩ := hp.exists_shape ht hk (n := 256) (by omega)
  obtain ⟨x, ts, hx, hts, hsize⟩ := h.cases
  obtain ⟨-, rfl⟩ := nodeAt?_cases hx
  have hlinks : (nodeIn nodes i).links.map shape = ts := by
    rw [← List.forall₂_eq_eq_eq, List.forall₂_map_left_iff]
    exact hts.imp fun j t h => (hshape j t h).symm
  rw [← hshape i t h, hsize, ← hlinks, List.map_map]
  rfl

end

/-! ### Level order (R101) -/

/-- The trees of Q write the records `rs`, level by level. -/
inductive LevelOrder : List Shape → List Record → Prop where
  | nil : LevelOrder [] []
  | leaf {f : Word} {s : Byte} {q : List Shape} {rs : List Record} : LevelOrder q rs →
      LevelOrder (.leaf f s :: q) (.leaf f s :: rs)
  | node {f : Word} {l r : Shape} {q : List Shape} {rs : List Record} : LevelOrder (q ++ [l, r]) rs →
      LevelOrder (.node f l r :: q) (.internal f :: rs)

/-- The records of as many trees determine them. -/
theorem LevelOrder.unique {q q' : List Shape} {rs : List Record} (h : LevelOrder q rs) (h' : LevelOrder q' rs)
    (hlen : q.length = q'.length) : q = q' := by
  induction h generalizing q' with
  | nil => exact (List.eq_nil_of_length_eq_zero hlen.symm).symm
  | leaf _ ih =>
    cases h' with
    | leaf h' => rw [ih h' (by simpa using hlen)]
  | node _ ih =>
    cases h' with
    | node h' =>
      obtain ⟨rfl, hlr⟩ := List.append_inj (ih h' (by simpa using hlen)) (by simpa using hlen)
      simpa using hlr

/-- A record for each node. -/
theorem LevelOrder.length_eq {q : List Shape} {rs : List Record} (h : LevelOrder q rs) :
    rs.length = (q.map Shape.size).sum := by
  induction h with
  | nil => rfl
  | leaf _ ih => simp [Shape.size, ih]; omega
  | node _ ih => simp [Shape.size, ih]; omega

theorem LevelOrder.sentinel_not_mem {q : List Shape} {rs : List Record} (h : LevelOrder q rs) : .sentinel ∉ rs := by
  induction h with
  | nil => simp
  | leaf _ ih | node _ ih => simpa using ih

/-- Before the last record a child position is open, and after it none (R106). -/
theorem LevelOrder.count_open {q : List Shape} {rs : List Record} (h : LevelOrder q rs) :
    rs.length = 2 * rs.countP Record.isInternal + q.length ∧
    ∀ n < rs.length, n < 2 * (rs.take n).countP Record.isInternal + q.length := by
  induction h with
  | nil => simp
  | leaf _ ih =>
    obtain ⟨hall, hpre⟩ := ih
    refine ⟨by simp [Record.isInternal]; omega, fun n hn => ?_⟩
    cases n with
    | zero => simp
    | succ n =>
      have := hpre n (by simpa using hn)
      simp [Record.isInternal]
      omega
  | node _ ih =>
    obtain ⟨hall, hpre⟩ := ih
    simp only [List.length_append, List.length_cons, List.length_nil] at hall hpre
    refine ⟨by simp [List.countP_cons, Record.isInternal]; omega, fun n hn => ?_⟩
    cases n with
    | zero => simp
    | succ n =>
      have := hpre n (by simpa using hn)
      simp [List.countP_cons, Record.isInternal]
      omega

/-- The serializer writes the trees of Q in level order, when its bound is at least the number of their nodes. -/
theorem exists_breadthFirst {nodes : List (Nat × Node)} {q : List NodeIx} {ts : List Shape}
    (h : List.Forall₂ (HasShape nodes) q ts) {n : Nat} (hn : (ts.map Shape.size).sum ≤ n) :
    ∃ rs, breadthFirst nodes n q = .ok rs ∧ LevelOrder ts rs := by
  induction n generalizing q ts with
  | zero =>
    cases h with
    | nil => exact ⟨[], rfl, .nil⟩
    | cons hi _ =>
      obtain ⟨_, _, -, -, hsize⟩ := hi.cases
      simp [hsize] at hn
  | succ n ih =>
    cases h with
    | nil => exact ⟨[], rfl, .nil⟩
    | cons hi hq =>
      cases hi with
      | leaf hx hl =>
        obtain ⟨rs, hrs, horder⟩ := ih hq (by simp [Shape.size] at hn; omega)
        refine ⟨_, ?_, .leaf horder⟩
        rw [breadthFirst_cons hx, Node.links_of_leaf hl, List.append_nil, hrs, Node.record, hl]
        rfl
      | node hx hl hleft hright =>
        obtain ⟨rs, hrs, horder⟩ := ih (List.rel_append hq (.cons hleft (.cons hright .nil)))
          (by simp [Shape.size] at hn ⊢; omega)
        refine ⟨_, ?_, .node horder⟩
        rw [breadthFirst_cons hx, Node.links_of_internal hl, hrs, Node.record, hl]
        rfl

/-- The serializer writes a held tree's records in level order, one for each entry. -/
theorem TreeOk.exists_records {nodes : List (Nat × Node)} {root : NodeIx} {k : Nat} (ht : TreeOk nodes root k) (hk : k ≠ 0) :
    ∃ t rs, shapeAt nodes 512 root = some t ∧ serialize nodes root = .ok (joinRecords rs) ∧
      breadthFirst nodes Config.nodeCap [root] = .ok rs ∧ LevelOrder [t] rs ∧ rs.length = k := by
  obtain ⟨t, hat, hshape, hsize⟩ := ht.exists_shape hk
  obtain ⟨rs, hrs, horder⟩ := exists_breadthFirst (.cons hshape .nil) (n := Config.nodeCap) (by simpa [hsize] using ht.bound)
  exact ⟨t, rs, hat, serialize_of_breadthFirst (mt ht.empty.mp hk) hrs, hrs, horder, by simp [horder.length_eq, hsize]⟩

/-- The reconstruction accepts the records of a tree of at most 511 nodes (R106). -/
theorem LevelOrder.exists_rebuild {t : Shape} {rs : List Record} (h : LevelOrder [t] rs) (hlen : rs.length ≤ 511) :
    ∃ nodes, rebuild rs = .ok nodes ∧ nodes.length = rs.length := by
  obtain ⟨hall, hpre⟩ := h.count_open
  simp only [List.length_singleton] at hall hpre
  have hne : rs ≠ [] := by
    rintro rfl
    simp at hall
  obtain ⟨z, hz⟩ := exists_attached_of_open hne h.sentinel_not_mem hlen fun n _ hn => by
    rw [leavesOpen_iff, List.length_take_of_le (Nat.le_of_lt hn)]
    exact hpre n hn
  have hclosed : ¬LeavesOpen rs := by
    rw [leavesOpen_iff]
    omega
  exact ⟨z.nodes, hz.rebuild_closed hclosed, hz.length_nodes⟩

end Sys2Proof.Machine
end

section
/-!
PROOFS, 43_tree_codec.md. The commands of the tree codec (R102, R108 to R110), and the obligations.
-/

namespace Sys2Proof.Machine

/-! ### The commands (R102, R108 to R110) -/

/-- The state with no tree and no codes and an open deserialization session (R108). -/
def State.openDes (s : State) : State := { s.clearTree.clearCodes with desBuf := [], mode := .des }

theorem exec_desBegin {s : State} (hm : s.mode = .idle) :
    exec .desBegin s = .next { s.openDes with last := okResult 0x31#8 } := by
  have ha : admitted .desBegin s.mode = true := beq_iff_eq.mpr hm
  rw [exec, execDesBegin, command_ok (u := s.openDes) ha rfl, State.record_okResult]
  rfl

theorem exec_desByte {s : State} (hm : s.mode = .des) (b : Byte) :
    exec (.desByte b) s = .next { s with desBuf := s.desBuf ++ [b], last := okResult 0x32#8 } := by
  have ha : admitted .desByte s.mode = true := beq_iff_eq.mpr hm
  rw [exec, execDesByte, command_ok (u := { s with desBuf := s.desBuf ++ [b] }) ha rfl, State.record_okResult]
  rfl

/-- The state with the session closed (R110). -/
def State.closeDes (s : State) : State := { s with desBuf := [], mode := .idle }

section
variable {s : State} (hm : s.mode = .des)
include hm

theorem exec_desEnd_ok {nodes : List Node} (h : deserialize s.desBuf = .ok nodes) :
    exec .desEnd s = .next
      { s.closeDes.setTree (tableOfList nodes) (if nodes.isEmpty then Config.null else 0#9) (BitVec.ofNat 10 nodes.length) with
        last := okResult 0x33#8 } := by
  have ha : admitted .desEnd s.mode = true := beq_iff_eq.mpr hm
  rw [exec, execDesEnd, command_ok ha (by rw [h]), State.record_okResult]
  rfl

theorem exec_desEnd_malformed {d : TreeDefect} (h : deserialize s.desBuf = .error d) :
    exec .desEnd s = .next (s.closeDes.record (errResult 0x33#8 (.malformedTree d))) := by
  have ha : admitted .desEnd s.mode = true := beq_iff_eq.mpr hm
  rw [exec, execDesEnd, command_raised ha (by rw [h])]
  rfl

end

theorem exec_ser_ok {s : State} {bytes : List Byte} (hm : s.mode = .idle) (hv : s.treeValid = true)
    (h : serialize s.nodes s.root = .ok bytes) :
    exec .ser s = .next { s.emitBytes .tree bytes with last := okResult 0x30#8 } := by
  have ha : admitted .ser s.mode = true := beq_iff_eq.mpr hm
  rw [exec, execSer, command_ok (u := s.emitBytes .tree bytes) ha (by simp [hv, h]), State.record_okResult]
  rfl

/-! ### The bytes of a serialized tree (R101) -/

/-- With its SP a leaf's record has at most 20 bytes, and an internal node's 9 fewer. -/
theorem Record.length_bytes_le (r : Record) : r.bytes.length + 1 + (if r.isInternal then 9 else 0) ≤ 20 := by
  cases r with
  | sentinel => decide
  | internal f =>
    have := length_decimal_le f
    simp [Record.bytes, Record.isInternal]
    omega
  | leaf f s =>
    have := length_decimal_le f
    have hs : (symbolToken s).length ≤ 2 := by
      unfold symbolToken
      split <;> simp
    simp [Record.bytes, Record.isInternal, Machine.sentinel]
    omega

theorem length_spacedRecords_le (rs : List Record) :
    (spacedRecords rs).length + 9 * rs.countP Record.isInternal ≤ 20 * rs.length := by
  induction rs with
  | nil => simp [spacedRecords]
  | cons r rs ih =>
    have hr := r.length_bytes_le
    have hcons : spacedRecords (r :: rs) = r.bytes ++ [chSP] ++ spacedRecords rs := by simp [spacedRecords]
    simp only [hcons, List.countP_cons, List.length_append, List.length_cons, List.length_nil]
    cases hi : r.isInternal <;> simp [hi] at hr ⊢ <;> omega

theorem lf_not_mem_bytes (r : Record) : chLF ∉ r.bytes := by
  have hdec := not_mem_decimal (b := chLF) (by decide)
  cases r with
  | sentinel => decide
  | internal f => exact hdec f
  | leaf f s =>
    have hsym : chLF ∉ symbolToken s := by
      by_cases hs : s = chLF
      · subst hs
        decide
      · simpa [symbolToken_raw hs] using Ne.symm hs
    have hsp : chLF ≠ chSP := by decide
    have hsent : chLF ∉ Machine.sentinel := by decide
    simp [Record.bytes, hdec f, hsym, hsp, hsent]

theorem lf_not_mem_joinRecords (rs : List Record) : chLF ∉ joinRecords rs := by
  by_cases hne : rs = []
  · subst hne
    exact nofun
  · intro h
    have hmem : chLF ∈ spacedRecords rs := joinRecords_append_sp hne ▸ List.mem_append_left _ h
    obtain ⟨r, -, hr⟩ := List.mem_flatMap.mp hmem
    rcases List.mem_append.mp hr with hr | hr
    · exact lf_not_mem_bytes r hr
    · exact absurd (List.mem_singleton.mp hr) (by decide)

/-- The records of a tree of at most 511 nodes have at most 7924 bytes. -/
theorem LevelOrder.length_joinRecords_le {t : Shape} {rs : List Record} (h : LevelOrder [t] rs) (hlen : rs.length ≤ 511) :
    (joinRecords rs).length ≤ 7924 := by
  have hall := h.count_open.1
  have hne : rs ≠ [] := by
    rintro rfl
    simp at hall
  have hbytes := congrArg List.length (joinRecords_append_sp hne)
  have := length_spacedRecords_le rs
  simp only [List.length_append, List.length_singleton] at hbytes hall
  omega

/-! ### The obligations -/

/-- Settles O45: DES_BEGIN clears both tables, and DES_BYTE writes the buffer alone. -/
theorem deserializationSessionCollectsBytes : Obligations.DeserializationSessionCollectsBytes :=
  ⟨fun _ hm => ⟨_, exec_desBegin hm, ⟨rfl, rfl⟩, rfl, rfl, rfl, rfl, rfl, rfl, fun _ => rfl, fun _ => rfl, rfl⟩,
    fun _ b hm => exec_desByte hm b⟩

/-- Settles O44: the reconstruction numbers the entries in level order, which is the serializer's; and the scanner's records so
far are at every point what has been read, but for leading zeros. -/
theorem serializeOfDeserialize : Obligations.SerializeOfDeserialize := fun _ _ _ hscan hR hne =>
  ⟨serialize_of_breadthFirst (by decide) (breadthFirst_of_rebuild hR hne), joinRecords_of_scan hscan⟩

/-- Settles O42: at the start of a record the scanner has nothing pending, or a number that the next record's numeral ends. -/
theorem scanOfJoinedRecords : Obligations.ScanOfJoinedRecords := by
  intro rs hs
  by_cases hne : rs = []
  · subst hne
    rfl
  · rw [scan_eq_scanLoop (joinRecords_ne_nil hne), scanLoop_joinRecords hne hs]
    rfl

/-- Settles O43: the reconstruction accepts the records of any tree, and the serializer writes them back; and only one shape has
them. -/
theorem deserializeOfSerialize : Obligations.DeserializeOfSerialize := by
  intro nodes root k ht hk
  obtain ⟨t, rs, hat, hser, -, horder, hlen⟩ := ht.exists_records hk
  obtain ⟨nodes', hnodes, hlen'⟩ := horder.exists_rebuild (hlen.trans_le ht.bound)
  have hne : nodes' ≠ [] := fun h => hk (by simpa [h, hlen] using hlen'.symm)
  have hdes : deserialize (joinRecords rs) = .ok nodes' := by
    rw [deserialize, scanOfJoinedRecords rs horder.sentinel_not_mem]
    exact hnodes
  have ht' : TreeOk (tableOfList nodes') 0#9 nodes'.length := by simpa [hne] using (deserialize_tree hdes).2
  obtain ⟨t', rs', hat', -, hbf, horder', -⟩ := ht'.exists_records (by simpa using hne)
  obtain rfl : rs = rs' := Except.ok.inj ((breadthFirst_of_rebuild hnodes hne).symm.trans hbf)
  obtain rfl : t = t' := by simpa using horder.unique horder' rfl
  exact ⟨_, nodes', hser, hdes, hlen'.trans hlen, by simp [hat], hat'.trans hat.symm⟩

/-- Settles O41: a held tree has a shape of at most 511 nodes, so the walk ends, and 255 of its records have no symbol. -/
theorem serEmitsTheTree : Obligations.SerEmitsTheTree := by
  intro s hm hv ht
  have ht := invTree_valid hv ht
  obtain ⟨bytes, hser, hlen, hlf, hempty⟩ : ∃ bytes, serialize s.nodes s.root = .ok bytes ∧ bytes.length ≤ 7924 ∧
      chLF ∉ bytes ∧ (s.root = Config.null → bytes = []) := by
    by_cases hroot : s.root = Config.null
    · exact ⟨[], by simp [serialize, hroot], by simp, nofun, fun _ => rfl⟩
    · obtain ⟨t, rs, -, hser, -, horder, hk⟩ := ht.exists_records (mt ht.empty.mpr hroot)
      exact ⟨_, hser, horder.length_joinRecords_le (hk.trans_le ht.bound), lf_not_mem_joinRecords rs, fun h => absurd h hroot⟩
  have hword (b : Byte) : b.setWidth 32 = 0#24 ++ b := BitVec.setWidth_eq_append (w := 32) (by omega)
  exact ⟨_, bytes, hser, exec_ser_ok hm hv hser, ⟨rfl, rfl⟩, by simp [Emits, hword], hlen, hlf, hempty, rfl⟩

/-- Settles O46: DES_END installs what the reconstruction gives. The scanner's rows are those of a run that is classified at the
SP or at the end of the stream; the reconstruction's, that Q is empty exactly when no child position is open. -/
theorem desEndReconstructs : Obligations.DesEndReconstructs := by
  refine ⟨fun s hm => ⟨fun nodes h => ?_, fun d h => ?_⟩, fun B d h => ?_, fun B R h => ?_, fun run => ?_, rfl,
    fun B => scan_eq_scanLoop,
    fun run rest R f hr => ⟨fun st d hc => scanLoop_error hr st R rest hc, fun hc => ?_, fun v hc => ?_⟩, fun rest R f c => ?_, rfl,
    fun rs => ?_, fun rs hne hs hlen hopen => ?_⟩
  · refine ⟨_, exec_desEnd_ok hm h, ⟨rfl, rfl⟩, rfl, ?_, ?_, fun j => tableGet_ofList _ _ _, rfl, rfl, rfl⟩
    · have hle : nodes.length ≤ 511 := (deserialize_tree h).2.bound
      show (BitVec.ofNat 10 nodes.length).toNat = _
      rw [BitVec.toNat_ofNat]
      omega
    · simp [Config.null]
  · exact ⟨_, exec_desEnd_malformed hm h, raises_record _ _ rfl, rfl⟩
  · rw [deserialize, h]
  · rw [deserialize, h]
  · refine ⟨classify_newline, fun h => h ▸ classify_nil, fun h => h ▸ classify_sentinel, fun hne hd => ?_,
      fun hlf hne hs ⟨b, hb, hd⟩ => ?_⟩
    · exact classify_digits hne fun b hb => isDigit_iff.mpr (hd b hb)
    · exact classify_badToken hlf hne hs ⟨b, hb, Bool.eq_false_iff.mpr fun h => hd (isDigit_iff.mp h)⟩
  · obtain ⟨hready, hready'⟩ := scanLoop_next hr .ready R rest hc rfl
    obtain ⟨hnum, hnum'⟩ := scanLoop_next hr (.afterNum f) R rest hc rfl
    obtain ⟨hnumS, hnumS'⟩ := scanLoop_symbol hr (.afterNumS f) R rest hc rfl
    exact ⟨by simpa [ScanState.atEnd] using hready, hready', by simpa [ScanState.atEnd] using hnum,
      by rwa [List.append_nil] at hnum', hnumS, hnumS'⟩
  · obtain ⟨hready, hready'⟩ := scanLoop_next hr .ready R rest hc rfl
    obtain ⟨hnum, hnum'⟩ := scanLoop_next hr (.afterNum f) R rest hc rfl
    obtain ⟨hnumS, hnumS'⟩ := scanLoop_next hr (.afterNumS f) R rest hc rfl
    exact ⟨by simpa [ScanState.atEnd] using hready, by rwa [List.append_nil] at hready', by simpa [ScanState.atEnd] using hnum,
      hnum', by simpa [ScanState.atEnd] using hnumS, hnumS'⟩
  · exact ⟨scanSymbol_nil f R, scanSymbol_newline f R rest, scanSymbol_escape f R rest, scanSymbol_raw f R rest,
      scanAfterSymbol_nil R, scanAfterSymbol_sp R rest, scanAfterSymbol_bad R rest⟩
  · exact rebuild_sentinel rs
  · obtain ⟨z, hz⟩ := exists_attached_of_open hne hs hlen hopen
    refine ⟨hz.rebuild_open, fun hc => ⟨z.nodes, hz.rebuild_closed hc, hz.length_nodes⟩,
      fun r rest => ⟨fun hc => ?_, fun ho hr => ?_, fun ho hr hfull => ?_⟩⟩
    · exact hz.rebuild_error (Rebuild.record_leftover (hz.queue_eq_nil_iff.mpr hc) r) rest
    · exact hz.rebuild_error (hr ▸ Rebuild.record_sentinel (hz.queue_ne_nil ho)) rest
    · exact hz.rebuild_error (Rebuild.record_full (hz.queue_ne_nil ho) hr (hz.length_nodes.trans hfull)) rest

end Sys2Proof.Machine
end

section
/-!
PROOFS, 44_bitstream.md R113 to R117. The packer: the bytes of a bit string, what packing and flushing leave, its commands, and
the obligations about it.
-/

namespace Sys2Proof.Machine

/-! ### Shared with the unpacker: bytes in words (20_memory.md R53), the end of a command (60_exceptions.md R142) -/

theorem setWidth_eq_zero_append (b : Byte) : b.setWidth 32 = 0#24 ++ b := BitVec.setWidth_eq_append (w := 32) (by omega)

theorem command_ok_next {op : Opcode} {s u : State} {body : State → Ended} (ha : admitted op s.mode = true)
    (hb : body s = .ok u) : command op s body = .next { u with last := okResult op.byte } := by
  rw [command_ok ha hb, State.record_okResult]

/-! ### The bytes of a bit string (R113) -/

theorem packBytes_add (m n : Nat) (b : Bits) : packBytes (m + n) b = packBytes m b ++ packBytes n (b.drop (8 * m)) := by
  induction m generalizing b with
  | zero => simp [packBytes]
  | succ m ih =>
    rw [Nat.succ_add, packBytes, packBytes, ih, List.drop_drop, List.cons_append, Nat.mul_succ, Nat.add_comm 8]

/-- The first n bytes are made of the first 8n bits. -/
theorem packBytes_append {n : Nat} {b : Bits} (h : 8 * n ≤ b.length) (r : Bits) : packBytes n (b ++ r) = packBytes n b := by
  induction n generalizing b with
  | zero => rfl
  | succ n ih =>
    rw [packBytes, packBytes, List.take_append_of_le_length (by omega), List.drop_append_of_le_length (by omega),
      ih (by rw [List.length_drop]; omega)]

theorem packBytes_eq_map_range (k : Nat) (b : Bits) :
    packBytes k b = (List.range k).map fun j => byteOf ((b.drop (8 * j)).take 8) := by
  refine List.ext_getElem (by simp) fun j hj _ => ?_
  rw [packBytes_getElem k b j (by simpa using hj), List.getElem_map, List.getElem_range]

/-- The bytes of a bit string, the last one padded with 0 bits. -/
def paddedBytes (b : Bits) : List Byte := packBytes ((b.length + 7) / 8) (b ++ List.replicate 7 false)

@[simp] theorem paddedBytes_nil : paddedBytes [] = [] := rfl

/-- Fewer than 8 bits, but not none, make one byte (R116). -/
theorem paddedBytes_short {b : Bits} (hne : b ≠ []) (hb : b.length ≤ 7) :
    paddedBytes b = [byteOf (b ++ List.replicate (8 - b.length) false)] := by
  have hpos := List.length_pos_of_ne_nil hne
  rw [paddedBytes, show (b.length + 7) / 8 = 1 by omega, packBytes, packBytes, List.take_append,
    List.take_of_length_le (by omega), List.take_replicate, Nat.min_eq_left (by omega)]

/-- The full bytes come first, then those of the rest. -/
theorem paddedBytes_append {n : Nat} {b : Bits} (h : 8 * n ≤ b.length) (r : Bits) :
    paddedBytes (b ++ r) = packBytes n b ++ paddedBytes (b.drop (8 * n) ++ r) := by
  have hcount : ((b ++ r).length + 7) / 8 = n + ((b.drop (8 * n) ++ r).length + 7) / 8 := by
    simp only [List.length_append, List.length_drop]
    omega
  rw [paddedBytes, hcount, packBytes_add, List.append_assoc, packBytes_append h, List.drop_append_of_le_length h,
    ← List.append_assoc, paddedBytes]

/-! ### Flushing (R116) -/

/-- The PAYLOAD words of packed bytes. -/
def payloadWords (bs : List Byte) : List OutWord := bs.map fun b => ⟨.payload, 0#24 ++ b⟩

theorem State.pack_outq_eq (s : State) (e : CodeEntry) :
    (s.pack e).outq = s.outq ++ payloadWords (packBytes ((s.acc ++ e.code).length / 8) (s.acc ++ e.code)) := by
  simp [payloadWords, setWidth_eq_zero_append]

theorem State.flush_of_empty {s : State} (h : s.acc = []) : s.flush = { s with padding := 0#3 } := by
  simp [State.flush, h]

theorem State.flush_of_nonempty {s : State} (h : s.acc ≠ []) : s.flush =
    { s with
      padding := BitVec.ofNat 3 (8 - s.acc.length)
      outq := s.outq ++ payloadWords [byteOf (s.acc ++ List.replicate (8 - s.acc.length) false)] } := by
  rw [State.flush, if_pos (List.length_pos_of_ne_nil h)]
  simp [State.emitBytes, payloadWords, setWidth_eq_zero_append]

/-- Flushing at most 7 bits emits them as their padded bytes. -/
theorem State.flush_outq {s : State} (h : s.acc.length ≤ 7) : s.flush.outq = s.outq ++ payloadWords (paddedBytes s.acc) := by
  by_cases hne : s.acc = []
  · simp [State.flush_of_empty hne, hne, payloadWords]
  · rw [State.flush_of_nonempty hne, paddedBytes_short hne h]

/-- PADDING after a flush (R117). -/
theorem State.toNat_flush_padding (s : State) : s.flush.padding.toNat = (8 - s.acc.length) % 8 := by
  by_cases hne : s.acc = []
  · simp [State.flush_of_empty hne, hne]
  · simp [State.flush_of_nonempty hne]

/-- Packing codes after the bits in ACC, and flushing, emits the padded bytes of all of them. -/
theorem State.flush_packs {s : State} (h : s.acc.length ≤ 7) (es : List CodeEntry) :
    (es.foldl State.pack s).flush.outq = s.outq ++ payloadWords (paddedBytes (s.acc ++ (es.map CodeEntry.code).flatten)) := by
  induction es generalizing s with
  | nil => simpa using State.flush_outq h
  | cons e es ih =>
    have hacc : (s.pack e).acc.length ≤ 7 := by
      rw [State.length_pack_acc]
      omega
    rw [List.foldl_cons, ih hacc, State.pack_outq_eq, State.pack_acc, List.map_cons, List.flatten_cons,
      ← List.append_assoc s.acc, paddedBytes_append (b := s.acc ++ e.code) (n := (s.acc ++ e.code).length / 8) (by omega)]
    simp [payloadWords]

/-! ### The commands (R114 to R116) -/

theorem exec_encBegin {s : State} (hm : s.mode = .idle) (hv : s.codesValid = true) : exec .encBegin s =
    .next { s with acc := [], encBits := 0#64, padding := 0#3, mode := .enc, last := okResult 0x40#8 } := by
  have ha : admitted .encBegin s.mode = true := beq_iff_eq.mpr hm
  rw [exec, execEncBegin, command_ok_next ha (if_pos hv)]
  rfl

section
variable {s : State} {sym : Byte} (hm : s.mode = .enc)
include hm

theorem exec_encSym_valid (hv : (s.codeAt sym).valid = true) :
    exec (.encSym sym) s = .next { s.pack (s.codeAt sym) with last := okResult 0x41#8 } := by
  have ha : admitted .encSym s.mode = true := beq_iff_eq.mpr hm
  rw [exec, execEncSym, command_ok_next ha (if_pos hv)]
  rfl

theorem exec_encSym_unknown (hv : (s.codeAt sym).valid = false) :
    exec (.encSym sym) s = .next (s.record (errResult 0x41#8 (.unknownSymbol sym))) := by
  have ha : admitted .encSym s.mode = true := beq_iff_eq.mpr hm
  rw [exec, execEncSym, command_raised ha (if_neg (by simp [hv]))]
  rfl

theorem exec_encEnd : exec .encEnd s = .next { s.flush with acc := [], mode := .idle, last := okResult 0x42#8 } := by
  have ha : admitted .encEnd s.mode = true := beq_iff_eq.mpr hm
  rw [exec, execEncEnd, command_ok_next (u := { s.flush with acc := [], mode := .idle }) ha rfl]
  rfl

end

/-! ### The obligations -/

/-- Settles O47: the code table is the only precondition. -/
theorem encBeginOpensTheSession : Obligations.EncBeginOpensTheSession := fun _ => exec_encBegin

/-- Settles O48: the packed bytes are the full bytes of ACC and the code. -/
theorem encSymPacksTheCode : Obligations.EncSymPacksTheCode := by
  intro s sym hm
  refine ⟨fun hv => ?_, fun hv => ⟨_, exec_encSym_unknown hm hv, raises_record _ _ rfl, rfl⟩⟩
  refine ⟨_, _, exec_encSym_valid hm hv, ⟨rfl, rfl⟩, rfl, s.pack_outq_eq _, ?_, ?_, fun j hj => ?_, rfl⟩
  · simp [payloadWords]
  · simp [payloadWords]
  · have hj : j < (s.acc ++ (s.codeAt sym).code).length / 8 := by simpa [payloadWords] using hj
    rw [payloadWords, List.getElem?_map, List.getElem?_eq_getElem (by simpa using hj), packBytes_getElem _ _ _ hj]
    rfl

/-- Settles O49: the session's invariant bounds ACC and ties its length to ENC_BITS. -/
theorem encEndPadsTheLastByte : Obligations.EncEndPadsTheLastByte := by
  intro s hm hs
  obtain ⟨-, -, -, -, -, hle, hmod⟩ := (invSession_enc hm).mp hs
  refine ⟨_, exec_encEnd hm, ⟨rfl, ?_⟩, ?_, hmod ▸ s.toNat_flush_padding, rfl, rfl, ?_⟩
  · show s.flush.err = s.err
    rw [State.flush_frame]
  · refine (State.flush_outq hle).trans ?_
    split
    · next h => simp [h, payloadWords]
    · next h => rw [paddedBytes_short h hle, payloadWords, List.map_singleton]
  · dsimp only
    rw [State.flush_frame]

/-- Settles O50: each packing emits the full bytes and keeps the rest, which begins what is still to be packed. -/
theorem packingLaw : Obligations.PackingLaw := by
  intro s es hacc
  dsimp only
  rw [State.flush_packs (by simp [hacc]), hacc, List.nil_append, paddedBytes, packBytes_eq_map_range, payloadWords, List.map_map]
  rfl

end Sys2Proof.Machine
end

section
/-!
PROOFS, 44_bitstream.md R118 to R120. The bit steps of the unpacker in each kind of tree: the empty tree, the one-leaf tree, and a
tree whose root is an internal node; and the bits of codes.
-/

namespace Sys2Proof.Machine

@[simp] theorem Ended.andThen_ok_right (e : Ended) : (e.andThen fun s => .ok s) = e := by cases e <;> rfl

/-! ### What steps that do not raise leave (R119) -/

/-- The SYMBOL words of decoded symbols. -/
def symbolWords (syms : List Byte) : List OutWord := syms.map fun x => ⟨.symbol, 0#24 ++ x⟩

@[simp] theorem symbolWords_nil : symbolWords [] = [] := rfl

@[simp] theorem symbolWords_append (xs ys : List Byte) : symbolWords (xs ++ ys) = symbolWords xs ++ symbolWords ys :=
  List.map_append

@[simp] theorem symbolWords_replicate (k : Nat) (x : Byte) :
    symbolWords (List.replicate k x) = List.replicate k ⟨.symbol, 0#24 ++ x⟩ := List.map_replicate

/-- The state once these symbols are decoded, with PTR at an index. -/
def State.afterSymbols (s : State) (ptr : NodeIx) (syms : List Byte) : State :=
  { s with ptr := ptr, decSyms := s.decSyms + BitVec.ofNat 32 syms.length, outq := s.outq ++ symbolWords syms }

@[simp] theorem State.afterSymbols_ptr (s : State) (ptr : NodeIx) (syms : List Byte) : (s.afterSymbols ptr syms).ptr = ptr := rfl
@[simp] theorem State.afterSymbols_root (s : State) (ptr : NodeIx) (syms : List Byte) :
    (s.afterSymbols ptr syms).root = s.root := rfl
@[simp] theorem State.afterSymbols_nodes (s : State) (ptr : NodeIx) (syms : List Byte) :
    (s.afterSymbols ptr syms).nodes = s.nodes := rfl

@[simp] theorem State.afterSymbols_nil (s : State) : s.afterSymbols s.ptr [] = s := by simp [State.afterSymbols]

theorem State.afterSymbols_nil_of_ptr_eq (s : State) (h : s.ptr = s.root) : s.afterSymbols s.root [] = s := by
  rw [← h, State.afterSymbols_nil]

@[simp] theorem State.afterSymbols_afterSymbols (s : State) (i j : NodeIx) (xs ys : List Byte) :
    (s.afterSymbols i xs).afterSymbols j ys = s.afterSymbols j (xs ++ ys) := by
  simp [State.afterSymbols, BitVec.ofNat_add, BitVec.add_assoc]

theorem State.afterSymbols_replicate (s : State) (ptr : NodeIx) (k : Nat) (x : Byte) :
    s.afterSymbols ptr (List.replicate k x) =
      { s with
        ptr := ptr, decSyms := s.decSyms + BitVec.ofNat 32 k, outq := s.outq ++ List.replicate k ⟨.symbol, 0#24 ++ x⟩ } := by
  simp [State.afterSymbols]

/-! ### The empty tree (R119) and the one-leaf tree (R120) -/

theorem State.bitSteps_empty {s : State} (hr : s.root = Config.null) {bs : Bits} (hne : bs ≠ []) :
    s.bitSteps bs = .raised (.underrun .nullRoot) s := by
  obtain ⟨b, bs, rfl⟩ := List.exists_cons_of_ne_nil hne
  simp [State.bitStep_empty hr]

section
variable {s : State} (hr : s.root ≠ Config.null) (hl : (nodeIn s.nodes s.root).leaf = true)
include hr hl

theorem State.bitStep_leaf_one : s.bitStep true = .raised (.underrun .nullChild) s := by
  rw [State.bitStep_leaf hr hl]
  rfl

theorem State.bitStep_leaf_zero : s.bitStep false = .ok (s.afterSymbols s.ptr [(nodeIn s.nodes s.root).sym]) := by
  rw [State.bitStep_leaf hr hl]
  simp [State.singleLeafStep, State.emitBytes, State.afterSymbols, symbolWords, setWidth_eq_zero_append]

/-- Each 0 bit decodes the root's symbol. -/
theorem State.bitSteps_leaf_zeros (k : Nat) :
    s.bitSteps (List.replicate k false) = .ok (s.afterSymbols s.ptr (List.replicate k (nodeIn s.nodes s.root).sym)) := by
  induction k with
  | zero => simp
  | succ k ih =>
    rw [List.replicate_succ', State.bitSteps_append, ih, Ended.andThen_ok, State.bitSteps_cons,
      State.bitStep_leaf_zero (s := s.afterSymbols _ _) hr hl]
    simp [List.replicate_succ']

/-- The first 1 bit raises NULL_CHILD. -/
theorem State.bitSteps_leaf_one (k : Nat) (rest : Bits) :
    s.bitSteps (List.replicate k false ++ true :: rest) =
      .raised (.underrun .nullChild) (s.afterSymbols s.ptr (List.replicate k (nodeIn s.nodes s.root).sym)) := by
  rw [State.bitSteps_append, State.bitSteps_leaf_zeros hr hl, Ended.andThen_ok, State.bitSteps_cons,
    State.bitStep_leaf_one (s := s.afterSymbols _ _) hr hl, Ended.andThen_raised]

end

/-! ### A tree whose root is an internal node (R119) -/

/-- A step to an entry: an internal one stays under PTR, a leaf is decoded. -/
theorem State.bitStep_internal {s : State} {bit : Bool} (hr : s.root ≠ Config.null)
    (hl : (nodeIn s.nodes s.root).leaf = false) (hp : s.ptr ≠ Config.null) {c : NodeIx}
    (hc : (nodeIn s.nodes s.ptr).step bit = c) (hne : c ≠ Config.null) :
    s.bitStep bit = .ok (if (nodeIn s.nodes c).leaf then s.afterSymbols s.root [(nodeIn s.nodes c).sym]
      else s.afterSymbols c []) := by
  rw [Node.step] at hc
  cases hy : (nodeIn s.nodes c).leaf <;>
    simp [State.bitStep, State.walkStep, nodeAt?_eq_some hr, nodeAt?_eq_some hp, hl, hc, nodeAt?_eq_some hne, hy,
      State.decoded, State.emitBytes, State.afterSymbols, symbolWords, setWidth_eq_zero_append]

theorem TreeOk.ne_null {nodes : List (Nat × Node)} {root i : NodeIx} {k : Nat} (ht : TreeOk nodes root k) (hi : i.toNat < k) :
    i ≠ Config.null := by
  rintro rfl
  exact absurd (hi.trans_le ht.bound) (by decide)

section
variable {s : State} (ht : TreeOk s.nodes s.root s.nodeCount.toNat) (hr : s.root ≠ Config.null)
  (hl : (nodeIn s.nodes s.root).leaf = false)
include ht hr hl

/-- With an internal root PTR names an internal entry (R119). -/
theorem State.PtrInTree.internal (h : s.PtrInTree) :
    s.ptr.toNat < s.nodeCount.toNat ∧ (nodeIn s.nodes s.ptr).leaf = false := by
  rcases h with h | h
  · exact h ▸ ⟨ht.rootIn (mt ht.empty.mpr hr), hl⟩
  · exact h

theorem State.PtrInTree.bitStep_ok (h : s.PtrInTree) (bit : Bool) :
    ∃ ptr syms, s.bitStep bit = .ok (s.afterSymbols ptr syms) := by
  obtain ⟨hin, hpl⟩ := h.internal ht hr hl
  have hchild : ((nodeIn s.nodes s.ptr).step bit).toNat < s.nodeCount.toNat := by
    cases bit with
    | false => exact (ht.internal _ hin hpl).1
    | true => exact (ht.internal _ hin hpl).2
  rw [State.bitStep_internal hr hl (ht.ne_null hin) rfl (ht.ne_null hchild)]
  split
  · exact ⟨_, _, rfl⟩
  · exact ⟨_, _, rfl⟩

/-- No bits raise in a tree with an internal root. -/
theorem State.PtrInTree.bitSteps_ok (h : s.PtrInTree) (bs : Bits) :
    ∃ ptr syms, s.bitSteps bs = .ok (s.afterSymbols ptr syms) := by
  induction bs using List.reverseRecOn with
  | nil => exact ⟨s.ptr, [], by simp⟩
  | append_singleton bs bit ih =>
    obtain ⟨i, xs, hbs⟩ := ih
    have hin : (s.afterSymbols i xs).PtrInTree := by simpa [hbs] using h.bitSteps ht bs
    obtain ⟨j, ys, hbit⟩ := hin.bitStep_ok (s := s.afterSymbols i xs) ht hr hl bit
    exact ⟨j, xs ++ ys, by simp [State.bitSteps_append, hbs, hbit]⟩

end

/-! ### The bits of a code (R90, R91, R118) -/

/-- The root of a tree with a longer path is no leaf. -/
theorem PathTo.root_internal {nodes : List (Nat × Node)} {root i : NodeIx} {p : Bits} (h : PathTo nodes root i p)
    (hne : p ≠ []) : (nodeIn nodes root).leaf = false := by
  obtain ⟨bit, q, rfl⟩ := List.exists_cons_of_ne_nil hne
  obtain ⟨j, hj, hl⟩ := PathTo.exists_internal (p := []) h
  exact pathTo_nil_iff.mp hj ▸ hl

section
variable {s : State} (ht : TreeOk s.nodes s.root s.nodeCount.toNat) (hk : s.nodeCount.toNat ≠ 0) (hroot : s.ptr = s.root)
  {i : NodeIx} {p : Bits} (hp : PathTo s.nodes s.root i p)
include ht hk hroot hp

/-- From an internal root, the bits of a node's path lead to the node: to an internal one PTR goes, a leaf is decoded. -/
theorem PathTo.bitSteps (hl : (nodeIn s.nodes s.root).leaf = false) :
    s.bitSteps p = .ok (if (nodeIn s.nodes i).leaf then s.afterSymbols s.root [(nodeIn s.nodes i).sym]
      else s.afterSymbols i []) := by
  induction p using List.reverseRecOn generalizing i with
  | nil =>
    obtain rfl := pathTo_nil_iff.mp hp
    simp [hl, s.afterSymbols_nil_of_ptr_eq hroot]
  | append_singleton p bit ih =>
    obtain ⟨j, hj, hjl, rfl⟩ := pathTo_concat_iff.mp hp
    have hbit := State.bitStep_internal (s := s.afterSymbols j []) (PathTo.root.ne_null ht hk) hl (hj.ne_null ht hk) rfl
      (hp.ne_null ht hk)
    simpa [State.bitSteps_append, ih hj, hjl] using hbit

/-- From the root, the code of a leaf decodes to the leaf's symbol. -/
theorem PathTo.bitSteps_pathCode {x : Byte} (hx : LeafOf s.nodes i x) :
    s.bitSteps (pathCode p) = .ok (s.afterSymbols s.root [x]) := by
  obtain ⟨hl, rfl⟩ := hx
  by_cases hne : p = []
  · subst hne
    obtain rfl := pathTo_nil_iff.mp hp
    simpa [pathCode, hroot] using State.bitSteps_leaf_zeros (PathTo.root.ne_null ht hk) hl 1
  · rw [pathCode, if_neg hne, hp.bitSteps ht hk hroot (hp.root_internal hne), if_pos hl]

end

/-- A valid entry of the code table is the code of a leaf that carries the symbol (R40). -/
theorem exists_leaf_of_valid {s : State} (ht : TreeOk s.nodes s.root s.nodeCount.toNat)
    (hcodes : deriveCodes s.nodes s.root = .ok s.codes) {x : Byte} (hx : (s.codeAt x).valid = true) :
    ∃ i p, PathTo s.nodes s.root i p ∧ LeafOf s.nodes i x ∧ (s.codeAt x).code = pathCode p := by
  rcases tableGet_deriveCodes ht hcodes x with ⟨i, p, hp, hl, he⟩ | ⟨-, he⟩
  · have hle := hp.length_pathCode_le ht (ht.ne_zero_of_leaf hl)
    exact ⟨i, p, hp, hl, by rw [State.codeAt, he, CodeEntry.code_ofBits hle]⟩
  · rw [State.codeAt, he] at hx
    cases hx

/-! ### The obligation -/

/-- Settles O55: the code of a symbol is its leaf's path, which leads from the root to the leaf; decoding the leaf goes back to
the root, where the next code begins. -/
theorem codesDecodeToTheirSymbols : Obligations.CodesDecodeToTheirSymbols := by
  intro s syms ht hc hv hroot hvalid
  obtain ⟨htree, hcodes⟩ : s.treeValid = true ∧ deriveCodes s.nodes s.root = .ok s.codes := by simpa [InvCodes, hv] using hc
  have ht := invTree_valid htree ht
  change s.bitSteps (syms.map fun x => (s.codeAt x).code).flatten = .ok (s.afterSymbols s.ptr syms)
  induction syms using List.reverseRecOn with
  | nil => simp
  | append_singleton syms x ih =>
    obtain ⟨i, p, hp, hl, hcode⟩ := exists_leaf_of_valid ht hcodes (hvalid x (by simp))
    have hstep := PathTo.bitSteps_pathCode (s := s.afterSymbols s.ptr syms) ht (ht.ne_zero_of_leaf hl) hroot hp hl
    rw [List.map_append, List.flatten_append, State.bitSteps_append, ih fun y hy => hvalid y (by simp [hy])]
    simpa [hcode, hroot] using hstep

end Sys2Proof.Machine
end

section
/-!
PROOFS, 44_bitstream.md R121 to R124, R127. The commands of the unpacker, and the obligations about them.
-/

namespace Sys2Proof.Machine

/-! ### The bits of a byte (R118) -/

/-- The first bits of a byte are its highest. -/
theorem expand_take_congr {p q : Byte} {m : Nat} (h : ∀ j < m, p.getLsbD (7 - j) = q.getLsbD (7 - j)) :
    (expand p).take m = (expand q).take m := by
  refine List.ext_getElem (by simp) fun j hj _ => ?_
  obtain ⟨hm, h8⟩ : j < m ∧ j < 8 := by simpa using hj
  rw [List.getElem_take, List.getElem_take, expand_getElem p j h8, expand_getElem q j h8, h j hm]

theorem expand_take_zeros {p : Byte} {m : Nat} (hm : m ≤ 8) (h : ∀ j < m, p.getLsbD (7 - j) = false) :
    (expand p).take m = List.replicate m false := by
  rw [expand_take_congr (q := 0#8) (by simpa using h), show expand 0#8 = List.replicate 8 false by decide,
    List.take_replicate, Nat.min_eq_left hm]

/-- The bits up to the first 1 bit. -/
theorem expand_take_first_one {p : Byte} {k m : Nat} (hk : k < m) (hm : m ≤ 8) (h : ∀ j < k, p.getLsbD (7 - j) = false)
    (h1 : p.getLsbD (7 - k) = true) : ∃ rest, (expand p).take m = List.replicate k false ++ true :: rest := by
  have hlen : k < ((expand p).take m).length := by simp; omega
  refine ⟨((expand p).take m).drop (k + 1), ?_⟩
  have hzeros : ((expand p).take m).take k = List.replicate k false := by
    rw [List.take_take, Nat.min_eq_left hk.le, expand_take_zeros (by omega) h]
  have hbit : ((expand p).take m)[k] = true := by rw [List.getElem_take, expand_getElem p k (by omega), h1]
  rw [← hzeros, ← hbit, List.getElem_cons_drop hlen, List.take_append_drop]

/-! ### What the bit steps and STATUS say of a session (R119, R124) -/

/-- Bit steps leave ERR alone. -/
theorem BitFrame.err {s u : State} (h : BitFrame s u) : u.err = s.err := by
  obtain ⟨_, _, _, rfl⟩ := h
  rfl

/-- `SESS_FAILED` is bit 5 of `STATUS` (10_state.md R23). -/
theorem State.status_getLsbD_five (s : State) : s.status.getLsbD 5 = s.sessFailed := by
  simp only [State.status, flagBit, BitVec.getLsbD_append]
  simp

/-! ### DEC_BEGIN (R121) -/

theorem encode_decBegin (pad : Byte) : encode (.decBegin pad) = 0x50#8 ++ 0#16 ++ pad := by
  refine (congrArg (0x50#8 ++ ·) (BitVec.setWidth_eq_append (w := 24) (x := pad) (by omega))).trans ?_
  exact (BitVec.append_assoc (x₁ := 0x50#8) (x₂ := 0#16) (x₃ := pad)).symm

/-- The state with a decoding session open at the root. -/
def State.openDec (s : State) (pad : BitVec 3) : State :=
  { s with
    decPad := pad, ptr := s.root, pend := none, decSyms := 0#32, sessFailed := false, sessErr := 0#32, mode := .dec }

theorem exec_decBegin (pad : Byte) (s : State) : exec (.decBegin pad) s = command .decBegin s fun s =>
    if s.treeValid then
      match padOperand pad with
      | .error c => .raised c s
      | .ok p => .ok (s.openDec p)
    else .raised .noTree s := rfl

/-! ### DEC_BYTE (R122) -/

/-- The session failed by an error of a DEC_BYTE (R124). -/
def State.failWith (u : State) (c : Cause) : State :=
  { u with sessFailed := true, pend := none, sessErr := errResult 0x51#8 c }

section
variable {s : State} (hm : s.mode = .dec) (b : Byte)
include hm

/-- A failed session drops the byte (R124). -/
theorem exec_decByte_failed (hf : s.sessFailed = true) :
    exec (.decByte b) s = .next { s with last := okResult 0x51#8 } := by
  have ha : admitted .decByte s.mode = true := beq_iff_eq.mpr hm
  rw [exec, execDecByte, command_ok_next ha (if_pos hf)]
  rfl

variable (hf : s.sessFailed = false)
include hf

theorem exec_decByte_first (hp : s.pend = none) :
    exec (.decByte b) s = .next { s with pend := some b, last := okResult 0x51#8 } := by
  have ha : admitted .decByte s.mode = true := beq_iff_eq.mpr hm
  rw [exec, execDecByte, command_ok_next (u := { s with pend := some b }) ha (by simp [hf, hp])]
  rfl

variable {p : Byte} (hp : s.pend = some p)
include hp

theorem exec_decByte_pending :
    exec (.decByte b) s = finish 0x51#8 (failSession ({ s with pend := some b }.bitSteps (expand p))) := by
  have ha : admitted .decByte s.mode = true := beq_iff_eq.mpr hm
  simp [exec, execDecByte, command, ha, hf, hp, Opcode.byte]

theorem exec_decByte_ok {u : State} (h : { s with pend := some b }.bitSteps (expand p) = .ok u) :
    exec (.decByte b) s = .next { u with last := okResult 0x51#8 } := by
  rw [exec_decByte_pending hm b hf hp, h, failSession, finish, State.record_okResult]

/-- An error of the steps is DEC_BYTE's, and the session's (R124). -/
theorem exec_decByte_raised {u : State} {c : Cause} (h : { s with pend := some b }.bitSteps (expand p) = .raised c u) :
    exec (.decByte b) s = .next ((u.failWith c).record (errResult 0x51#8 c)) := by
  rw [exec_decByte_pending hm b hf hp, h]
  rfl

theorem exec_decByte_raises {u : State} {c : Cause} (h : { s with pend := some b }.bitSteps (expand p) = .raised c u) :
    ∃ t, exec (.decByte b) s = .next t ∧ Raises 0x51#8 c s t ∧
      t = { u with sessFailed := true, pend := none, sessErr := t.last, last := t.last, err := t.err } := by
  have herr : u.err = s.err := (BitFrame.of_raised h).err
  exact ⟨_, exec_decByte_raised hm b hf hp h, raises_record _ _ herr, rfl⟩

end

/-! ### DEC_END (R123) -/

/-- A result word is its opcode byte and its CODE, DETAIL and INFO as 24 bits (10_state.md R25). -/
theorem append_three_bytes (opc a b c : Byte) : (opc ++ a ++ b ++ c : Word) = opc ++ (a ++ b ++ c : BitVec 24) :=
  calc (opc ++ a ++ b ++ c : Word)
    _ = opc ++ (a ++ b) ++ c := congrArg (· ++ c) (BitVec.append_assoc (x₁ := opc) (x₂ := a) (x₃ := b))
    _ = opc ++ (a ++ b ++ c) := BitVec.append_assoc (x₁ := opc) (x₂ := a ++ b) (x₃ := c)

/-- The error that DEC_END repeats keeps its numbers under DEC_END's opcode (R123). -/
theorem errResult_stored (opc : Byte) (r : Word) : errResult opc (.stored r) = opc ++ r.extractLsb' 0 24 := by
  have hnumbers : codeOf r ++ detailOf r ++ infoOf r = r.extractLsb' 0 24 := by
    rw [codeOf, detailOf, infoOf, BitVec.extractLsb'_append_extractLsb'_eq_extractLsb' (start₂ := 16) (start₁ := 8) rfl,
      BitVec.extractLsb'_append_extractLsb'_eq_extractLsb' (start₂ := 8) (start₁ := 0) rfl]
  rw [← hnumbers]
  exact append_three_bytes opc (codeOf r) (detailOf r) (infoOf r)

/-- An error of the last byte's steps is DEC_END's. -/
def endSteps (e : Ended) : Ended :=
  match e with
  | .ok u => .ok u
  | .raised c u => endWith c u
  | .stuck f => .stuck f

theorem State.expandLast_clean {s : State} (hp : s.pend = none) (hd : s.decPad = 0#3) : s.expandLast = .ok s := by
  simp [State.expandLast, hp, hd]

theorem State.expandLast_noBytes {s : State} (hp : s.pend = none) (hd : s.decPad ≠ 0#3) :
    s.expandLast = endWith (.paddingNoBytes s.decPad) s := by
  simp [State.expandLast, hp, hd]

section
variable {s : State} (hm : s.mode = .dec)
include hm

/-- A failed session reports its error again (R124). -/
theorem exec_decEnd_failed (hf : s.sessFailed = true) : exec .decEnd s =
    .next ({ s with mode := .idle, sessFailed := false }.record (errResult 0x52#8 (.stored s.sessErr))) := by
  have ha : admitted .decEnd s.mode = true := beq_iff_eq.mpr hm
  rw [exec, execDecEnd, command_raised ha (if_pos hf)]
  rfl

variable (hf : s.sessFailed = false)
include hf

theorem exec_decEnd : exec .decEnd s = finish 0x52#8 ({ s with mode := .idle }.expandLast.andThen State.endAtRoot) := by
  have ha : admitted .decEnd s.mode = true := beq_iff_eq.mpr hm
  simp [exec, execDecEnd, command, ha, hf, Opcode.byte]

theorem exec_decEnd_clean {u : State} (h : { s with mode := .idle }.expandLast = .ok u) (hu : u.ptr = u.root) :
    exec .decEnd s = .next { u with last := okResult 0x52#8 } := by
  rw [exec_decEnd hm hf, h, Ended.andThen_ok, State.endAtRoot, if_neg (not_not_intro hu), finish, State.record_okResult]

theorem exec_decEnd_raises {u : State} {c : Cause} (h : { s with mode := .idle }.expandLast = endWith c u)
    (herr : u.err = s.err) : ∃ t, exec .decEnd s = .next t ∧ Raises 0x52#8 c s t ∧
      t = { u with sessErr := t.last, last := t.last, err := t.err } := by
  rw [exec_decEnd hm hf, h]
  exact ⟨_, rfl, raises_record _ _ herr, rfl⟩

/-- Bits that end inside a code. -/
theorem exec_decEnd_midCode {u : State} (h : { s with mode := .idle }.expandLast = .ok u) (hu : u.ptr ≠ u.root)
    (herr : u.err = s.err) : ∃ t, exec .decEnd s = .next t ∧ Raises 0x52#8 (.underrun .endMidCode) s t ∧
      t = { u with sessErr := t.last, last := t.last, err := t.err } := by
  rw [exec_decEnd hm hf, h, Ended.andThen_ok, State.endAtRoot, if_pos hu]
  exact ⟨_, rfl, raises_record _ _ herr, rfl⟩

end

/-- The state with the session closed and its last byte taken. -/
def State.closeDec (s : State) : State := { s with mode := .idle, pend := none }

section
variable {s : State} {p : Byte} (hp : s.pend = some p)
include hp

theorem expandLast_pending :
    { s with mode := .idle }.expandLast = endSteps (s.closeDec.bitSteps ((expand p).take (8 - s.decPad.toNat))) := by
  simp only [State.expandLast, hp]
  rfl

theorem expandLast_pending_ok {u : State} (h : s.closeDec.bitSteps ((expand p).take (8 - s.decPad.toNat)) = .ok u) :
    { s with mode := .idle }.expandLast = .ok u := by
  rw [expandLast_pending hp, h, endSteps]

theorem expandLast_pending_raised {u : State} {c : Cause}
    (h : s.closeDec.bitSteps ((expand p).take (8 - s.decPad.toNat)) = .raised c u) :
    { s with mode := .idle }.expandLast = endWith c u := by
  rw [expandLast_pending hp, h, endSteps]

end

/-! ### ABORT (45_control.md R131) -/

theorem exec_abort (s : State) : exec .abort s = .next { s.abortSession with last := okResult 0x03#8 } := by
  have ha : admitted .abort s.mode = true := rfl
  rw [exec, execAbort, command_ok_next (u := s.abortSession) ha rfl]
  rfl

/-! ### The obligations -/

/-- Settles O52: the mode, the tree and the padding count are checked in this order. -/
theorem decBeginOpensTheSession : Obligations.DecBeginOpensTheSession := by
  intro s pad
  have ha (hm : s.mode = .idle) : admitted .decBegin s.mode = true := beq_iff_eq.mpr hm
  refine ⟨encode_decBegin pad, fun hm => ?_, fun hm hv => ?_, fun hm hv hpad => ?_, fun hm hv hpad => ?_⟩
  · have ha : admitted .decBegin s.mode = false := beq_eq_false_iff_ne.mpr hm
    rw [exec_decBegin, command_sequence ha]
    exact ⟨_, rfl, raises_record _ _ rfl, rfl⟩
  · rw [exec_decBegin, command_raised (ha hm) (if_neg (by simp [hv]))]
    exact ⟨_, rfl, raises_record _ _ rfl, rfl⟩
  · have hp : padOperand pad = .ok (pad.setWidth 3) := if_neg (Nat.not_lt_of_le hpad)
    rw [exec_decBegin, command_ok_next (u := s.openDec (pad.setWidth 3)) (ha hm) (by simp [hv, hp])]
    refine ⟨_, rfl, ⟨rfl, rfl⟩, ?_, rfl⟩
    show (pad.setWidth 3).toNat = pad.toNat
    rw [BitVec.toNat_setWidth]
    omega
  · have hp : padOperand pad = .error (.paddingRange pad) := if_pos hpad
    rw [exec_decBegin, command_raised (c := .paddingRange pad) (u := s) (ha hm) (by simp [hv, hp])]
    exact ⟨_, rfl, raises_record _ _ rfl, rfl⟩

/-- Settles O57: the bits that are stepped are the byte's bits above the padding. -/
theorem paddingBitsAreNotExamined : Obligations.PaddingBitsAreNotExamined := by
  intro s p q h hm
  have hbits : (expand p).take (8 - s.decPad.toNat) = (expand q).take (8 - s.decPad.toNat) :=
    expand_take_congr fun j hj => h _ (by omega)
  have hend (b : Byte) : exec .decEnd { s with pend := some b, sessFailed := false } = finish 0x52#8
      ((endSteps ({ s with sessFailed := false }.closeDec.bitSteps
        ((expand b).take (8 - s.decPad.toNat)))).andThen State.endAtRoot) := by
    rw [exec_decEnd (s := { s with pend := some b, sessFailed := false }) hm rfl, expandLast_pending rfl]
    rfl
  rw [hend, hend, hbits]

/-- Settles O56: the steps raise underruns alone, whose CODE is not 0, and change nothing of the session but PTR and DEC_SYMS. -/
theorem failedSessionReportsItsFirstError : Obligations.FailedSessionReportsItsFirstError := by
  refine ⟨fun s t b hm hf h hcode => ?_, fun s hm hf => ⟨fun b => exec_decByte_failed hm b hf, ?_, ?_⟩⟩
  · cases hp : s.pend with
    | none =>
      rw [exec_decByte_first hm b hf hp] at h
      cases h
      exact absurd (codeOf_okResult _) hcode
    | some p =>
      cases hb : State.bitSteps { s with pend := some b } (expand p) with
      | ok u =>
        rw [exec_decByte_ok hm b hf hp hb] at h
        cases h
        exact absurd (codeOf_okResult _) hcode
      | raised c u =>
        rw [exec_decByte_raised hm b hf hp hb] at h
        cases h
        obtain ⟨_, _, ws, rfl⟩ := BitFrame.of_raised hb
        exact ⟨rfl, State.status_getLsbD_five _, rfl, fun he => if_pos ⟨hcode, he⟩, rfl, hm, ws, rfl⟩
      | stuck f =>
        rw [exec_decByte_pending hm b hf hp, hb] at h
        cases h
  · exact ⟨_, exec_decEnd_failed hm hf, errResult_stored _ _, rfl⟩
  · refine ⟨_, exec_abort s, ?_⟩
    simp [State.abortSession, hm]

/-- Settles O53: what a byte's bits do is what the tree says of any bits; the bits of a byte are 0 up to its first 1. -/
theorem decByteStepsThePendingByte : Obligations.DecByteStepsThePendingByte := by
  intro s b hm hf
  refine ⟨exec_decByte_first hm b hf, fun p u hp h => exec_decByte_ok hm b hf hp h,
    fun p c u hp h => exec_decByte_raises hm b hf hp h, fun p hp ht hs hr hl => ?_, fun p hp hr => ?_,
    fun p hp hr hl => ⟨?_, fun k hk h0 h1 => ?_⟩⟩
  · obtain ⟨-, -, hv, hptr, -⟩ := (invSession_dec hm).mp hs
    obtain ⟨ptr, syms, h⟩ := State.PtrInTree.bitSteps_ok (s := { s with pend := some b }) (invTree_valid hv ht) hr hl hptr
      (expand p)
    exact ⟨_, syms, exec_decByte_ok hm b hf hp h, ⟨rfl, rfl⟩, rfl, rfl, rfl, rfl⟩
  · have hne : expand p ≠ [] := List.ne_nil_of_length_pos (by simp)
    have h := State.bitSteps_empty (s := { s with pend := some b }) hr hne
    exact exec_decByte_raises (u := { s with pend := some b }) hm b hf hp h
  · rintro rfl
    exact exec_decByte_ok hm b hf hp (State.bitSteps_leaf_zeros (s := { s with pend := some b }) hr hl 8)
  · obtain ⟨rest, hbits⟩ := expand_take_first_one hk le_rfl h0 h1
    rw [List.take_of_length_le (by simp)] at hbits
    have h := State.bitSteps_leaf_one (s := { s with pend := some b }) hr hl k rest
    rw [← hbits, State.afterSymbols_replicate] at h
    exact exec_decByte_raises hm b hf hp h

/-- Settles O54: the bits that are stepped are the first of the byte, at least one, and what they do is what the tree says. -/
theorem decEndExpandsTheLastByte : Obligations.DecEndExpandsTheLastByte := by
  intro s hm hf
  have hpad : s.decPad.toNat < 8 := s.decPad.isLt
  refine ⟨fun hp hd hr => ?_, fun hp hd hr => ?_, fun hp hd => ?_, fun p u hp h => ⟨fun hu => ?_, fun hu => ?_⟩,
    fun p c u hp h => ?_, fun p hp ht hs hr hl => ?_, fun p hp hr => ?_,
    fun p hp hr hl => ⟨fun hptr h0 => ?_, fun k hk h0 h1 => ?_⟩⟩
  · exact exec_decEnd_clean hm hf (State.expandLast_clean hp hd) hr
  · exact exec_decEnd_midCode hm hf (State.expandLast_clean hp hd) hr rfl
  · exact exec_decEnd_raises hm hf (State.expandLast_noBytes hp hd) rfl
  · exact exec_decEnd_clean hm hf (expandLast_pending_ok hp h) hu
  · exact exec_decEnd_midCode hm hf (expandLast_pending_ok hp h) hu (BitFrame.of_ok h).err
  · exact exec_decEnd_raises hm hf (expandLast_pending_raised hp h) (BitFrame.of_raised h).err
  · obtain ⟨-, -, hv, hptr, -⟩ := (invSession_dec hm).mp hs
    obtain ⟨_, _, h⟩ := State.PtrInTree.bitSteps_ok (s := s.closeDec) (invTree_valid hv ht) hr hl hptr
      ((expand p).take (8 - s.decPad.toNat))
    exact ⟨_, h⟩
  · have hne : (expand p).take (8 - s.decPad.toNat) ≠ [] := List.ne_nil_of_length_pos (by simp; omega)
    have h := State.bitSteps_empty (s := s.closeDec) hr hne
    exact exec_decEnd_raises hm hf (expandLast_pending_raised hp h) rfl
  · have h := State.bitSteps_leaf_zeros (s := s.closeDec) hr hl (8 - s.decPad.toNat)
    rw [← expand_take_zeros (by omega) h0, State.afterSymbols_replicate] at h
    exact exec_decEnd_clean hm hf (expandLast_pending_ok hp h) hptr
  · obtain ⟨rest, hbits⟩ := expand_take_first_one hk (by omega) h0 h1
    have h := State.bitSteps_leaf_one (s := s.closeDec) hr hl k rest
    rw [← hbits, State.afterSymbols_replicate] at h
    exact exec_decEnd_raises hm hf (expandLast_pending_raised hp h) rfl

end Sys2Proof.Machine
end

section
/-!
PROOFS, 45_control.md R128 to R132. The next state of each control command, which every mode admits, and the obligations about
them.
-/

namespace Sys2Proof.Machine

/-! ### The commands that read no mode (R128 to R130, R132) -/

theorem exec_nop (s : State) : exec .nop s = .next { s with last := okResult 0x00#8 } :=
  command_ok_next (op := .nop) rfl rfl

theorem exec_reset (s : State) : exec .reset s = .next { s.resetCore with last := okResult 0x01#8 } :=
  command_ok_next (op := .reset) rfl rfl

theorem exec_clrErr (s : State) : exec .clrErr s = .next { s with err := 0#32, last := okResult 0x02#8 } :=
  command_ok_next (op := .clrErr) rfl rfl

theorem exec_mark (imm : BitVec 24) (s : State) :
    exec (.mark imm) s = .next { s.emit .mark (imm.setWidth 32) with last := okResult 0x04#8 } :=
  command_ok_next (op := .mark) rfl rfl

/-! ### What ABORT closes in each mode (R131) -/

section
variable {s : State}

theorem State.abortSession_idle (hm : s.mode = .idle) : s.abortSession = s := by rw [State.abortSession, hm]

theorem State.abortSession_des (hm : s.mode = .des) : s.abortSession = { s with desBuf := [], mode := .idle } := by
  rw [State.abortSession, hm]

theorem State.abortSession_enc (hm : s.mode = .enc) : s.abortSession = { s with acc := [], mode := .idle } := by
  rw [State.abortSession, hm]

theorem State.abortSession_dec (hm : s.mode = .dec) :
    s.abortSession = { s with pend := none, sessFailed := false, mode := .idle } := by
  rw [State.abortSession, hm]

end

/-! ### The obligations -/

/-- Settles O26: MARK's word is its opcode byte and its operand, which the decoder reads back; the data of the word it emits is
the operand under a byte of 0. -/
theorem nopClrErrAndMark : Obligations.NopClrErrAndMark := by
  refine ⟨rfl, rfl, fun imm => ⟨rfl, decode_encode (.mark imm)⟩, fun s => ⟨exec_nop s, exec_clrErr s, fun imm => ?_⟩⟩
  have hdata : imm.setWidth 32 = 0#8 ++ imm := BitVec.setWidth_eq_append (w := 32) (by omega)
  rw [exec_mark, hdata]
  rfl

/-- Settles O27: RESET's body is the reset of 70_reset_and_hazards.md R161. -/
theorem resetCommandResets : Obligations.ResetCommandResets := exec_reset

/-- Settles O28: the four modes, by what closing each session drops. -/
theorem abortClosesTheSession : Obligations.AbortClosesTheSession := by
  refine ⟨rfl, fun s => ⟨fun hm => ?_, fun hm => ?_, fun hm => ?_, fun hm => ?_⟩⟩
  · rw [exec_abort, State.abortSession_idle hm]
    rfl
  · rw [exec_abort, State.abortSession_des hm]
    rfl
  · rw [exec_abort, State.abortSession_enc hm]
    rfl
  · rw [exec_abort, State.abortSession_dec hm]
    rfl

end Sys2Proof.Machine
end

section
/-!
PROOFS, 46_readback.md R133 to R139. The values of the registers and the bits of the response words; the next state of each
read, and the obligations about them.
-/

namespace Sys2Proof.Machine

/-! ### Words made of fields (10_state.md R23; R136, R137) -/

theorem toNat_append_eq_add {m n : Nat} (x : BitVec m) (y : BitVec n) : (x ++ y).toNat = 2 ^ n * x.toNat + y.toNat := by
  rw [BitVec.toNat_append, ← Nat.shiftLeft_add_eq_or_of_lt y.isLt, Nat.shiftLeft_eq, Nat.mul_comm]

theorem toNat_flagBit (b : Bool) : (flagBit b).toNat = b.toNat := BitVec.toNat_ofBool b

theorem State.status_toNat (s : State) : s.status.toNat = s.mode.bits.toNat + 4 * s.treeValid.toNat +
    8 * s.codesValid.toNat + 16 * s.errPending.toNat + 32 * s.sessFailed.toNat := by
  simp only [State.status, toNat_append_eq_add, toNat_flagBit, BitVec.toNat_zero]
  omega

theorem Node.linkWord_toNat (e : Node) : e.linkWord.toNat = 2147483648 * e.used.toNat + 1073741824 * e.leaf.toNat +
    262144 * e.left.toNat + 512 * e.right.toNat + e.sym.toNat := by
  simp only [Node.linkWord, toNat_append_eq_add, toNat_flagBit, BitVec.toNat_zero]
  omega

theorem lengthWord_toNat (b : Bool) (len : Byte) :
    (flagBit b ++ 0#23 ++ len).toNat = 2147483648 * b.toNat + len.toNat := by
  simp only [toNat_append_eq_add, toNat_flagBit, BitVec.toNat_zero]
  omega

/-! ### The index map of the registers (10_state.md R35) -/

/-- The registers are declared in the order of their indices. -/
theorem toNat_of_regOfIndex_eq_some {r : Byte} {reg : Reg} (h : regOfIndex r = some reg) : r.toNat = reg.ctorIdx := by
  unfold regOfIndex at h
  split at h <;> cases h <;> assumption

theorem lt_toNat_of_regOfIndex_eq_none {r : Byte} (h : regOfIndex r = none) : 0x0E < r.toNat := by
  refine Nat.lt_of_not_le fun hle => ?_
  rw [regOfIndex] at h
  interval_cases r.toNat <;> cases h

theorem registerValue_ctorIdx (s : State) (reg : Reg) : registerValue s reg.ctorIdx = some (s.readReg reg).toNat := by
  cases reg with
  | status => exact congrArg some s.status_toNat.symm
  | root | nodeCount | distinct | padding | decPad =>
    refine congrArg some (Eq.symm (BitVec.toNat_setWidth_of_le ?_))
    decide
  | encBitsLo => exact congrArg some (Eq.symm (BitVec.extractLsb'_toNat 0 32 _))
  | encBitsHi =>
    refine congrArg some (Eq.symm ?_)
    rw [State.readReg, BitVec.extractLsb'_toNat, Nat.shiftRight_eq_div_pow, Nat.mod_eq_of_lt (by omega)]
  | id | last | err | total | decSyms | config | sessErr => rfl

theorem registerValue_of_gt (s : State) {n : Nat} (h : 0x0E < n) : registerValue s n = none := by
  obtain ⟨k, rfl⟩ := Nat.exists_eq_add_of_le' h
  rfl

/-! ### The bits of a code's word (R138) -/

theorem CodeEntry.word_getLsbD (e : CodeEntry) (k : BitVec 3) {j : Nat} (hj : j < 32) : (e.word k).getLsbD (31 - j) =
    (decide (32 * k.toNat + j < e.len.toNat) && e.bits.getLsbD (32 * k.toNat + j)) := by
  rw [CodeEntry.word, BitVec.getLsbD_ofNat, testBit_bitsValue, decide_eq_true (by omega), Bool.true_and,
    List.getD_eq_getElem?_getD, List.getElem?_reverse (by simp; omega), List.length_map, List.length_range,
    show 32 - 1 - (31 - j) = j by omega]
  simp [hj]

/-! ### The words of the reads (R134 to R138) -/

theorem append_setWidth_byte (opc x : Byte) : opc ++ x.setWidth 24 = opc ++ 0#16 ++ x :=
  (congrArg (opc ++ ·) (BitVec.setWidth_eq_append (w := 24) (x := x) (by omega))).trans
    (BitVec.append_assoc (x₁ := opc) (x₂ := 0#16) (x₃ := x)).symm

theorem encode_rdCode (sym : Byte) (k : BitVec 3) : encode (.rdCode sym k) = 0x64#8 ++ 0#13 ++ k ++ sym := by
  have harg : (k ++ sym).setWidth 24 = 0#13 ++ (k ++ sym) := BitVec.setWidth_eq_append (by omega)
  calc encode (.rdCode sym k) = 0x64#8 ++ (0#13 ++ (k ++ sym)) := congrArg (0x64#8 ++ ·) harg
    _ = 0x64#8 ++ 0#13 ++ (k ++ sym) := BitVec.append_assoc.symm
    _ = 0x64#8 ++ 0#13 ++ k ++ sym := BitVec.append_assoc.symm

/-! ### The next state of a read (R133, R139) -/

section
variable {op : Opcode} {s : State} {response : State → Except Cause (List Word)}

theorem readCommand_ok_next {ws : List Word} (ha : admitted op s.mode = true) (hr : response s = .ok ws) :
    readCommand op s response = .next
      { s with outq := s.outq ++ ws.map fun w => ⟨.resp, w⟩, last := okResult op.byte } := by
  rw [readCommand_ok ha hr, State.record_okResult]
  rfl

theorem readCommand_raises {c : Cause} (ha : admitted op s.mode = true) (hr : response s = .error c) :
    ∃ t, readCommand op s response = .next t ∧ Raises op.byte c s t ∧ t = { s with
      outq := s.outq ++ List.replicate (responseCount op) ⟨.resp, 0#32⟩, last := t.last, err := t.err } := by
  refine ⟨_, readCommand_raised ha hr, raises_record _ _ rfl, ?_⟩
  rw [← State.respondZeros_outq]
  rfl

end

theorem exec_rdReg_ok {r : Byte} {reg : Reg} (h : regOfIndex r = some reg) (s : State) : exec (.rdReg r) s =
    .next { s with outq := s.outq ++ [⟨.resp, s.readReg reg⟩], last := okResult 0x60#8 } := by
  rw [exec, execRdReg, readCommand_ok_next (ws := [s.readReg reg]) rfl (by rw [regOperand, h])]
  rfl

theorem exec_rdReg_raises {r : Byte} (h : regOfIndex r = none) (s : State) :
    ∃ t, exec (.rdReg r) s = .next t ∧ Raises 0x60#8 (.badIndex r) s t ∧
      t = { s with outq := s.outq ++ [⟨.resp, 0#32⟩], last := t.last, err := t.err } := by
  rw [exec, execRdReg]
  exact readCommand_raises (op := .rdReg) rfl (by rw [regOperand, h])

theorem exec_rdFreq (sym : Byte) (s : State) : exec (.rdFreq sym) s =
    .next { s with outq := s.outq ++ [⟨.resp, s.freqAt sym⟩], last := okResult 0x61#8 } := by
  rw [exec, execRdFreq, readCommand_ok_next rfl rfl]
  rfl

theorem admitted_rdNode {m : Mode} (hm : m ≠ .des) : admitted .rdNode m = true := bne_iff_ne.mpr hm

theorem exec_rdNode_ok {s : State} {idx : NodeIx} (hm : s.mode ≠ .des) (hidx : idx.toNat ≤ 510) :
    exec (.rdNode idx) s = .next { s with
      outq := s.outq ++ [⟨.resp, (nodeIn s.nodes idx).linkWord⟩, ⟨.resp, (nodeIn s.nodes idx).freq⟩],
      last := okResult 0x62#8 } := by
  have hoperand : nodeOperand idx = .ok idx := if_neg (Nat.not_lt_of_le hidx)
  rw [exec, execRdNode, readCommand_ok_next (admitted_rdNode hm) (by rw [hoperand])]
  rfl

theorem exec_rdNode_raises {s : State} {idx : NodeIx} (hm : s.mode ≠ .des) (hidx : 510 < idx.toNat) :
    ∃ t, exec (.rdNode idx) s = .next t ∧ Raises 0x62#8 (.badIndex (idx.extractLsb' 0 8)) s t ∧
      t = { s with outq := s.outq ++ [⟨.resp, 0#32⟩, ⟨.resp, 0#32⟩], last := t.last, err := t.err } := by
  have hoperand : nodeOperand idx = .error (.badIndex (idx.extractLsb' 0 8)) := if_pos hidx
  rw [exec, execRdNode]
  exact readCommand_raises (op := .rdNode) (admitted_rdNode hm) (by rw [hoperand])

theorem exec_rdClen (sym : Byte) (s : State) : exec (.rdClen sym) s = .next { s with
    outq := s.outq ++ [⟨.resp, flagBit (s.codeAt sym).valid ++ 0#23 ++ (s.codeAt sym).len⟩],
    last := okResult 0x63#8 } := by
  rw [exec, execRdClen, readCommand_ok_next rfl rfl]
  rfl

theorem exec_rdCode (sym : Byte) (k : BitVec 3) (s : State) : exec (.rdCode sym k) s =
    .next { s with outq := s.outq ++ [⟨.resp, (s.codeAt sym).word k⟩], last := okResult 0x64#8 } := by
  rw [exec, execRdCode, readCommand_ok_next rfl rfl]
  rfl

/-! ### The obligations -/

/-- Settles O58: an index names a register, whose value the map of R35 gives, or is above the last. -/
theorem rdRegReadsEveryRegister : Obligations.RdRegReadsEveryRegister := by
  refine fun s r => ⟨append_setWidth_byte 0x60#8 r, ?_⟩
  cases hreg : regOfIndex r with
  | some reg =>
    rw [toNat_of_regOfIndex_eq_some hreg, registerValue_ctorIdx]
    refine ⟨_, exec_rdReg_ok hreg s, rfl, ⟨rfl, rfl⟩, (s.readReg reg).isLt, ?_⟩
    rw [BitVec.ofNat_toNat, BitVec.setWidth_eq]
    rfl
  | none =>
    have hindex := lt_toNat_of_regOfIndex_eq_none hreg
    obtain ⟨t, hexec, hraises, ht⟩ := exec_rdReg_raises hreg s
    rw [registerValue_of_gt s hindex]
    exact ⟨t, hexec, by rw [ht], hindex, hraises, by rw [ht]; rfl⟩

/-- Settles O59: one response word each, whose fields or bits are the entry's. -/
theorem rdFreqClenAndCodeReadTheTables : Obligations.RdFreqClenAndCodeReadTheTables := by
  refine fun s sym => ⟨append_setWidth_byte 0x61#8 sym, append_setWidth_byte 0x63#8 sym, encode_rdCode sym,
    exec_rdFreq sym s, ?clen, fun k => ?code⟩
  case clen => exact ⟨_, lengthWord_toNat _ _, exec_rdClen sym s⟩
  case code => exact ⟨_, fun _ hj => CodeEntry.word_getLsbD _ k hj, exec_rdCode sym k s⟩

/-- Settles O60: index 511 is the only one above 510; its low byte is 0xFF. -/
theorem rdNodeReadsAnEntry : Obligations.RdNodeReadsAnEntry := by
  refine fun s idx hm => ⟨fun hidx => ⟨_, Node.linkWord_toNat _, exec_rdNode_ok hm hidx⟩, fun hidx => ?_⟩
  obtain rfl : idx = 511#9 := BitVec.eq_of_toNat_eq hidx
  exact exec_rdNode_raises hm (by decide)

end Sys2Proof.Machine
end

section
/-!
PROOFS, 60_exceptions.md R141 to R145. How a command may end, said once as a relation (`BodyEnds`): what it may raise, what it
leaves of ERR and SESS_ERR, and where it may be stuck.
-/

namespace Sys2Proof.Machine

/-! ### How the body of a command may end -/

/-- What a command with this opcode may raise: SEQUENCE only where the mode turns it away (R143), and an earlier error only as
the one that a failed session stored (44_bitstream.md R123). -/
def State.MayRaise (s : State) (op : Opcode) : Cause → Prop
  | .sequence m => admitted op s.mode = false ∧ m = s.mode
  | .stored r => s.sessFailed = true ∧ r = s.sessErr
  | _ => True

/-- `ERR` when a command comes to record its result: CLR_ERR and RESET have cleared it (R142). -/
def State.errBefore (s : State) (i : Instr) : Word :=
  match i with
  | .clrErr | .reset => 0#32
  | _ => s.err

/-- `BodyEnds i s e`: command i may end as `e` from `s`, before its result word is recorded (`exec_ends`). SESS_ERR is kept,
cleared by a command that raises nothing, or holds the error raised (44_bitstream.md R121 to R124); a body is stuck only in a
traversal of the node table (log entry 8). -/
inductive BodyEnds (i : Instr) (s : State) : Ended → Prop where
  | ok {u : State} : u.err = s.errBefore i → (u.sessErr = s.sessErr ∨ u.sessErr = 0#32) → BodyEnds i s (.ok u)
  | raised {c : Cause} {u : State} : s.MayRaise i.opcode c → u.err = s.errBefore i →
      (u.sessErr = s.sessErr ∨ ∃ opc, u.sessErr = errResult opc c) → BodyEnds i s (.raised c u)
  | stuckWalk {f : Fault} : s.treeValid = true → deriveCodes s.nodes s.root = .error (.stuck f) → BodyEnds i s (.stuck f)
  | stuckSerializer {f : Fault} : s.treeValid = true → serialize s.nodes s.root = .error f → BodyEnds i s (.stuck f)
  | stuckBits {m : Mode} {pend : Option Byte} {bs : Bits} {f : Fault} : s.mode = .dec →
      State.bitSteps { s with mode := m, pend := pend } bs = .stuck f → BodyEnds i s (.stuck f)

theorem State.errBefore_eq (s : State) (i : Instr) :
    s.errBefore i = if i = .clrErr ∨ i = .reset then 0#32 else s.err := by
  cases i <;> rfl

theorem State.errBefore_of_not_admitted {i : Instr} {s : State} (h : admitted i.opcode s.mode = false) :
    s.errBefore i = s.err := by
  cases i with
  | clrErr | reset => cases h
  | _ => rfl

theorem ends_of_command {i : Instr} {s : State} {o : Host.Outcome State Fault Refusal} {body : State → Ended}
    (h : o = command i.opcode s body) (hb : admitted i.opcode s.mode = true → BodyEnds i s (body s)) :
    ∃ e, o = finish i.opcode.byte e ∧ BodyEnds i s e := by
  refine ⟨_, h, ?_⟩
  split
  · next ha => exact hb ha
  · next ha =>
    have ha := Bool.eq_false_of_not_eq_true ha
    exact .raised ⟨ha, rfl⟩ (State.errBefore_of_not_admitted ha).symm (.inl rfl)

theorem ends_of_read {i : Instr} {s : State} {o : Host.Outcome State Fault Refusal}
    {response : State → Except Cause (List Word)} (h : o = readCommand i.opcode s response) (herr : s.errBefore i = s.err)
    (hr : ∀ c, response s = .error c → s.MayRaise i.opcode c) : ∃ e, o = finish i.opcode.byte e ∧ BodyEnds i s e := by
  cases ha : admitted i.opcode s.mode with
  | false =>
    exact ⟨.raised _ (s.respondZeros _), h.trans (readCommand_sequence ha), .raised ⟨ha, rfl⟩ herr.symm (.inl rfl)⟩
  | true =>
    cases hresp : response s with
    | ok ws => exact ⟨.ok (s.respond ws), h.trans (readCommand_ok ha hresp), .ok herr.symm (.inl rfl)⟩
    | error c =>
      exact ⟨.raised c (s.respondZeros _), h.trans (readCommand_raised ha hresp), .raised (hr c hresp) herr.symm (.inl rfl)⟩

/-! ### The operand checks (R144) -/

theorem regOperand_error {r : Byte} {c : Cause} (h : regOperand r = .error c) : c = .badIndex r := by
  unfold regOperand at h
  split at h <;> cases h
  rfl

theorem nodeOperand_error {idx : NodeIx} {c : Cause} (h : nodeOperand idx = .error c) :
    c = .badIndex (idx.extractLsb' 0 8) := by
  unfold nodeOperand at h
  split at h <;> cases h
  rfl

theorem padOperand_error {pad : Byte} {c : Cause} (h : padOperand pad = .error c) : c = .paddingRange pad := by
  unfold padOperand at h
  split at h <;> cases h
  rfl

/-! ### The unpacker's bodies (44_bitstream.md R122, R123) -/

theorem BitFrame.sessErr {s u : State} (h : BitFrame s u) : u.sessErr = s.sessErr := by
  obtain ⟨_, _, _, rfl⟩ := h
  rfl

/-- DEC_BYTE of a session that has not failed, with a byte pending. -/
theorem decByte_ends {s : State} (hm : s.mode = .dec) (b p : Byte) :
    BodyEnds (.decByte b) s (failSession (State.bitSteps { s with pend := some b } (expand p))) := by
  cases h : State.bitSteps { s with pend := some b } (expand p) with
  | ok u => exact .ok (BitFrame.of_ok h).err (.inl (BitFrame.of_ok h).sessErr)
  | raised c u =>
    obtain ⟨r, rfl⟩ := State.bitSteps_raised h
    exact .raised trivial (BitFrame.of_raised h).err (.inr ⟨_, rfl⟩)
  | stuck f => exact .stuckBits hm h

theorem endAtRoot_ends {s u : State} (herr : u.err = s.err) (hsess : u.sessErr = s.sessErr) :
    BodyEnds .decEnd s u.endAtRoot := by
  unfold State.endAtRoot
  split
  · exact .raised trivial herr (.inr ⟨_, rfl⟩)
  · exact .ok herr (.inl hsess)

/-- DEC_END of a session that has not failed. -/
theorem decEnd_ends {s : State} (hm : s.mode = .dec) :
    BodyEnds .decEnd s ((State.expandLast { s with mode := .idle }).andThen State.endAtRoot) := by
  by_cases hp : s.pend = none
  · by_cases hd : s.decPad = 0#3
    · rw [State.expandLast_clean (s := { s with mode := .idle }) hp hd]
      exact endAtRoot_ends rfl rfl
    · rw [State.expandLast_noBytes (s := { s with mode := .idle }) hp hd]
      exact .raised trivial rfl (.inr ⟨_, rfl⟩)
  · obtain ⟨p, hp⟩ := Option.ne_none_iff_exists'.mp hp
    rw [expandLast_pending hp]
    cases h : s.closeDec.bitSteps ((expand p).take (8 - s.decPad.toNat)) with
    | ok u => exact endAtRoot_ends (BitFrame.of_ok h).err (BitFrame.of_ok h).sessErr
    | raised c u =>
      obtain ⟨r, rfl⟩ := State.bitSteps_raised h
      exact .raised trivial (BitFrame.of_raised h).err (.inr ⟨_, rfl⟩)
    | stuck f => exact .stuckBits hm h

/-! ### Every command -/

/-- Every command, a read too, is the end of a body (R142). -/
theorem exec_ends (i : Instr) (s : State) : ∃ e, exec i s = finish i.opcode.byte e ∧ BodyEnds i s e := by
  unfold exec
  cases i with
  | nop | clrErr | mark imm | freqClr | desBegin | desByte b => exact ends_of_command rfl fun _ => .ok rfl (.inl rfl)
  | reset => exact ends_of_command rfl fun _ => .ok rfl (.inr rfl)
  | abort =>
    refine ends_of_command rfl fun _ => .ok ?_ (.inl ?_)
    · rw [State.abortSession_frame]
      rfl
    · rw [State.abortSession_frame]
  | freqAdd sym n =>
    refine ends_of_command rfl fun _ => ?_
    split
    · exact .raised trivial rfl (.inl rfl)
    · exact .ok rfl (.inl rfl)
  | build | desEnd =>
    refine ends_of_command rfl fun _ => ?_
    dsimp only
    split
    · exact .raised trivial rfl (.inl rfl)
    · exact .ok rfl (.inl rfl)
  | derive =>
    refine ends_of_command rfl fun _ => ?_
    split
    · next hv =>
      split
      · exact .ok rfl (.inl rfl)
      · exact .raised trivial rfl (.inl rfl)
      · next h => exact .stuckWalk hv h
    · exact .raised trivial rfl (.inl rfl)
  | ser =>
    refine ends_of_command rfl fun _ => ?_
    split
    · next hv =>
      split
      · exact .ok rfl (.inl rfl)
      · next h => exact .stuckSerializer hv h
    · exact .raised trivial rfl (.inl rfl)
  | encBegin | encSym sym =>
    refine ends_of_command rfl fun _ => ?_
    split
    · exact .ok rfl (.inl rfl)
    · exact .raised trivial rfl (.inl rfl)
  | encEnd =>
    refine ends_of_command rfl fun _ => .ok ?_ (.inl ?_)
    · rw [State.flush_frame]
      rfl
    · rw [State.flush_frame]
  | decBegin pad =>
    refine ends_of_command rfl fun _ => ?_
    split
    · split
      · next hpad => exact padOperand_error hpad ▸ .raised trivial rfl (.inl rfl)
      · exact .ok rfl (.inr rfl)
    · exact .raised trivial rfl (.inl rfl)
  | decByte b =>
    refine ends_of_command rfl fun ha => ?_
    split
    · exact .ok rfl (.inl rfl)
    · split
      · exact .ok rfl (.inl rfl)
      · exact decByte_ends (eq_of_beq ha) b _
  | decEnd =>
    refine ends_of_command rfl fun ha => ?_
    dsimp only
    split
    · next hf => exact .raised ⟨hf, rfl⟩ rfl (.inl rfl)
    · exact decEnd_ends (eq_of_beq ha)
  | rdReg r =>
    refine ends_of_read rfl rfl fun c h => ?_
    split at h <;> cases h
    next hreg => exact regOperand_error hreg ▸ trivial
  | rdNode idx =>
    refine ends_of_read rfl rfl fun c h => ?_
    split at h <;> cases h
    next hidx => exact nodeOperand_error hidx ▸ trivial
  | rdFreq sym | rdClen sym | rdCode sym k => exact ends_of_read rfl rfl fun _ h => nomatch h

/-- What the next state of a command is: its result word recorded after a body that raised nothing, or that raised. -/
theorem exec_next_cases {i : Instr} {s t : State} (h : exec i s = .next t) :
    (∃ u : State, u.err = s.errBefore i ∧ (u.sessErr = s.sessErr ∨ u.sessErr = 0#32) ∧
      t = u.record (okResult i.opcode.byte)) ∨
    (∃ (c : Cause) (u : State), s.MayRaise i.opcode c ∧ u.err = s.errBefore i ∧
      (u.sessErr = s.sessErr ∨ ∃ opc, u.sessErr = errResult opc c) ∧ t = u.record (errResult i.opcode.byte c)) := by
  obtain ⟨e, he, hends⟩ := exec_ends i s
  rcases finish_next (he.symm.trans h) with ⟨u, rfl, rfl⟩ | ⟨c, u, rfl, rfl⟩
  · cases hends with
    | ok herr hsess => exact .inl ⟨u, herr, hsess, rfl⟩
  · cases hends with
    | raised hc herr hsess => exact .inr ⟨c, u, hc, herr, hsess, rfl⟩

end Sys2Proof.Machine
end

section
/-!
PROOFS, 60_exceptions.md. No command is fatal (R148), the result registers (R140, R142), the admission by mode (R143) and the
preconditions (R144), and the obligations about them.
-/

namespace Sys2Proof.Machine

/-! ### No command is fatal (R148) -/

section
variable {nodes : List (Nat × Node)} {root : NodeIx} {k : Nat} (ht : TreeOk nodes root k) (f : Fault)
include ht

/-- A walk of a tree ends with all codes, or at a leaf whose symbol has one. -/
theorem TreeOk.deriveCodes_not_stuck : deriveCodes nodes root ≠ .error (.stuck f) := by
  by_cases hd : DistinctSymbols nodes root
  · obtain ⟨codes, h⟩ := exists_deriveCodes_of_distinct ht hd
    exact h ▸ nofun
  · obtain ⟨x, _, _, h, -⟩ := exists_deriveCodes_dup ht hd
    exact h ▸ nofun

theorem TreeOk.serialize_not_error : serialize nodes root ≠ .error f := by
  by_cases hroot : root = Config.null
  · rw [serialize, if_pos hroot]
    exact nofun
  · obtain ⟨_, _, -, h, -⟩ := ht.exists_records (mt ht.empty.mpr hroot)
    exact h ▸ nofun

end

section
variable {s : State} (ht : TreeOk s.nodes s.root s.nodeCount.toNat) (hs : s.PtrInTree) (f : Fault)
include ht hs

/-- A bit step is stuck only where PTR is NULL and ROOT is not; PTR inside the tree is not (44_bitstream.md R119). -/
theorem State.PtrInTree.bitStep_not_stuck (bit : Bool) : s.bitStep bit ≠ .stuck f := by
  intro hstuck
  rcases s.bitStep_cases bit with ⟨_, _, _, h⟩ | ⟨_, h⟩ | ⟨_, h⟩ | ⟨_, h⟩ | ⟨hr, hp, h⟩ <;> rw [h] at hstuck <;> cases hstuck
  rcases hs with hs | ⟨hin, -⟩
  · exact absurd (hs.symm.trans hp) hr
  · exact absurd hp (ht.ne_null hin)

theorem State.PtrInTree.bitSteps_not_stuck (bs : Bits) : s.bitSteps bs ≠ .stuck f := by
  induction bs generalizing s with
  | nil => exact nofun
  | cons b bs ih =>
    rw [State.bitSteps_cons]
    cases hb : s.bitStep b with
    | ok u => exact ih (((BitFrame.refl s).bitStep hb).treeOk ht) (hs.bitStep ht hb)
    | raised c u => exact nofun
    | stuck g => exact absurd hb (hs.bitStep_not_stuck ht g b)

end

theorem BodyEnds.not_stuck {i : Instr} {s : State} {f : Fault} (ht : InvTree s) (hs : InvSession s) :
    ¬BodyEnds i s (.stuck f) := by
  intro h
  cases h with
  | stuckWalk hv hwalk => exact (invTree_valid hv ht).deriveCodes_not_stuck f hwalk
  | stuckSerializer hv hser => exact (invTree_valid hv ht).serialize_not_error f hser
  | @stuckBits m pend bs _ hm hbits =>
    obtain ⟨-, -, hv, hptr, -⟩ := (invSession_dec hm).mp hs
    exact State.PtrInTree.bitSteps_not_stuck (s := { s with mode := m, pend := pend }) (invTree_valid hv ht) hptr f bs hbits

theorem exists_exec_next (i : Instr) {s : State} (ht : InvTree s) (hs : InvSession s) : ∃ t, exec i s = .next t := by
  obtain ⟨e, he, hends⟩ := exec_ends i s
  cases e with
  | ok u => exact ⟨_, he⟩
  | raised c u => exact ⟨_, he⟩
  | stuck f => exact absurd hends (BodyEnds.not_stuck ht hs)

theorem step_not_fault {s : State} (ht : InvTree s) (hs : InvSession s) (f : Fault) : step s ≠ .fault f := by
  rcases step_cases s with ⟨e, ts, -, h⟩ | ⟨ts, -, -, h⟩ | ⟨ts, w, ws, i, -, -, -, h⟩ | ⟨ts, w, ws, e, -, -, -, h⟩ <;> rw [h]
  · exact clockEdge_not_fault _ _ f
  · exact nofun
  · have hsame := SameCore.take s ws ts
    obtain ⟨t, hexec⟩ := exists_exec_next i (framed_invTree _ _ hsame ht) (framed_invSession _ _ hsame hs)
    exact hexec ▸ nofun
  · exact illegalWord_next w e _ ▸ nofun

/-! ### Result words (R140) -/

theorem legalResult_errResult {opc : Byte} {c : Cause} :
    LegalResult (errResult opc c) ↔ (c.code, c.detail) ∈ legalResults := by
  rw [LegalResult, codeOf_errResult, detailOf_errResult]

theorem legalResult_okResult (opc : Byte) : LegalResult (okResult opc) := by
  rw [LegalResult, codeOf_okResult, detailOf_okResult]
  decide

/-- Every cause has its numbers in the table of R140, and a stored error those of the word that stores it. -/
theorem State.MayRaise.legal {s : State} {op : Opcode} {c : Cause} (h : s.MayRaise op c) (hs : LegalResult s.sessErr) :
    (c.code, c.detail) ∈ legalResults := by
  cases c with
  | stored r =>
    obtain ⟨-, rfl⟩ := h
    exact hs
  | malformedTree d => cases d <;> decide
  | underrun u => cases u <;> decide
  | _ =>
    dsimp only [Cause.code, Cause.detail]
    decide

/-- A command raises SEQUENCE only where the mode turns it away (R143). -/
theorem State.MayRaise.code_ne_sequence {s : State} {op : Opcode} {c : Cause} (h : s.MayRaise op c)
    (ha : admitted op s.mode = true) (hs : s.sessFailed = false ∨ codeOf s.sessErr ≠ 0x11#8) : c.code ≠ 0x11#8 := by
  cases c with
  | sequence m => exact absurd ha (Bool.eq_false_iff.mp h.1)
  | stored r =>
    obtain ⟨hf, rfl⟩ := h
    exact hs.resolve_left (Bool.eq_false_iff.not.mpr (not_not_intro hf))
  | _ =>
    dsimp only [Cause.code]
    decide

theorem invResults_record {u : State} {r : Word} (hr : LegalResult r) (herr : LegalResult u.err)
    (hsess : LegalResult u.sessErr) : InvResults (u.record r) := by
  refine ⟨hr, ?_, hsess⟩
  rw [State.record_err]
  split
  · exact hr
  · exact herr

theorem legalResult_errBefore {s : State} (h : LegalResult s.err) (i : Instr) : LegalResult (s.errBefore i) := by
  cases i with
  | clrErr | reset => exact legalResult_zero
  | _ => exact h

theorem exec_keeps_invResults {i : Instr} {s t : State} (hs : InvResults s) (h : exec i s = .next t) : InvResults t := by
  obtain ⟨-, herr, hsess⟩ := hs
  have herr := legalResult_errBefore herr i
  rcases exec_next_cases h with ⟨u, hu, husess, rfl⟩ | ⟨c, u, hc, hu, husess, rfl⟩
  · refine invResults_record (legalResult_okResult _) (hu ▸ herr) ?_
    rcases husess with h | h
    · exact h ▸ hsess
    · exact h ▸ legalResult_zero
  · have hlegal := hc.legal hsess
    refine invResults_record (legalResult_errResult.mpr hlegal) (hu ▸ herr) ?_
    rcases husess with h | ⟨opc, h⟩
    · exact h ▸ hsess
    · exact h ▸ legalResult_errResult.mpr hlegal

theorem illegalWord_keeps_invResults {w : Word} {e : Illegal} {s t : State} (hs : InvResults s)
    (h : illegalWord w e s = .next t) : InvResults t := by
  obtain ⟨-, herr, hsess⟩ := hs
  rw [illegalWord_next] at h
  cases h
  cases e with
  | unknownOpcode => exact invResults_record (legalResult_errResult.mpr (by decide)) herr hsess
  | reservedBits op => exact invResults_record (u := s.respondZeros op) (legalResult_errResult.mpr (by decide)) herr hsess

theorem clockEdge_keeps_invResults {e : Edge} {s t : State} (hs : InvResults s) (h : clockEdge e s = .next t) :
    InvResults t := by
  rcases clockEdge_cases e s with ⟨-, he⟩ | ⟨hr, -, he⟩ | ⟨-, -, he⟩ <;> rw [he] at h <;> cases h
  · exact ⟨legalResult_zero, legalResult_zero, legalResult_zero⟩
  · rw [State.ports_eq hr]
    exact hs

theorem step_keeps_invResults {s t : State} (hs : InvResults s) (h : step s = .next t) : InvResults t := by
  rcases step_cases s with ⟨e, ts, -, h'⟩ | ⟨ts, -, -, h'⟩ | ⟨ts, w, ws, i, -, -, -, h'⟩ | ⟨ts, w, ws, e, -, -, -, h'⟩ <;>
    rw [h'] at h
  · exact clockEdge_keeps_invResults (s := { s with turns := ts }) hs h
  · cases h
    exact hs
  · exact exec_keeps_invResults (s := { s with cmdq := ws, turns := ts }) hs h
  · exact illegalWord_keeps_invResults (s := { s with cmdq := ws, turns := ts }) hs h

theorem hasNumbers_self (c : Cause) : HasNumbers c c.code c.detail c.info := ⟨rfl, rfl, rfl⟩

/-- The three fields of a result word, read back (10_state.md R25). -/
theorem hasNumbers_stored (opc code detail info : Byte) :
    HasNumbers (.stored (opc ++ code ++ detail ++ info)) code detail info :=
  ⟨(BitVec.extractLsb'_append_eq_of_le (w := 8) (by omega)).trans
      ((BitVec.extractLsb'_append_eq_of_le (w := 8) (by omega)).trans BitVec.extractLsb'_append_eq_right),
    (BitVec.extractLsb'_append_eq_of_le (w := 8) (by omega)).trans BitVec.extractLsb'_append_eq_right,
    BitVec.extractLsb'_append_eq_right⟩

/-- `ERR_PENDING` is bit 4 of `STATUS` (10_state.md R23). -/
theorem State.status_getLsbD_four (s : State) : s.status.getLsbD 4 = s.errPending := by
  simp only [State.status, flagBit, BitVec.getLsbD_append]
  simp

/-! ### Admission by mode (R143) and preconditions (R144) -/

/-- The rows of R143 that have a "no". -/
theorem not_admitted_iff {op : Opcode} {m : Mode} : admitted op m = false ↔
    (m ≠ .idle ∧ op ∈ [Opcode.freqClr, .freqAdd, .build, .derive, .ser, .desBegin, .encBegin, .decBegin]) ∨
    (m ≠ .des ∧ op ∈ [Opcode.desByte, .desEnd]) ∨ (m ≠ .enc ∧ op ∈ [Opcode.encSym, .encEnd]) ∨
    (m ≠ .dec ∧ op ∈ [Opcode.decByte, .decEnd]) ∨ (m = .des ∧ op = .rdNode) := by
  cases op <;> simp [admitted]

theorem State.respondZeros_of_no_response {op : Opcode} (h : responseCount op = 0) (s : State) : s.respondZeros op = s := by
  simp [State.respondZeros, State.respond, h]

theorem exec_of_not_admitted {i : Instr} {s : State} (ha : admitted i.opcode s.mode = false) :
    exec i s = .next ((s.respondZeros i.opcode).record (errResult i.opcode.byte (.sequence s.mode))) := by
  unfold exec
  cases i with
  | nop | reset | clrErr | abort | mark imm | rdReg r | rdFreq sym | rdClen sym | rdCode sym k => cases ha
  | rdNode idx => exact readCommand_sequence ha
  | _ =>
    rw [State.respondZeros_of_no_response rfl]
    exact command_sequence ha

theorem command_raises {op : Opcode} {s : State} {c : Cause} {body : State → Ended} (ha : admitted op s.mode = true)
    (hb : body s = .raised c s) :
    ∃ t, command op s body = .next t ∧ Raises op.byte c s t ∧ t = { s with last := t.last, err := t.err } :=
  ⟨_, command_raised ha hb, raises_record _ _ rfl, rfl⟩

/-! ### The obligations -/

/-- Settles O15: a body is stuck only in a traversal of the node table, and no traversal of a tree is: a path has at most 255
edges and a tree at most 511 nodes, so the walk and the serializer end, and PTR stays on an entry at every bit step. -/
theorem noCommandIsFatal : Obligations.NoCommandIsFatal :=
  ⟨fun i _ => exists_exec_next i, fun _ f ht hs => step_not_fault ht hs f⟩

/-- Settles O13: only CLR_ERR and RESET change ERR before the result word is recorded. -/
theorem everyCommandRecordsItsResult : Obligations.EveryCommandRecordsItsResult := by
  refine ⟨fun i s t h => ?_, fun w e s t h => ?_, State.status_getLsbD_four⟩
  · rcases exec_next_cases h with ⟨u, hu, -, rfl⟩ | ⟨c, u, -, hu, -, rfl⟩
    · exact ⟨opcField_okResult _, by rw [State.record_err, hu, State.errBefore_eq]; rfl⟩
    · exact ⟨opcField_errResult _ _, by rw [State.record_err, hu, State.errBefore_eq]; rfl⟩
  · rw [illegalWord_next] at h
    cases h
    cases e with
    | unknownOpcode => exact ⟨opcField_errResult _ _, rfl⟩
    | reservedBits op => exact ⟨opcField_errResult _ _, rfl⟩

/-- Settles O14: the mode check comes before the body, and no body raises SEQUENCE. -/
theorem modesAdmitCommands : Obligations.ModesAdmitCommands := by
  refine fun i s => ⟨fun hno => ?_, fun hyes hsess t h => ?_⟩
  · exact ⟨_, exec_of_not_admitted (not_admitted_iff.mpr hno), raises_record _ _ rfl, s.respondZeros_outq i.opcode, rfl⟩
  · have ha : admitted i.opcode s.mode = true := Bool.eq_true_of_not_eq_false (mt not_admitted_iff.mp hyes)
    rcases exec_next_cases h with ⟨u, -, -, rfl⟩ | ⟨c, u, hc, -, -, rfl⟩
    · rw [State.record_last, codeOf_okResult]
      decide
    · rw [State.record_last, codeOf_errResult]
      exact hc.code_ne_sequence ha hsess

/-- Settles O16: a command records no result word but its own or an error's, and SESS_ERR holds none but an error's; every cause
has its numbers in the table, and DEC_END repeats an error with the numbers of SESS_ERR. -/
theorem stepKeepsResultsLegal : Obligations.StepKeepsResultsLegal :=
  ⟨fun _ _ => step_keeps_invResults, hasNumbers_self _, hasNumbers_self _, hasNumbers_self _, hasNumbers_self _,
    hasNumbers_self _, hasNumbers_self _, hasNumbers_self _, hasNumbers_self _, hasNumbers_self _, hasNumbers_self _,
    hasNumbers_self _, hasNumbers_self _, hasNumbers_self _, hasNumbers_self _, fun _ => hasNumbers_self _,
    fun _ => ⟨rfl, rfl, BitVec.setWidth_eq_append (w := 8) (by omega)⟩, hasNumbers_self _, hasNumbers_self _,
    fun _ => hasNumbers_self _, hasNumbers_self _, hasNumbers_self _, hasNumbers_self _, hasNumbers_self _,
    hasNumbers_self _, hasNumbers_self _, fun _ => hasNumbers_self _, fun _ => hasNumbers_self _,
    fun _ => hasNumbers_self _, hasNumbers_stored⟩

/-- Settles O17: the mode admits the command, and its body asks for the table before anything else. -/
theorem commandsNeedTheirTable : Obligations.CommandsNeedTheirTable := by
  refine ⟨fun i s hm hv hi => ?_, fun s hm hv => ?_⟩
  · have hno : ¬s.treeValid = true := Bool.eq_false_iff.mp hv
    rcases hi with rfl | rfl | ⟨pad, rfl⟩
    · rw [exec, execDerive]
      exact command_raises (op := .derive) (beq_iff_eq.mpr hm) (if_neg hno)
    · rw [exec, execSer]
      exact command_raises (op := .ser) (beq_iff_eq.mpr hm) (if_neg hno)
    · rw [exec_decBegin]
      exact command_raises (op := .decBegin) (beq_iff_eq.mpr hm) (if_neg hno)
  · rw [exec, execEncBegin]
    exact command_raises (op := .encBegin) (beq_iff_eq.mpr hm) (if_neg (Bool.eq_false_iff.mp hv))

end Sys2Proof.Machine
end

section
/-!
PROOFS, 70_reset_and_hazards.md. The reset pin (R160, R172) and the broken command handshake (R168): which steps are refused, and
the obligations about them.
-/

namespace Sys2Proof.Machine

/-! ### The reset pin (R160, R172) -/

theorem clockEdge_of_rst {s : State} {e : Edge} (hr : e.rst = true) : clockEdge e s = .next s.pinReset := if_pos hr

/-- `cmd_ready` is low while `rst` is high (20_memory.md R48). -/
theorem Edge.cmdReadyPin_of_rst {e : Edge} (hr : e.rst = true) : e.cmdReadyPin = false := by simp [Edge.cmdReadyPin, hr]

theorem Edge.cmdTransfer_of_rst {e : Edge} (hr : e.rst = true) : e.cmdTransfer = false := by
  rw [Edge.cmdTransfer, Edge.cmdReadyPin_of_rst hr, Bool.and_false]

/-- `out_valid` is low while `rst` is high (20_memory.md R48). -/
theorem State.outValidPin_of_rst {e : Edge} (hr : e.rst = true) (s : State) : s.outValidPin e = false := by
  simp [State.outValidPin, hr]

theorem State.outTransfer_of_rst {e : Edge} (hr : e.rst = true) (s : State) : s.outTransfer e = false := by
  rw [State.outTransfer, State.outValidPin_of_rst hr, Bool.and_false]

/-! ### The refused steps (R168, 93_implementation_defined.md U2) -/

/-- The offer is not kept exactly when an offered word is dropped or changed. -/
theorem State.offerKept_eq_false_iff {s : State} {e : Edge} :
    s.offerKept e = false ↔ ∃ w, s.cmdOffer = some w ∧ (e.cmdValid = false ∨ e.cmdData ≠ w) := by
  rw [← Bool.not_eq_true, State.offerKept_iff]
  push Not
  simp only [← Bool.not_eq_true, imp_iff_not_or]

theorem clockEdge_eq_refused_iff {e : Edge} {s : State} {r : Refusal} :
    clockEdge e s = .refused r ↔ r = .handshakeBroken ∧ e.rst = false ∧ s.offerKept e = false := by
  rcases clockEdge_cases e s with ⟨hr, h⟩ | ⟨-, hk, h⟩ | ⟨hr, hk, h⟩ <;> rw [h]
  · simp [hr]
  · simp [hk]
  · simp [hr, hk, eq_comm]

theorem illegalWord_not_refused (w : Word) (e : Illegal) (s : State) (r : Refusal) : illegalWord w e s ≠ .refused r :=
  illegalWord_next w e s ▸ nofun

/-- Only a clock edge is refused: no turn without an accepted command is, no command, and no illegal word. -/
theorem step_eq_refused_iff {s : State} {r : Refusal} :
    step s = .refused r ↔ ∃ e ts, s.turns = .edge e :: ts ∧ clockEdge e { s with turns := ts } = .refused r := by
  refine ⟨fun h => ?_, fun ⟨e, ts, ht, h⟩ => (step_of_edge ht).trans h⟩
  rcases step_cases s with ⟨e, ts, ht, h'⟩ | ⟨ts, -, -, h'⟩ | ⟨ts, w, ws, i, -, -, -, h'⟩ | ⟨ts, w, ws, e, -, -, -, h'⟩ <;>
    rw [h'] at h
  · exact ⟨e, ts, ht, h⟩
  · cases h
  · exact absurd h (exec_not_refused i _ r)
  · exact absurd h (illegalWord_not_refused w e _ r)

/-! ### The obligations -/

/-- Settles O12: only an edge is refused, and an edge only when `rst` is low and the offered word is not kept. -/
theorem onlyBrokenHandshakesAreRefused : Obligations.OnlyBrokenHandshakesAreRefused := by
  intro s r
  rw [step_eq_refused_iff]
  constructor
  · rintro ⟨e, ts, ht, h⟩
    obtain ⟨rfl, hr, hk⟩ := clockEdge_eq_refused_iff.mp h
    obtain ⟨w, hw, hbroken⟩ := State.offerKept_eq_false_iff.mp hk
    exact ⟨rfl, e, ts, w, ht, hr, hw, hbroken⟩
  · rintro ⟨rfl, e, ts, w, ht, hr, hw, hbroken⟩
    exact ⟨e, ts, ht, clockEdge_eq_refused_iff.mpr ⟨rfl, hr, State.offerKept_eq_false_iff.mpr ⟨w, hw, hbroken⟩⟩⟩

/-- Settles O10: such an edge is the reset pin's, and with `rst` high neither side of a port can complete a transfer. -/
theorem pinResetGivesResetState : Obligations.PinResetGivesResetState := fun s _ _ ht hr =>
  ⟨(step_of_edge ht).trans (clockEdge_of_rst hr), Edge.cmdReadyPin_of_rst hr, State.outValidPin_of_rst hr s,
    Edge.cmdTransfer_of_rst hr, State.outTransfer_of_rst hr s⟩

end Sys2Proof.Machine
end
